-- ==== Sys2Proof/Word.lean ====
section
/-! DEFINITION. The word types of the engine: bytes, 32-bit channel words, 4-bit unit indices and 4-byte tokens. -/

namespace Sys2Proof

/-- A byte, 0 to 255 (spec/00_scope.md section 6). -/
abbrev Byte := BitVec 8

/-- A command word, an extension word or a word of a result (R70, R102, R110). -/
abbrev Word32 := BitVec 32

/-- The `UNIT` field: the index of an alphabet slot, an encoder or a decoder (R103). -/
abbrev UnitIdx := BitVec 4

/-- The `ARG` field of a command word (R103): `LENW` is 24 bits (R10). -/
abbrev Arg := BitVec 24

/-- A token: a sequence of exactly 4 bytes, byte 0 first (R22, R68). -/
structure Token where
  b0 : Byte
  b1 : Byte
  b2 : Byte
  b3 : Byte
  deriving DecidableEq, Repr

end Sys2Proof
end

