-- ==== Sys2Proof/Config.lean ====
section
/-! DEFINITION. The fixed constants of R9, the widths of R10 and the free values of the model: the contents of the
datapath registers after the command that used them has ended (U6). The counts `N_ALPHA`, `N_ENC` and `N_DEC` (R10,
OPEN) are no constants of this file: they stand in `State.params`, so that every statement holds for each of their
values. -/

namespace Sys2Proof.Config

/-- `NTOK`: tokens in an alphabet (R9). -/
def nTok : Nat := 4

/-- `TOKB`: bytes in a token (R9). -/
def tokB : Nat := 4

/-- `VBITS`: bits a token encodes (R9). -/
def vBits : Nat := 2

/-- `SPECB`: bytes in an alphabet specification (R9). -/
def specB : Nat := 16

/-- `TPB`: tokens per decoded byte (R9). -/
def tpb : Nat := 4

/-- `GRPB`: encoded bytes per decoded byte, one group (R9). -/
def grpB : Nat := 16

/-- `LEFTMAX`: the largest leftover length between calls (R9). -/
def leftMax : Nat := 15

/-- `LEN_MAX`: the largest length or capacity in one command (R10). -/
def lenMax : Nat := 16777215

/-- The largest value of each of `N_ALPHA`, `N_ENC` and `N_DEC` (R10). -/
def unitMax : Nat := 16

/-- FREE VALUE. What the 8-bit datapath register `ECUR` holds after a command has ended
(R28, U6: "any value"). It has no body, so no statement can rest on it (assumption 5). -/
opaque freeEcur : Nat → Byte

/-- FREE VALUE. What the encoder scratch `ESCR` holds after a command has ended (R28, U6; assumption 5). -/
opaque freeEscr : Nat → List Byte

/-- FREE VALUE. What the decoder scratch `DSCR` holds after a read has ended (R35, U6; assumption 5). -/
opaque freeDscr : Nat → List Byte

/-- FREE VALUE. What `DACC` holds after a read has ended (R35, U6; assumption 5). -/
opaque freeDacc : Nat → Byte

/-- FREE VALUE. What `DK` holds after a read has ended (R35, U6; assumption 5). -/
opaque freeDk : Nat → BitVec 2

/-- FREE VALUE. What `DPOS` holds after a read has ended (R35, U6; assumption 5). -/
opaque freeDpos : Nat → Nat

end Sys2Proof.Config
end

