-- ==== Sys2Proof/Syntax.lean ====
section
/-! DEFINITION. A command as it arrives (R102, R119) and the eleven commands of the opcode table (R106, R107) as one
inductive. -/

namespace Sys2Proof

/-- A command as the engine receives it: the command word, the extension word if there is one, and the payload
(R102, R119: "a model takes a command as the triple"). -/
structure Command where
  cw : Word32
  ext : Option Word32
  payload : List Byte
  deriving DecidableEq, Repr

/-- The eleven commands, one constructor per row of spec/opcode_table.json, with the operands of R107. A payload is an
operand: `ARG` is its length and is not written (R120). -/
inductive Instr where
  /-- `ALPHA.LOAD a<s>, P` (R131). -/
  | alphaLoad (slot : UnitIdx) (p : List Byte)
  /-- `ALPHA.MUST a<s>, P` (R134). -/
  | alphaMust (slot : UnitIdx) (p : List Byte)
  /-- `ALPHA.ENCV a<s>, v` (R136). -/
  | alphaEncv (slot : UnitIdx) (v : BitVec 2)
  /-- `ALPHA.DECT a<s>, w`: the payload is the 4 bytes of one token (R137). -/
  | alphaDect (slot : UnitIdx) (w : Token)
  /-- `ENC.OPEN e<i>, a<s>` (R151). -/
  | encOpen (e : UnitIdx) (slot : UnitIdx)
  /-- `ENC.WRITE e<i>, P` (R152). -/
  | encWrite (e : UnitIdx) (p : List Byte)
  /-- `DEC.OPEN d<i>, a<s>` (R171). -/
  | decOpen (d : UnitIdx) (slot : UnitIdx)
  /-- `DEC.READ d<i>, C` (R172). -/
  | decRead (d : UnitIdx) (cap : Arg)
  /-- `DEC.INTO d<i>, D` (R186). -/
  | decInto (d : UnitIdx) (size : Arg)
  /-- `OS.ENCODE a<s>, P, cap=DCAP` (R201). -/
  | osEncode (slot : UnitIdx) (p : List Byte) (dcap : Word32)
  /-- `OS.DECODE a<s>, P, cap=DCAP` (R202). -/
  | osDecode (slot : UnitIdx) (p : List Byte) (dcap : Word32)
  deriving DecidableEq, Repr

end Sys2Proof
end

