-- ==== Sys2Proof/WellFormed.lean ====
section
/-! DEFINITION. Which terms of `Instr` a command word can spell: every operand field is bounded by its type but a
payload, whose length must fit the 24-bit `ARG` field (R10, R105, R107). -/

namespace Sys2Proof

/-- A payload's length fits `ARG`: 0 to `LEN_MAX` (R10, R107). -/
abbrev PayloadFits (p : List Byte) : Prop := p.length ≤ Config.lenMax

/-- The terms that a command can spell (R105, R107). -/
def Instr.WellFormed : Instr → Prop
  | .alphaLoad _ p => PayloadFits p
  | .alphaMust _ p => PayloadFits p
  | .alphaEncv _ _ => True
  | .alphaDect _ _ => True
  | .encOpen _ _ => True
  | .encWrite _ p => PayloadFits p
  | .decOpen _ _ => True
  | .decRead _ _ => True
  | .decInto _ _ => True
  | .osEncode _ p _ => PayloadFits p
  | .osDecode _ p _ => PayloadFits p

/-- The same check as a Bool. -/
def Instr.wf : Instr → Bool
  | .alphaLoad _ p => decide (PayloadFits p)
  | .alphaMust _ p => decide (PayloadFits p)
  | .alphaEncv _ _ => true
  | .alphaDect _ _ => true
  | .encOpen _ _ => true
  | .encWrite _ p => decide (PayloadFits p)
  | .decOpen _ _ => true
  | .decRead _ _ => true
  | .decInto _ _ => true
  | .osEncode _ p _ => decide (PayloadFits p)
  | .osDecode _ p _ => decide (PayloadFits p)

end Sys2Proof
end

