-- ==== Sys2Proof/Decode.lean ====
section
/-! DEFINITION. Decoding of commands (R102 to R108, R114, R115), total on every triple of a command word, an optional
extension word and a payload, with a named reason for each rejection; the encoder, written from the same tables; and
the pseudo-operations of R123. The range of `UNIT` against the counts of the machine (R116) is no part of decoding:
`Machine/Operands.lean` tests it. -/

namespace Sys2Proof

/-- Why a triple is not one of the eleven commands. -/
inductive DecodeError where
  /-- The extension word is missing or too many, or the payload has not the length R105 gives: not a command at all
  (U4: "anything else is not a command"). -/
  | notACommand
  /-- `OP` is `0x0` or `0xC` to `0xF` (R114). -/
  | reservedOpcode
  /-- A reserved-bit constraint of the opcode is broken (R115). -/
  | reservedBits
  deriving DecidableEq, Repr

/-- `OP = CW[31:28]` (R103). -/
def opField (cw : Word32) : BitVec 4 := cw.extractLsb' 28 4

/-- `UNIT = CW[27:24]` (R103). -/
def unitField (cw : Word32) : UnitIdx := cw.extractLsb' 24 4

/-- `ARG = CW[23:0]` (R103). -/
def argField (cw : Word32) : Arg := cw.extractLsb' 0 24

/-- Format L, one extension word, exactly for `OP = 0xA` and `0xB` (R108). -/
def isLong (cw : Word32) : Bool := opField cw == 0xA || opField cw == 0xB

/-- The payload's length in bytes: `ARG` for the six opcodes that take one, else none (R105). -/
def payloadLength (cw : Word32) : Nat :=
  match (opField cw).toNat with
  | 0x1 => (argField cw).toNat
  | 0x2 => (argField cw).toNat
  | 0x4 => (argField cw).toNat
  | 0x6 => (argField cw).toNat
  | 0xA => (argField cw).toNat
  | 0xB => (argField cw).toNat
  | _ => 0

/-- The triple is a command: the extension word is there exactly for format L and the payload has exactly the stated
length (R105, R108). -/
def Command.complete (c : Command) : Bool :=
  c.ext.isSome == isLong c.cw && c.payload.length == payloadLength c.cw

/-- The token that a 4-byte sequence spells, byte 0 first (R68). -/
def Token.ofBytes (bs : List Byte) : Token :=
  ⟨bs.getD 0 0, bs.getD 1 0, bs.getD 2 0, bs.getD 3 0⟩

/-- The 4 bytes of a token, in sequence order (R68). -/
def Token.bytes (w : Token) : List Byte := [w.b0, w.b1, w.b2, w.b3]

/-- The opcode map (R106) with the operand assembly (R107) and the constraints on the word (R115), for a triple that is
complete. -/
def decodeFields (cw : Word32) (ext : Word32) (p : List Byte) : Except DecodeError Instr :=
  match (opField cw).toNat with
  | 0x1 => .ok (.alphaLoad (unitField cw) p)
  | 0x2 => .ok (.alphaMust (unitField cw) p)
  | 0x3 =>
    if (argField cw).extractLsb' 2 22 = 0 then .ok (.alphaEncv (unitField cw) ((argField cw).extractLsb' 0 2))
    else .error .reservedBits
  | 0x4 =>
    if argField cw = 4 then .ok (.alphaDect (unitField cw) (Token.ofBytes p)) else .error .reservedBits
  | 0x5 =>
    if (argField cw).extractLsb' 4 20 = 0 then .ok (.encOpen (unitField cw) ((argField cw).extractLsb' 0 4))
    else .error .reservedBits
  | 0x6 => .ok (.encWrite (unitField cw) p)
  | 0x7 =>
    if (argField cw).extractLsb' 4 20 = 0 then .ok (.decOpen (unitField cw) ((argField cw).extractLsb' 0 4))
    else .error .reservedBits
  | 0x8 => .ok (.decRead (unitField cw) (argField cw))
  | 0x9 => .ok (.decInto (unitField cw) (argField cw))
  | 0xA => .ok (.osEncode (unitField cw) p ext)
  | 0xB => .ok (.osDecode (unitField cw) p ext)
  | _ => .error .reservedOpcode

/-- The decoder: total, and every rejection has a name. -/
def decode (c : Command) : Except DecodeError Instr :=
  if c.complete then decodeFields c.cw (c.ext.getD 0) c.payload else .error .notACommand

/-! ## The encoder -/

/-- A command word from its three fields (R103). -/
def mkWord (op : BitVec 4) (u : UnitIdx) (arg : Arg) : Word32 := op ++ u ++ arg

/-- The `ARG` field of a command that has a payload: the payload's length (R105). -/
def lengthArg (p : List Byte) : Arg := BitVec.ofNat 24 p.length

/-- The command that spells an instruction (R106, R107). -/
def encode : Instr → Command
  | .alphaLoad u p => ⟨mkWord 0x1 u (lengthArg p), none, p⟩
  | .alphaMust u p => ⟨mkWord 0x2 u (lengthArg p), none, p⟩
  | .alphaEncv u v => ⟨mkWord 0x3 u (v.setWidth 24), none, []⟩
  | .alphaDect u w => ⟨mkWord 0x4 u 4, none, w.bytes⟩
  | .encOpen u a => ⟨mkWord 0x5 u (a.setWidth 24), none, []⟩
  | .encWrite u p => ⟨mkWord 0x6 u (lengthArg p), none, p⟩
  | .decOpen u a => ⟨mkWord 0x7 u (a.setWidth 24), none, []⟩
  | .decRead u c => ⟨mkWord 0x8 u c, none, []⟩
  | .decInto u n => ⟨mkWord 0x9 u n, none, []⟩
  | .osEncode u p cap => ⟨mkWord 0xA u (lengthArg p), some cap, p⟩
  | .osDecode u p cap => ⟨mkWord 0xB u (lengthArg p), some cap, p⟩

/-! ## Words as the opcode table numbers them -/

/-- The command whose words are the bits of `w` below bit `nbits`, bit 0 the least significant bit of the command word
and bit 32 that of the extension word, with a payload of zeros of the length the command word states. -/
def tableCommand (nbits w : Nat) : Command :=
  let bits := w % 2 ^ nbits
  let cw : Word32 := BitVec.ofNat 32 bits
  ⟨cw, if isLong cw then some (BitVec.ofNat 32 (bits / 2 ^ 32)) else none, List.replicate (payloadLength cw) 0⟩

/-- The instruction the decoder reads from the words of `tableCommand`. -/
def decodeTableWord (nbits w : Nat) : Option Instr :=
  match decode (tableCommand nbits w) with
  | .ok i => some i
  | .error _ => none

/-! ## Pseudo-operations (R123) -/

/-- `OS.ENCODES a<s>, <string>`: `OS.ENCODE` with `cap = 16 * n` (R123, R206). -/
def osEncodes (slot : UnitIdx) (p : List Byte) : Instr := .osEncode slot p (BitVec.ofNat 32 (16 * p.length))

/-- `OS.DECODES a<s>, <string>`: `OS.DECODE` with `cap = n div 16` (R123, R206). -/
def osDecodes (slot : UnitIdx) (p : List Byte) : Instr := .osDecode slot p (BitVec.ofNat 32 (p.length / 16))

end Sys2Proof
end

