-- ==== Sys2Proof/Machine/State.lean ====
section
/-! DEFINITION. The state of the engine, register by register as R20 lists it, with the model's own fields for what the
environment supplies and receives (R39: commands, answers of the sources and sinks, the schedule; results), and the
state after reset (R42, R251). -/

namespace Sys2Proof.Machine

/-- Why the machine stops with a fault. -/
inductive Fault where
  /-- Raised by `step` alone: the engine is halted by a failing `ALPHA.MUST` (R135) and nothing more comes from outside,
  no reset either, so it is stuck (U10). Safe: the hardware does nothing at all there. -/
  | halted
  deriving DecidableEq, Repr

/-- Why the model gives a step no meaning. -/
inductive Refusal where
  /-- An instruction that has no meaning yet; no arm of `exec` raises it. Safe. -/
  | notModelled (mnemonic : String)
  /-- Raised when a presented triple is no command: its payload or its extension word has not the length the command
  word states (U4: "refuse"). Safe: outside every claim. -/
  | notACommand
  /-- Raised by `ENC.WRITE` when a sink accepts fewer bytes than offered and reports no error, or claims more than
  offered (U2, R67: "refuse"). Safe: outside every claim. -/
  | sinkBrokeDuty
  /-- Raised by `DEC.READ` and `DEC.INTO` when a source returns more bytes than asked for (U3, R66: "refuse"). Safe:
  outside every claim. -/
  | sourceBrokeDuty
  deriving DecidableEq, Repr

/-- The statuses of R111; the codes 10 to 14 are never produced and have no constructor. -/
inductive Status where
  | ok
  | invalidAlphabetLength
  | duplicateToken
  | invalidWord
  | invalidSourceLength
  | bufferTooSmall
  | endOfStream
  | sourceError
  | sinkError
  | notFound
  | refused
  deriving DecidableEq, Repr

/-- The phases of a decoder (R32). -/
inductive Phase where
  | idle
  | filling
  | decoding
  | carry
  | fault
  deriving DecidableEq, Repr

/-- A result: the fields of `RW0` and `RW1` and the data bytes (R110). `Result.rw0` and `Result.rw1` (Machine/Flags.lean)
are the two words. -/
structure Result where
  status : Status
  count : BitVec 28
  info : Word32
  data : List Byte
  deriving DecidableEq, Repr

/-- The status that comes with a source's answer (R66). -/
inductive SrcStatus where
  /-- No error; more data may follow. -/
  | none
  /-- The end-of-stream signal. -/
  | eos
  /-- Any other source error, with its opaque 32-bit code. -/
  | err (code : Word32)
  deriving DecidableEq, Repr

/-- A source's answer to one `SrcRead`: the bytes `B` and the status `st` (R66). -/
structure SrcAnswer where
  bytes : List Byte
  st : SrcStatus
  deriving DecidableEq, Repr

/-- A sink's answer to one `SinkWrite`: the number `m` of bytes accepted, and the error code if there is an error (R67). -/
structure SinkAnswer where
  accepted : Nat
  err : Option Word32
  deriving DecidableEq, Repr

/-! ## Registers -/

/-- An alphabet slot: `AVALID[s]` (R21) and the four token registers `TOK[s][0..3]` (R22). -/
structure AlphaSlot where
  valid : Bool
  tok : Vector Token 4
  deriving DecidableEq, Repr

/-- The encoder datapath registers `ECUR[e]` and `ESCR[e]`, alive only inside one `ENC.WRITE` (R28). -/
structure EncPath where
  ecur : Byte
  escr : List Byte
  deriving DecidableEq, Repr

/-- An `ENC.WRITE` in progress: who gave it and its payload. It exists while the write waits for its sink (R271). -/
structure EncJob where
  caller : Nat
  payload : List Byte
  deriving DecidableEq, Repr

/-- An encoder instance: `EBOUND`, `EASEL` (R25), `ELOCK` (R26), `EHWM` (R27), the datapath registers (R28), and the
command in progress that the lock stands for. -/
structure Encoder where
  bound : Bool
  asel : UnitIdx
  lock : Bool
  hwm : BitVec 28
  path : EncPath
  job : Option EncJob
  deriving DecidableEq, Repr

/-- The decoder datapath registers `DSCR[d]`, `DACC[d]`, `DK[d]` and `DPOS[d]`, alive only inside one read (R35). -/
structure DecPath where
  dscr : List Byte
  dacc : Byte
  dk : BitVec 2
  dpos : Nat
  deriving DecidableEq, Repr

/-- A `DEC.READ` (`into = false`) or a `DEC.INTO` (`into = true`) in progress: who gave it, its capacity `C` or size `D`,
and the bytes `out` that the finished inner reads of a `DEC.INTO` have decoded (R186). -/
structure DecJob where
  caller : Nat
  into : Bool
  cap : Arg
  out : List Byte
  deriving DecidableEq, Repr

/-- A decoder instance: `DBOUND`, `DASEL` (R29), `DLOCK` (R30), `DPHASE` (R32), `DLEFTLEN` and `DLEFT[0..14]` (R31),
`DBAD` (R33), the datapath registers (R35), and the command in progress that the lock stands for. -/
structure Decoder where
  bound : Bool
  asel : UnitIdx
  lock : Bool
  phase : Phase
  leftLen : BitVec 4
  left : Vector Byte 15
  bad : Token
  path : DecPath
  job : Option DecJob
  deriving DecidableEq, Repr

/-- The counts `N_ALPHA`, `N_ENC` and `N_DEC`, OPEN parameters of the hardware, 1 to 16 each (R10). No step changes them. -/
structure Params where
  nAlpha : Nat
  nEnc : Nat
  nDec : Nat
  deriving DecidableEq, Repr

/-! ## The environment -/

/-- What happens next outside the engine, or which agent of the engine moves next (R6): the schedule of a run, one entry
for each step. -/
inductive Input where
  /-- A caller presents a command. -/
  | present (caller : Nat) (c : Command)
  /-- The engine takes up the command number `k` of those that wait, in an order that R83 leaves free. -/
  | accept (k : Nat)
  /-- Encoder `e` goes on with the write it has in progress. -/
  | serveEnc (e : UnitIdx)
  /-- Decoder `d` goes on with the command it has in progress: one source read (R188). -/
  | serveDec (d : UnitIdx)
  /-- The sink wired to encoder `e` is ready to give this answer to its next write. -/
  | sinkReady (e : UnitIdx) (a : SinkAnswer)
  /-- The source wired to decoder `d` is ready to give this answer to its next read. -/
  | sourceReady (d : UnitIdx) (a : SrcAnswer)
  /-- Reset (R250). Entry `e` of `taken` says how many bytes the sink of encoder `e` took of a write that the reset cuts
  short, which the engine does not know (R252, U8). -/
  | reset (taken : List Nat)
  deriving DecidableEq, Repr

/-- What the engine does that the outside can see, one entry for each event. -/
inductive Output where
  /-- A result goes to the caller that issued the command (R220); `instr` is the command, none if its word spells no
  instruction. -/
  | result (caller : Nat) (instr : Option Instr) (r : Result)
  /-- Decoder `d` made one `SrcRead(d, R)` and got this answer (R66). -/
  | srcRead (d : UnitIdx) (request : Nat) (a : SrcAnswer)
  /-- Encoder `e` made one `SinkWrite(e, B)` and got this answer (R67). -/
  | sinkWrite (e : UnitIdx) (offered : List Byte) (a : SinkAnswer)
  /-- A reset cut short a write of encoder `e`; its sink had taken the first `took` bytes (U8). -/
  | sinkCut (e : UnitIdx) (offered : List Byte) (took : Nat)
  /-- The engine was reset (R250). -/
  | reset
  deriving DecidableEq, Repr

end Sys2Proof.Machine

namespace Sys2Proof.Machine

/-- The machine. The first four fields are the engine's registers (R20); `params` are the OPEN counts (R10); the rest is
the environment of R39, the model's own: inputs not yet consumed, commands that wait, port answers that are ready, and
the record of everything that went out, newest first. The vectors have a place for each of the 16 values of `UNIT`; the
places at and above a count do not exist in the hardware, and no command reaches them (R116). -/
structure State where
  halted : Bool
  alpha : Vector AlphaSlot 16
  enc : Vector Encoder 16
  dec : Vector Decoder 16
  params : Params
  caller : Nat
  inputs : List Input
  waiting : List (Nat × Command)
  sinkIn : Vector (List SinkAnswer) 16
  srcIn : Vector (List SrcAnswer) 16
  trace : List Output
  deriving DecidableEq, Repr

/-- A token register at reset: "unspecified" (R42), here four zero bytes (assumption 4). -/
def zeroToken : Token := ⟨0, 0, 0, 0⟩

/-- An alphabet slot at reset: empty (R42). -/
def AlphaSlot.reset : AlphaSlot := ⟨false, Vector.replicate 4 zeroToken⟩

/-- An encoder at reset (R42). -/
def Encoder.reset : Encoder := ⟨false, 0, false, 0, ⟨0, []⟩, none⟩

/-- A decoder at reset (R42). -/
def Decoder.reset : Decoder :=
  ⟨false, 0, false, .idle, 0, Vector.replicate 15 0, zeroToken, ⟨[], 0, 0, 0⟩, none⟩

/-- The machine right after reset (R42, R251). `N_ALPHA = N_ENC = N_DEC = 2` is the choice of assumption 3; the
environment is empty. -/
def State.reset : State where
  halted := false
  alpha := Vector.replicate 16 AlphaSlot.reset
  enc := Vector.replicate 16 Encoder.reset
  dec := Vector.replicate 16 Decoder.reset
  params := ⟨2, 2, 2⟩
  caller := 0
  inputs := []
  waiting := []
  sinkIn := Vector.replicate 16 []
  srcIn := Vector.replicate 16 []
  trace := []

end Sys2Proof.Machine
end

