-- ==== Sys2Proof/Machine/Operands.lean ====
section
/-! DEFINITION. The operand forms: which object a command addresses (R107), whether it exists (R116), the lock it waits
for (R130 step 2), and access to the register files by a 4-bit index. -/

namespace Sys2Proof.Machine

/-! ## Register files -/

/-- Alphabet slot `a`. -/
def State.slotAt (s : State) (a : UnitIdx) : AlphaSlot := s.alpha[a.toNat]'a.isLt

/-- Encoder `e`. -/
def State.encAt (s : State) (e : UnitIdx) : Encoder := s.enc[e.toNat]'e.isLt

/-- Decoder `d`. -/
def State.decAt (s : State) (d : UnitIdx) : Decoder := s.dec[d.toNat]'d.isLt

/-- The answers that the sink of encoder `e` is ready to give, the next one first. -/
def State.sinkAt (s : State) (e : UnitIdx) : List SinkAnswer := s.sinkIn[e.toNat]'e.isLt

/-- The answers that the source of decoder `d` is ready to give, the next one first. -/
def State.srcAt (s : State) (d : UnitIdx) : List SrcAnswer := s.srcIn[d.toNat]'d.isLt

/-- Write alphabet slot `a`. -/
def State.setSlot (s : State) (a : UnitIdx) (x : AlphaSlot) : State :=
  { s with alpha := s.alpha.set a.toNat x a.isLt }

/-- Write encoder `e`. -/
def State.setEnc (s : State) (e : UnitIdx) (x : Encoder) : State :=
  { s with enc := s.enc.set e.toNat x e.isLt }

/-- Write decoder `d`. -/
def State.setDec (s : State) (d : UnitIdx) (x : Decoder) : State :=
  { s with dec := s.dec.set d.toNat x d.isLt }

/-- Write the ready answers of the sink of encoder `e`. -/
def State.setSink (s : State) (e : UnitIdx) (x : List SinkAnswer) : State :=
  { s with sinkIn := s.sinkIn.set e.toNat x e.isLt }

/-- Write the ready answers of the source of decoder `d`. -/
def State.setSrc (s : State) (d : UnitIdx) (x : List SrcAnswer) : State :=
  { s with srcIn := s.srcIn.set d.toNat x d.isLt }

/-- Write `HALTED`. -/
def State.setHalted (s : State) (x : Bool) : State := { s with halted := x }

/-- Set the caller whose command is taken up. -/
def State.setCaller (s : State) (x : Nat) : State := { s with caller := x }

/-- Set the inputs that are still to come. -/
def State.setInputs (s : State) (x : List Input) : State := { s with inputs := x }

/-- Set the commands that wait. -/
def State.setWaiting (s : State) (x : List (Nat × Command)) : State := { s with waiting := x }

/-- Register `TOK[s][v]` of a slot's four token registers. -/
def tok (t : Vector Token 4) (v : BitVec 2) : Token := t[v.toNat]'v.isLt

/-- The token registers of alphabet slot `a`. -/
def State.tokens (s : State) (a : UnitIdx) : Vector Token 4 := (s.slotAt a).tok

/-- The leftover of a decoder: `DLEFT[d][0 .. DLEFTLEN[d])`, in stream order (R31). -/
def Decoder.leftover (D : Decoder) : List Byte := D.left.toList.take D.leftLen.toNat

/-- `DLEFT[d][0 .. r) <- tail` and `DLEFTLEN[d] <- r` with `r = |tail|`; the bytes at `r` and above keep what they hold
(R178, R41). -/
def Decoder.setLeftover (D : Decoder) (tail : List Byte) : Decoder :=
  { D with
    left := Vector.ofFn fun i : Fin 15 => tail.getD i.val D.left[i]
    leftLen := BitVec.ofNat 4 tail.length }

/-! ## What a command addresses -/

/-- The object that `UNIT` names (R107). -/
inductive Target where
  | alpha (a : UnitIdx)
  | enc (e : UnitIdx)
  | dec (d : UnitIdx)
  deriving DecidableEq, Repr

/-- The object an instruction addresses with `UNIT` (R107). -/
def targetOf : Instr → Target
  | .alphaLoad a _ => .alpha a
  | .alphaMust a _ => .alpha a
  | .alphaEncv a _ => .alpha a
  | .alphaDect a _ => .alpha a
  | .encOpen e _ => .enc e
  | .encWrite e _ => .enc e
  | .decOpen d _ => .dec d
  | .decRead d _ => .dec d
  | .decInto d _ => .dec d
  | .osEncode a _ _ => .alpha a
  | .osDecode a _ _ => .alpha a

/-- The object a command word addresses, by its opcode alone; none for a reserved opcode (R106, R107). -/
def wordTarget (cw : Word32) : Option Target :=
  match (opField cw).toNat with
  | 0x1 | 0x2 | 0x3 | 0x4 => some (.alpha (unitField cw))
  | 0x5 | 0x6 => some (.enc (unitField cw))
  | 0x7 | 0x8 | 0x9 => some (.dec (unitField cw))
  | 0xA | 0xB => some (.alpha (unitField cw))
  | _ => none

/-- The object exists: its index is below the count of its kind (R116). -/
def State.inRange (s : State) : Target → Bool
  | .alpha a => decide (a.toNat < s.params.nAlpha)
  | .enc e => decide (e.toNat < s.params.nEnc)
  | .dec d => decide (d.toNat < s.params.nDec)

/-- The exclusion lock of the object is taken; an alphabet slot has none (R26, R30, R138). -/
def State.locked (s : State) : Target → Bool
  | .alpha _ => false
  | .enc e => (s.encAt e).lock
  | .dec d => (s.decAt d).lock

/-- A command on this object is held back now: the engine is halted (R135), or the object exists and its lock is taken
(R130 steps 1 and 2). -/
def State.heldBack (s : State) (t : Target) : Bool := s.halted || (s.inRange t && s.locked t)

/-- Set or clear the lock of the object (R26, R30); nothing for an alphabet slot. -/
def State.setLock (s : State) (b : Bool) : Target → State
  | .alpha _ => s
  | .enc e => s.setEnc e { s.encAt e with lock := b }
  | .dec d => s.setDec d { s.decAt d with lock := b }

/-- The alphabet slot that an `OPEN` command names exists (R116). -/
def State.slotInRange (s : State) (a : UnitIdx) : Bool := decide (a.toNat < s.params.nAlpha)

end Sys2Proof.Machine
end

