-- ==== Sys2Proof/Machine/Flags.lean ====
section
/-! DEFINITION. The packed forms: the status codes (R111), the two result words (R110), `pack4` (R109), the phase numbers
(R32), the engine's flags (R37) and its packed register forms (R38). The engine has no condition code and no arithmetic
flag (R37); its flags are the 1-bit registers, the phase `FAULT` and `HALTED`. No command reads a packed form (R38). -/

namespace Sys2Proof.Machine

/-- The status numbers (R111). -/
def Status.code : Status → BitVec 4
  | .ok => 0
  | .invalidAlphabetLength => 1
  | .duplicateToken => 2
  | .invalidWord => 3
  | .invalidSourceLength => 4
  | .bufferTooSmall => 5
  | .endOfStream => 6
  | .sourceError => 7
  | .sinkError => 8
  | .notFound => 9
  | .refused => 15

/-- `RW0 = STATUS[31:28], COUNT[27:0]` (R110). -/
def Result.rw0 (r : Result) : Word32 := r.status.code ++ r.count

/-- `RW1 = INFO` (R110). -/
def Result.rw1 (r : Result) : Word32 := r.info

/-- `pack4(w)`: byte 0 in bits 7:0 (R109). -/
def pack4 (w : Token) : Word32 := w.b3 ++ w.b2 ++ w.b1 ++ w.b0

/-- `return (ST, count, info, data)` builds this result (R110). -/
def mkResult (st : Status) (count : Nat) (info : Word32) (data : List Byte) : Result :=
  ⟨st, BitVec.ofNat 28 count, info, data⟩

/-- The result of every refused command: `(Refused, 0, 0, [])` (R113, R231). -/
def refusedResult : Result := mkResult .refused 0 0 []

/-- The numbers of the phases (R32). -/
def Phase.number : Phase → BitVec 3
  | .idle => 0
  | .filling => 1
  | .decoding => 2
  | .carry => 3
  | .fault => 4

/-- One bit as a word of one bit. -/
def bit (b : Bool) : BitVec 1 := BitVec.ofBool b

/-- `GSTAT`: `HALTED` in bit 0 (R38). -/
def State.gstat (s : State) : Word32 := (bit s.halted).setWidth 32

/-- `ASTAT[s]`: `AVALID[s]` in bit 0 (R38). -/
def State.astat (s : State) (a : UnitIdx) : Word32 := (bit (s.slotAt a).valid).setWidth 32

/-- `ATOK[s][i]`: `pack4(TOK[s][i])` (R38). -/
def State.atok (s : State) (a : UnitIdx) (i : BitVec 2) : Word32 := pack4 (tok (s.tokens a) i)

/-- `ESTAT[e]`: `EBOUND` in bit 0, `ELOCK` in bit 1, `EASEL` in bits 7:4 (R38). -/
def State.estat (s : State) (e : UnitIdx) : Word32 :=
  ((s.encAt e).asel ++ (0 : BitVec 2) ++ bit (s.encAt e).lock ++ bit (s.encAt e).bound).setWidth 32

/-- `EHWMR[e]`: `EHWM` in bits 27:0 (R38). -/
def State.ehwmr (s : State) (e : UnitIdx) : Word32 := (s.encAt e).hwm.setWidth 32

/-- `DSTAT[d]`: `DBOUND` in bit 0, `DLOCK` in bit 1, `DASEL` in bits 7:4, `DLEFTLEN` in bits 11:8, `DPHASE` in bits
14:12 (R38). -/
def State.dstat (s : State) (d : UnitIdx) : Word32 :=
  ((s.decAt d).phase.number ++ (s.decAt d).leftLen ++ (s.decAt d).asel ++ (0 : BitVec 2) ++
    bit (s.decAt d).lock ++ bit (s.decAt d).bound).setWidth 32

/-- `DBADR[d]`: `pack4(DBAD[d])` (R38). -/
def State.dbadr (s : State) (d : UnitIdx) : Word32 := pack4 (s.decAt d).bad

/-- `DLEFTR[d][j]`: bytes `4j` to `4j+3` of `DLEFT[d]`, byte `4j` in bits 7:0; the byte of index 15 does not exist and
reads as zero (R38). -/
def State.dleftr (s : State) (d : UnitIdx) (j : BitVec 2) : Word32 :=
  pack4 (Token.ofBytes ((s.decAt d).left.toList.drop (4 * j.toNat)))

end Sys2Proof.Machine
end

