-- ==== Sys2Proof/Machine/Coding.lean ====
section
/-! DEFINITION. The data encoding (Part A of spec/30_encoding.md): the alphabet specification and its verdict (R90, R91),
token lookup (R93, R94), encoding of bytes (R95, R97) and decoding of groups (R98, R99). Pure functions of the four
tokens of a slot. -/

namespace Sys2Proof.Machine

/-! ## The alphabet specification -/

/-- `chunk(P, i) = P[4i .. 4i+4)` (R90). -/
def chunk (p : List Byte) (i : Nat) : Token := Token.ofBytes (p.drop (4 * i))

/-- The four tokens of the alphabet built from a specification (R90). -/
def specTokens (p : List Byte) : Vector Token 4 := #v[chunk p 0, chunk p 1, chunk p 2, chunk p 3]

/-- The verdict on a candidate specification (R91). -/
inductive Verdict where
  | invalidLength
  | duplicate
  | ok
  deriving DecidableEq, Repr

/-- At least one of the six pairs of chunks is equal, each compared on all 4 bytes (R132). -/
def hasDuplicate (t : Vector Token 4) : Bool :=
  t[0] == t[1] || t[0] == t[2] || t[0] == t[3] || t[1] == t[2] || t[1] == t[3] || t[2] == t[3]

/-- The list has exactly `n` elements; it looks at no more than `n + 1` of them. -/
def lengthIs {α : Type} : Nat → List α → Bool
  | 0, [] => true
  | 0, _ :: _ => false
  | _ + 1, [] => false
  | n + 1, _ :: l => lengthIs n l

/-- `Validate(P)`: the length first, then the duplicate test (R91). -/
def validate (p : List Byte) : Verdict :=
  if lengthIs 16 p then
    if hasDuplicate (specTokens p) then .duplicate else .ok
  else .invalidLength

/-! ## Token lookup -/

/-- `val(s, w)`: the value whose token is `w`, none for `NotFound` (R94). The four comparisons are on all 4 bytes. -/
def val (t : Vector Token 4) (w : Token) : Option (BitVec 2) :=
  if t[0] = w then some 0
  else if t[1] = w then some 1
  else if t[2] = w then some 2
  else if t[3] = w then some 3
  else none

/-! ## Encoding -/

/-- `k` rounds of the encoder's loop from the current value `cur`: each emits the token of `cur[1:0]` and shifts `cur`
right by 2 bits, unsigned. It answers the bytes emitted and the value that is left in `ECUR` (R95, R152). -/
def encRounds (t : Vector Token 4) : Nat → Byte → List Byte × Byte
  | 0, cur => ([], cur)
  | k + 1, cur =>
    let r := encRounds t k (cur >>> 2)
    ((tok t (cur.extractLsb' 0 2)).bytes ++ r.1, r.2)

/-- `EncByte(s, b)`: the 16-byte group of one byte (R95). -/
def encByte (t : Vector Token 4) (b : Byte) : List Byte := (encRounds t 4 b).1

/-- `Enc(s, S)`: the groups of the bytes in order (R97). -/
def encBytes (t : Vector Token 4) (bs : List Byte) : List Byte := bs.flatMap (encByte t)

/-! ## Decoding -/

/-- One accumulation step: shift right by 2 bits first, unsigned, then OR in the value shifted left by 6 (R98, R177). -/
def accumulate (acc : Byte) (v : BitVec 2) : Byte := (acc >>> 2) ||| (v.setWidth 8 <<< 6)

/-- The decoder's loop over the tokens of a group, from the accumulator `acc`; the first token that matches nothing ends
it (R98, R176). -/
def decTokens (t : Vector Token 4) : List Token → Byte → Except Token Byte
  | [], acc => .ok acc
  | w :: ws, acc =>
    match val t w with
    | none => .error w
    | some v => decTokens t ws (accumulate acc v)

/-- `DecGroup(s, G)`: a byte, or `bad(w)` as an error, for a 16-byte group (R98). -/
def decGroup (t : Vector Token 4) (g : List Byte) : Except Token Byte :=
  decTokens t [chunk g 0, chunk g 1, chunk g 2, chunk g 3] 0

/-- `Dec` on the first `n` groups of a byte sequence: the bytes decoded, and the bad token that ended it if there was one
(R99). -/
def decGroups (t : Vector Token 4) : Nat → List Byte → List Byte × Option Token
  | 0, _ => ([], none)
  | n + 1, bs =>
    match decGroup t (bs.take 16) with
    | .error w => ([], some w)
    | .ok b =>
      let r := decGroups t n (bs.drop 16)
      (b :: r.1, r.2)

/-- `Dec(s, E)`: all whole groups of `E` (R99); the `|E| mod 16` bytes after them are not looked at (R175). -/
def decBytes (t : Vector Token 4) (bs : List Byte) : List Byte × Option Token := decGroups t (bs.length / 16) bs

end Sys2Proof.Machine
end

