-- ==== Sys2Proof/Machine/Ops.lean ====
section
/-! DEFINITION. The operations that every command is built from: the prologue (R130), ending a command with a result
(R110, R220: the engine's one way to report an error, in the place of a trap), the halt (R135), the two port primitives
with what surrounds them (`SinkWrite` R67, `SrcRead` R66), and reset (R250 to R252). There is no trap vector, no saved
program counter and no return from an exception (R220, R235). -/

namespace Sys2Proof.Machine

/-- What a step or a meaning answers. -/
abbrev Answer := Host.Outcome State Fault Refusal

/-! ## Results and the prologue -/

/-- Record one event that the outside can see. -/
def State.emit (s : State) (o : Output) : State := { s with trace := o :: s.trace }

/-- A command that may not start now stays presented: it waits (R83, R130 steps 1 and 2). -/
def State.hold (s : State) (c : Command) : State := { s with waiting := s.waiting ++ [(s.caller, c)] }

/-- End a command that is one atomic step: its lock is set back to 0 and the result goes to the caller that issued it
(R110, R130, R220). -/
def finish (i : Instr) (s : State) (st : Status) (count : Nat) (info : Word32) (data : List Byte) : Answer :=
  .next ((s.setLock false (targetOf i)).emit (.result s.caller (some i) (mkResult st count info data)))

/-- `return (Refused, 0, 0, [])` (R231). -/
def refuse (i : Instr) (s : State) : Answer := finish i s .refused 0 0 []

/-- The prologue of every command (R130): held back while the engine is halted or the lock is taken, refused if `UNIT` is
out of range (no lock is taken then), and otherwise the body runs with the lock taken. -/
def prologue (i : Instr) (s : State) (body : State → Answer) : Answer :=
  if s.heldBack (targetOf i) then .next (s.hold (encode i))
  else if s.inRange (targetOf i) then body (s.setLock true (targetOf i))
  else .next (s.emit (.result s.caller (some i) refusedResult))

/-- A command whose word spells no instruction (R114, R115): it waits for the lock of the instance it addresses as any
other, and is refused. -/
def refuseWord (c : Command) (s : State) : Answer :=
  if s.halted || (wordTarget c.cw).any s.heldBack then .next (s.hold c)
  else .next (s.emit (.result s.caller none refusedResult))

/-- `halt`: `HALTED <- 1`, no result (R135). -/
def halt (s : State) : Answer := .next (s.setHalted true)

/-! ## The encoder and its sink -/

/-- The datapath registers of an encoder when no command is alive: free values (R28, U6; assumption 5). -/
def freeEncPath (n : Nat) : EncPath := ⟨Config.freeEcur n, Config.freeEscr n⟩

/-- The encode loop of `ENC.WRITE` into `ESCR[e]`: each payload byte goes into `ECUR[e]` and gives four tokens (R152,
R153). -/
def encodePayload (t : Vector Token 4) (path : EncPath) : List Byte → EncPath
  | [] => path
  | b :: bs =>
    let r := encRounds t 4 b
    encodePayload t ⟨r.2, path.escr ++ r.1⟩ bs

/-- `EHWM[e] <- max(EHWM[e], 16 * n)` (R158). -/
def raiseHwm (hwm : BitVec 28) (n : Nat) : BitVec 28 :=
  if hwm.toNat < 16 * n then BitVec.ofNat 28 (16 * n) else hwm

/-- The encoder's side of `ENC.WRITE` up to the flush: scratch filled, scratch size raised, and the write in progress
recorded under its caller (R152). -/
def startWrite (e : UnitIdx) (p : List Byte) (s : State) : State :=
  s.setEnc e
    { s.encAt e with
      path := encodePayload (s.tokens (s.encAt e).asel) ⟨(s.encAt e).path.ecur, []⟩ p
      hwm := raiseHwm (s.encAt e).hwm p.length
      job := some ⟨s.caller, p⟩ }

/-- End the write in progress: the lock is set back to 0, the result goes to the caller that issued the write, and the
datapath registers hold free values again (R130, R28). -/
def endWrite (e : UnitIdx) (j : EncJob) (st : Status) (count : Nat) (info : Word32) (s : State) : State :=
  (s.setEnc e { s.encAt e with lock := false, job := none, path := freeEncPath s.trace.length }).emit
    (.result j.caller (some (.encWrite e j.payload)) (mkResult st count info []))

/-- The duty of a sink that is offered `n` bytes: it accepts at most `n`, and all of them if it reports no error (R67). -/
def sinkDuty (n : Nat) (a : SinkAnswer) : Bool :=
  match a.err with
  | none => a.accepted == n
  | some _ => decide (a.accepted ≤ n)

/-- The completion of `ENC.WRITE` on the sink's answer: `(OK, n)` if there was no error, else `(SinkError, m div 16, c)`
(R152, R156). -/
def sinkAnswered (e : UnitIdx) (j : EncJob) (a : SinkAnswer) (s : State) : State :=
  match a.err with
  | none => endWrite e j .ok j.payload.length 0 s
  | some c => endWrite e j .sinkError (a.accepted / 16) c s

/-- The one `SinkWrite(e, ESCR[e])` of the write in progress (R67, R152). If the sink has no answer ready the write
blocks and the lock stays taken (R271); nothing happens if no write is in progress. -/
def serveEncoder (e : UnitIdx) (s : State) : Answer :=
  match (s.encAt e).job with
  | none => .next s
  | some j =>
    match s.sinkAt e with
    | [] => .next s
    | a :: rest =>
      if sinkDuty (s.encAt e).path.escr.length a then
        .next (sinkAnswered e j a ((s.setSink e rest).emit (.sinkWrite e (s.encAt e).path.escr a)))
      else .refused .sinkBrokeDuty

/-! ## The decoder and its source -/

/-- The datapath registers of a decoder when no read is alive: free values (R35, U6; assumption 5). -/
def freeDecPath (n : Nat) : DecPath :=
  ⟨Config.freeDscr n, Config.freeDacc n, Config.freeDk n, Config.freeDpos n⟩

/-- The instruction that a decoder's command in progress stands for. -/
def DecJob.instr (d : UnitIdx) (j : DecJob) : Instr := if j.into then .decInto d j.cap else .decRead d j.cap

/-- The capacity of the read in progress: `C` for `DEC.READ`, `D - |out|` for an inner read of `DEC.INTO` (R186). -/
def DecJob.capacity (j : DecJob) : Nat := j.cap.toNat - j.out.length

/-- Record the command in progress. -/
def startJob (d : UnitIdx) (into : Bool) (cap : Arg) (s : State) : State :=
  s.setDec d { s.decAt d with job := some ⟨s.caller, into, cap, []⟩ }

/-- End the command in progress: the lock is set back to 0 and the result goes to the caller that issued it (R130). -/
def endJob (d : UnitIdx) (j : DecJob) (st : Status) (info : Word32) (data : List Byte) (s : State) : State :=
  (s.setDec d { s.decAt d with lock := false, job := none }).emit
    (.result j.caller (some (j.instr d)) (mkResult st data.length info data))

/-- One read of the command in progress has ended with status `st`. For `DEC.READ` that ends the command; `DEC.INTO` adds
the data to what it has, goes on after `OK` while its destination is not full, and turns `EndOfStream` into `OK` (R186). -/
def endRead (d : UnitIdx) (j : DecJob) (st : Status) (info : Word32) (data : List Byte) (s : State) : State :=
  if j.into then
    let out := j.out ++ data
    match st with
    | .ok =>
      if out.length < j.cap.toNat then s.setDec d { s.decAt d with job := some { j with out := out } }
      else endJob d j .ok 0 out s
    | .endOfStream => endJob d j .ok 0 out s
    | st => endJob d j st info out s
  else endJob d j st info data s

/-- `DPHASE[d] <- FILLING` and `DSCR[d] <- DLEFT[d][0 .. L)` (R172, R173). -/
def beginFill (d : UnitIdx) (s : State) : State :=
  s.setDec d
    { s.decAt d with
      phase := .filling
      path := { (s.decAt d).path with dscr := (s.decAt d).leftover } }

/-- The status of a read that met no bad token is the source's (R179). -/
def SrcStatus.status : SrcStatus → Status
  | .none => .ok
  | .eos => .endOfStream
  | .err _ => .sourceError

/-- `INFO` of a read that met no bad token: the source's code, unchanged, or 0 (R112, R179). -/
def SrcStatus.info : SrcStatus → Word32
  | .none => 0
  | .eos => 0
  | .err c => c

/-- `InvalidWord` at token `w`: the instance enters `FAULT`, latches the word and empties its leftover (R176, R181). -/
def enterFault (d : UnitIdx) (w : Token) (s : State) : State :=
  s.setDec d { s.decAt d with phase := .fault, bad := w, leftLen := 0, path := freeDecPath s.trace.length }

/-- The carry: the tail goes to the leftover registers and the phase back to `IDLE` (R178). -/
def carryTail (d : UnitIdx) (tail : List Byte) (s : State) : State :=
  s.setDec d
    { (s.decAt d).setLeftover tail with phase := .idle, path := freeDecPath s.trace.length }

/-- The read from the moment its source has answered: `DSCR` holds the leftover and the bytes of the answer; its whole
groups are decoded; a bad token puts the instance in `FAULT` and hides the source's status; else the tail is carried and
the status is the source's (R172, R175 to R179, R182). -/
def sourceAnswered (d : UnitIdx) (j : DecJob) (a : SrcAnswer) (s : State) : State :=
  let scr := (s.decAt d).path.dscr ++ a.bytes
  let whole := 16 * (scr.length / 16)
  match decBytes (s.tokens (s.decAt d).asel) (scr.take whole) with
  | (out, some w) => endRead d j .invalidWord (pack4 w) out (enterFault d w s)
  | (out, none) => endRead d j a.st.status a.st.info out (carryTail d (scr.drop whole) s)

/-- `R = 16 * C - L`, the number of bytes a read asks its source for (R173). -/
def request (cap leftLen : Nat) : Nat := 16 * cap - leftLen

/-- One read of the command in progress: the scratch is filled with the leftover, and the one `SrcRead` made (R66, R172,
R173). If the source has no answer ready the read blocks in phase `FILLING` and the lock stays taken (R271); nothing
happens if no command is in progress. -/
def serveDecoder (d : UnitIdx) (s : State) : Answer :=
  match (s.decAt d).job with
  | none => .next s
  | some j =>
    let f := beginFill d s
    let r := request j.capacity (s.decAt d).leftLen.toNat
    match s.srcAt d with
    | [] => .next f
    | a :: rest =>
      if a.bytes.length ≤ r then .next (sourceAnswered d j a ((f.setSrc d rest).emit (.srcRead d r a)))
      else .refused .sourceBrokeDuty

/-! ## Reset -/

/-- What the sinks had taken of the writes that reset cuts short, unknown to the engine: `taken` gives a number for each
encoder, at most the bytes offered (R252, U8). -/
def cutWrites (s : State) (taken : List Nat) : List Output :=
  (List.finRange 16).reverse.filterMap fun e =>
    let E := s.encAt (BitVec.ofFin e)
    if E.job.isSome then
      some (.sinkCut (BitVec.ofFin e) E.path.escr (min (taken.getD e.val 0) E.path.escr.length))
    else none

/-- Reset: every register has its reset value, commands in progress and commands that wait are dropped, and what is
outside the engine stays (R250 to R252). -/
def resetEngine (taken : List Nat) (s : State) : State :=
  { State.reset with
    params := s.params
    inputs := s.inputs
    sinkIn := s.sinkIn
    srcIn := s.srcIn
    trace := .reset :: (cutWrites s taken ++ s.trace) }

end Sys2Proof.Machine
end

