-- ==== Sys2Proof/Machine/Alphabet.lean ====
section
/-! DEFINITION. The alphabet commands: `ALPHA.LOAD` (R131), `ALPHA.MUST` (R134), `ALPHA.ENCV` (R136), `ALPHA.DECT` (R137). -/

namespace Sys2Proof.Machine

/-- The four token registers are written at once and the slot becomes valid (R22, R131). -/
def loadSlot (a : UnitIdx) (p : List Byte) (s : State) : State := s.setSlot a ⟨true, specTokens p⟩

/-- `ALPHA.LOAD a<s>, P` (R131): refused on a valid slot whatever `P` is (R133). -/
def execAlphaLoad (a : UnitIdx) (p : List Byte) (s : State) : Answer :=
  prologue (.alphaLoad a p) s fun s =>
    if (s.slotAt a).valid then refuse (.alphaLoad a p) s
    else
      match validate p with
      | .invalidLength => finish (.alphaLoad a p) s .invalidAlphabetLength 0 0 []
      | .duplicate => finish (.alphaLoad a p) s .duplicateToken 0 0 []
      | .ok => finish (.alphaLoad a p) (loadSlot a p s) .ok 0 0 []

/-- `ALPHA.MUST a<s>, P` (R134): as `ALPHA.LOAD`, but a bad specification halts the engine (R135). -/
def execAlphaMust (a : UnitIdx) (p : List Byte) (s : State) : Answer :=
  prologue (.alphaMust a p) s fun s =>
    if (s.slotAt a).valid then refuse (.alphaMust a p) s
    else
      match validate p with
      | .invalidLength => halt s
      | .duplicate => halt s
      | .ok => finish (.alphaMust a p) (loadSlot a p s) .ok 0 0 []

/-- `ALPHA.ENCV a<s>, v`: the token of a value (R136). -/
def execAlphaEncv (a : UnitIdx) (v : BitVec 2) (s : State) : Answer :=
  prologue (.alphaEncv a v) s fun s =>
    if (s.slotAt a).valid then finish (.alphaEncv a v) s .ok 4 0 (tok (s.tokens a) v).bytes
    else refuse (.alphaEncv a v) s

/-- `ALPHA.DECT a<s>, w`: the value of a token, or `NotFound` (R137). -/
def execAlphaDect (a : UnitIdx) (w : Token) (s : State) : Answer :=
  prologue (.alphaDect a w) s fun s =>
    if (s.slotAt a).valid then
      match val (s.tokens a) w with
      | none => finish (.alphaDect a w) s .notFound 0 0 []
      | some v => finish (.alphaDect a w) s .ok 0 (v.setWidth 32) []
    else refuse (.alphaDect a w) s

end Sys2Proof.Machine
end

