-- ==== Sys2Proof/Machine/Decoder.lean ====
section
/-! DEFINITION. The stream decoder commands: `DEC.OPEN` (R171), `DEC.READ` (R172) and `DEC.INTO` (R186). -/

namespace Sys2Proof.Machine

/-- `DEC.OPEN d<i>, a<s>` (R171): the slot must exist (R116) and hold an alphabet; the leftover is emptied and a `FAULT`
cleared. -/
def execDecOpen (d a : UnitIdx) (s : State) : Answer :=
  prologue (.decOpen d a) s fun s =>
    if s.slotInRange a && (s.slotAt a).valid then
      finish (.decOpen d a)
        (s.setDec d { s.decAt d with bound := true, asel := a, leftLen := 0, phase := .idle }) .ok 0 0 []
    else refuse (.decOpen d a) s

/-- `DEC.READ d<i>, C` (R172): in the order of R182, not bound, faulted, `C = 0`, then one read. -/
def execDecRead (d : UnitIdx) (c : Arg) (s : State) : Answer :=
  prologue (.decRead d c) s fun s =>
    if (s.decAt d).bound then
      if (s.decAt d).phase = .fault then finish (.decRead d c) s .invalidWord 0 (pack4 (s.decAt d).bad) []
      else if c = 0 then finish (.decRead d c) s .ok 0 0 []
      else serveDecoder d (startJob d false c s)
    else refuse (.decRead d c) s

/-- `DEC.INTO d<i>, D` (R186): a destination of no bytes is full before any read (R187); a faulted instance fails at
once; else the first inner read. The later ones are steps of their own, the lock held throughout (R188). -/
def execDecInto (d : UnitIdx) (n : Arg) (s : State) : Answer :=
  prologue (.decInto d n) s fun s =>
    if (s.decAt d).bound then
      if n = 0 then finish (.decInto d n) s .ok 0 0 []
      else if (s.decAt d).phase = .fault then finish (.decInto d n) s .invalidWord 0 (pack4 (s.decAt d).bad) []
      else serveDecoder d (startJob d true n s)
    else refuse (.decInto d n) s

end Sys2Proof.Machine
end

