-- ==== Sys2Proof/Machine/Encoder.lean ====
section
/-! DEFINITION. The stream encoder commands: `ENC.OPEN` (R151) and `ENC.WRITE` (R152). -/

namespace Sys2Proof.Machine

/-- `ENC.OPEN e<i>, a<s>` (R151): the slot must exist (R116) and hold an alphabet; an instance that is bound already is
replaced. -/
def execEncOpen (e a : UnitIdx) (s : State) : Answer :=
  prologue (.encOpen e a) s fun s =>
    if s.slotInRange a && (s.slotAt a).valid then
      finish (.encOpen e a) (s.setEnc e { s.encAt e with bound := true, asel := a, hwm := 0 }) .ok 0 0 []
    else refuse (.encOpen e a) s

/-- `ENC.WRITE e<i>, P` (R152): encode into scratch, then one sink write; none if the payload is empty (R155). -/
def execEncWrite (e : UnitIdx) (p : List Byte) (s : State) : Answer :=
  prologue (.encWrite e p) s fun s =>
    if (s.encAt e).bound then
      if p.isEmpty then .next (endWrite e ⟨s.caller, p⟩ .ok 0 0 (startWrite e p s))
      else serveEncoder e (startWrite e p s)
    else refuse (.encWrite e p) s

end Sys2Proof.Machine
end

