-- ==== Sys2Proof/Machine/OneShot.lean ====
section
/-! DEFINITION. The one-shot commands: `OS.ENCODE` (R201) and `OS.DECODE` (R202). They read an alphabet slot and write
nothing (R204). -/

namespace Sys2Proof.Machine

/-- `OS.ENCODE a<s>, P, cap=DCAP` (R201). -/
def execOsEncode (a : UnitIdx) (p : List Byte) (dcap : Word32) (s : State) : Answer :=
  prologue (.osEncode a p dcap) s fun s =>
    if (s.slotAt a).valid then
      if dcap.toNat < 16 * p.length then finish (.osEncode a p dcap) s .bufferTooSmall 0 0 []
      else finish (.osEncode a p dcap) s .ok (16 * p.length) 0 (encBytes (s.tokens a) p)
    else refuse (.osEncode a p dcap) s

/-- `OS.DECODE a<s>, P, cap=DCAP` (R202): the length test before the capacity test (R203). -/
def execOsDecode (a : UnitIdx) (p : List Byte) (dcap : Word32) (s : State) : Answer :=
  prologue (.osDecode a p dcap) s fun s =>
    if (s.slotAt a).valid then
      if p.length % 16 ≠ 0 then finish (.osDecode a p dcap) s .invalidSourceLength 0 0 []
      else if dcap.toNat < p.length / 16 then finish (.osDecode a p dcap) s .bufferTooSmall 0 0 []
      else
        match decBytes (s.tokens a) p with
        | (out, none) => finish (.osDecode a p dcap) s .ok (p.length / 16) 0 out
        | (out, some w) => finish (.osDecode a p dcap) s .invalidWord out.length (pack4 w) out
    else refuse (.osDecode a p dcap) s

end Sys2Proof.Machine
end

