-- ==== Sys2Proof/Machine/Dispatch.lean ====
section
/-! DEFINITION. One arm per constructor of `Instr`, each one call of the meaning of that command. -/

namespace Sys2Proof.Machine

def exec (i : Instr) (s : State) : Host.Outcome State Fault Refusal :=
  match i with
  | .alphaLoad a p => Sys2Proof.Machine.execAlphaLoad a p s
  | .alphaMust a p => Sys2Proof.Machine.execAlphaMust a p s
  | .alphaEncv a v => Sys2Proof.Machine.execAlphaEncv a v s
  | .alphaDect a w => Sys2Proof.Machine.execAlphaDect a w s
  | .encOpen e a => Sys2Proof.Machine.execEncOpen e a s
  | .encWrite e p => Sys2Proof.Machine.execEncWrite e p s
  | .decOpen d a => Sys2Proof.Machine.execDecOpen d a s
  | .decRead d c => Sys2Proof.Machine.execDecRead d c s
  | .decInto d n => Sys2Proof.Machine.execDecInto d n s
  | .osEncode a p cap => Sys2Proof.Machine.execOsEncode a p cap s
  | .osDecode a p cap => Sys2Proof.Machine.execOsDecode a p cap s

end Sys2Proof.Machine
end

