-- ==== Sys2Proof/Machine/Fetch.lean ====
section
/-! DEFINITION. How a command comes to run: the engine fetches no instructions (R34), commands arrive from callers (R6).
One input of the schedule is consumed by each step. -/

namespace Sys2Proof.Machine

/-- Take up a command: decode it and run it; a word that spells no instruction is refused with a result (R114, R115), a
triple that is no command has no step (U4). -/
def runCommand (c : Command) (s : State) : Answer :=
  match decode c with
  | .ok i => exec i s
  | .error .notACommand => .refused .notACommand
  | .error .reservedOpcode => refuseWord c s
  | .error .reservedBits => refuseWord c s

/-- An instance that goes on with its command does nothing while the engine is halted (R135). -/
def unlessHalted (serve : State → Answer) (s : State) : Answer := if s.halted then .next s else serve s

/-- The effect of one input on the machine it has been taken from. -/
def takeInput : Input → State → Answer
  | .present caller c, s => runCommand c (s.setCaller caller)
  | .accept k, s =>
    match s.waiting[k]? with
    | none => .next s
    | some (caller, c) => runCommand c ((s.setCaller caller).setWaiting (s.waiting.eraseIdx k))
  | .serveEnc e, s => unlessHalted (serveEncoder e) s
  | .serveDec d, s => unlessHalted (serveDecoder d) s
  | .sinkReady e a, s => .next (s.setSink e (s.sinkAt e ++ [a]))
  | .sourceReady d a, s => .next (s.setSrc d (s.srcAt d ++ [a]))
  | .reset taken, s => .next (resetEngine taken s)

/-- Nothing comes from outside: a halted engine is stuck until reset (U10); any other engine has no command and idles
(R241). -/
def idle (s : State) : Answer := if s.halted then .fault .halted else .next s

/-- Present the command of `tableCommand` as the next thing that happens. -/
def presentWord (s : State) (nbits w : Nat) : State :=
  s.setInputs (.present s.caller (tableCommand nbits w) :: s.inputs)

end Sys2Proof.Machine
end

