-- ==== Sys2Proof/Machine/Streams.lean ====
section
/-! DEFINITION. What the record of a run says of the byte streams: functions of `State.trace`, which is newest first. No
step reads them; statements about whole streams are made in their terms (R79, R80, R157, R184). -/

namespace Sys2Proof.Machine

/-- The bytes the sink of encoder `e` took in one event (R67, U8). -/
def takenBy (e : UnitIdx) : Output → List Byte
  | .sinkWrite e' offered a => if e' = e then offered.take a.accepted else []
  | .sinkCut e' offered took => if e' = e then offered.take took else []
  | .result _ _ _ => []
  | .srcRead _ _ _ => []
  | .reset => []

/-- The bytes the source of decoder `d` gave in one event (R66). -/
def readBy (d : UnitIdx) : Output → List Byte
  | .srcRead d' _ a => if d' = d then a.bytes else []
  | .sinkWrite _ _ _ => []
  | .sinkCut _ _ _ => []
  | .result _ _ _ => []
  | .reset => []

/-- The raw bytes of an `ENC.WRITE` to encoder `e` that answered `OK` in this event (R154). -/
def writtenBy (e : UnitIdx) : Output → List Byte
  | .result _ (some (.encWrite e' p)) r => if e' = e ∧ r.status = .ok then p else []
  | _ => []

/-- The decoded bytes that a read of decoder `d` returned in this event (R172, R186). -/
def deliveredBy (d : UnitIdx) : Output → List Byte
  | .result _ (some (.decRead d' _)) r => if d' = d then r.data else []
  | .result _ (some (.decInto d' _)) r => if d' = d then r.data else []
  | _ => []

/-- This event begins a new stream of encoder `e`: an `ENC.OPEN` that answered `OK`, or reset. -/
def opensEnc (e : UnitIdx) : Output → Bool
  | .result _ (some (.encOpen e' _)) r => e' == e && r.status == .ok
  | .reset => true
  | _ => false

/-- This event begins a new stream of decoder `d`: a `DEC.OPEN` that answered `OK`, or reset. -/
def opensDec (d : UnitIdx) : Output → Bool
  | .result _ (some (.decOpen d' _)) r => d' == d && r.status == .ok
  | .reset => true
  | _ => false

/-- In this event a write of encoder `e` ended with an error of its sink. -/
def sinkFailed (e : UnitIdx) : Output → Bool
  | .result _ (some (.encWrite e' _)) r => e' == e && r.status == .sinkError
  | _ => false

/-- The bytes that `f` finds in the events since the last one that `opens` marks, in order. -/
def bytesSince (opens : Output → Bool) (f : Output → List Byte) : List Output → List Byte
  | [] => []
  | o :: older => if opens o then [] else bytesSince opens f older ++ f o

/-- An event that `p` marks lies after the last one that `opens` marks. -/
def anySince (opens p : Output → Bool) : List Output → Bool
  | [] => false
  | o :: older => if opens o then false else p o || anySince opens p older

/-- All the bytes the sink of encoder `e` has taken, in order (R79). -/
def sinkStream (e : UnitIdx) (trace : List Output) : List Byte := trace.reverse.flatMap (takenBy e)

/-- `X` of R184: all the bytes the source of decoder `d` has returned since the instance was opened. -/
def seenBytes (d : UnitIdx) (trace : List Output) : List Byte := bytesSince (opensDec d) (readBy d) trace

/-- All the `DATA` that reads of decoder `d` have returned since the instance was opened (R184). -/
def deliveredBytes (d : UnitIdx) (trace : List Output) : List Byte := bytesSince (opensDec d) (deliveredBy d) trace

/-- The bytes that a `DEC.INTO` in progress has decoded and not yet returned (R186). -/
def Decoder.pending (D : Decoder) : List Byte :=
  match D.job with
  | none => []
  | some j => j.out

end Sys2Proof.Machine
end

