-- ==== Sys2Proof/Safety.lean ====
section
/-! DEFINITION. What counts as a legal state and what a command leaves alone: the invariants that the spec states of the
whole engine, and the frames that statements are made in. -/

namespace Sys2Proof.Machine

/-! ## Legal states -/

/-- The four tokens are pairwise distinct (R24). -/
def Distinct (t : Vector Token 4) : Prop := ∀ i j : BitVec 2, tok t i = tok t j → i = j

/-- The OPEN counts are 1 to 16 each (R10). -/
structure Params.Legal (p : Params) : Prop where
  alpha : 1 ≤ p.nAlpha ∧ p.nAlpha ≤ Config.unitMax
  enc : 1 ≤ p.nEnc ∧ p.nEnc ≤ Config.unitMax
  dec : 1 ≤ p.nDec ∧ p.nDec ≤ Config.unitMax

/-- An encoder in a state the spec allows. -/
structure EncLegal (s : State) (e : UnitIdx) : Prop where
  /-- A bound instance names a slot that exists and holds an alphabet (R25, R151). -/
  bound : (s.encAt e).bound = true →
    (s.encAt e).asel.toNat < s.params.nAlpha ∧ (s.slotAt (s.encAt e).asel).valid = true
  /-- The lock is taken exactly while a command is in progress (R26). -/
  lock : (s.encAt e).lock = (s.encAt e).job.isSome
  /-- `EHWM` holds a multiple of 16 up to `16 * LEN_MAX` (R38). -/
  hwm : (s.encAt e).hwm.toNat % 16 = 0 ∧ (s.encAt e).hwm.toNat ≤ 16 * Config.lenMax
  /-- A write in progress is one of a bound instance, is not empty (R155), and its scratch is the encoding of its
  payload (R153). -/
  job : ∀ j, (s.encAt e).job = some j →
    (s.encAt e).bound = true ∧ j.payload ≠ [] ∧ j.payload.length ≤ Config.lenMax ∧
      (s.encAt e).path.escr = encBytes (s.tokens (s.encAt e).asel) j.payload

/-- A decoder in a state the spec allows. -/
structure DecLegal (s : State) (d : UnitIdx) : Prop where
  /-- A bound instance names a slot that exists and holds an alphabet (R29, R171). -/
  bound : (s.decAt d).bound = true →
    (s.decAt d).asel.toNat < s.params.nAlpha ∧ (s.slotAt (s.decAt d).asel).valid = true
  /-- The lock is taken exactly while a command is in progress (R30). -/
  lock : (s.decAt d).lock = (s.decAt d).job.isSome
  /-- Between commands the phase is `IDLE` or `FAULT` (R32). -/
  quiet : (s.decAt d).job = none → (s.decAt d).phase = .idle ∨ (s.decAt d).phase = .fault
  /-- A command in progress is one of a bound instance; it waits for its source in `FILLING` with the leftover in
  scratch, or, as a `DEC.INTO`, stands between two inner reads in `IDLE`; its destination is not full (R170, R186). -/
  job : ∀ j, (s.decAt d).job = some j →
    (s.decAt d).bound = true ∧ j.out.length < j.cap.toNat ∧ (j.into = false → j.out = []) ∧
      ((s.decAt d).phase = .filling ∧ (s.decAt d).path.dscr = (s.decAt d).leftover ∨
        (s.decAt d).phase = .idle ∧ j.into = true)

/-- The invariant of the engine. -/
structure State.Inv (s : State) : Prop where
  params : s.params.Legal
  /-- A valid slot holds four distinct tokens (R24). -/
  slots : ∀ a, (s.slotAt a).valid = true → Distinct (s.tokens a)
  enc : ∀ e, EncLegal s e
  dec : ∀ d, DecLegal s d

/-- The invariant of the carry (R184), for one decoder: with `X` all the bytes its source has returned since it was
opened and `N = |X| div 16`, the decoded bytes that went out (and those a `DEC.INTO` in progress still holds) are the
first component of `Dec` of the first `16 * N` bytes, no token of which was bad, and the leftover is the rest of `X`. -/
def CarryHolds (s : State) (d : UnitIdx) : Prop :=
  (s.decAt d).bound = true → (s.decAt d).phase ≠ .fault →
    let x := seenBytes d s.trace
    let n := x.length / 16
    decBytes (s.tokens (s.decAt d).asel) (x.take (16 * n)) =
        (deliveredBytes d s.trace ++ (s.decAt d).pending, none) ∧
      (s.decAt d).leftover = x.drop (16 * n)

/-- The stream of one encoder (R79, R157): while no write since it was opened has met a sink error, the bytes its sink
has taken since then are the encoding of the raw bytes of the writes that answered `OK`, in order. -/
def SinkStreamHolds (s : State) (e : UnitIdx) : Prop :=
  (s.encAt e).bound = true → anySince (opensEnc e) (sinkFailed e) s.trace = false →
    bytesSince (opensEnc e) (takenBy e) s.trace =
      encBytes (s.tokens (s.encAt e).asel) (bytesSince (opensEnc e) (writtenBy e) s.trace)

/-! ## When a command starts -/

/-- A command on alphabet slot `a` starts now: not halted, and the slot exists (R130). -/
structure SlotReady (s : State) (a : UnitIdx) : Prop where
  running : s.halted = false
  inRange : a.toNat < s.params.nAlpha

/-- A command on encoder `e` starts now: not halted, the instance exists, its lock is free (R130). -/
structure EncReady (s : State) (e : UnitIdx) : Prop where
  running : s.halted = false
  inRange : e.toNat < s.params.nEnc
  free : (s.encAt e).lock = false

/-- A command on decoder `d` starts now: not halted, the instance exists, its lock is free (R130). -/
structure DecReady (s : State) (d : UnitIdx) : Prop where
  running : s.halted = false
  inRange : d.toNat < s.params.nDec
  free : (s.decAt d).lock = false

/-! ## Frames -/

/-- Nothing but encoder `e`, the ready answers of its sink, the record of the run and the commands that wait may differ. -/
structure OnlyEncoder (e : UnitIdx) (s t : State) : Prop where
  halted : t.halted = s.halted
  alpha : t.alpha = s.alpha
  enc : ∀ e', e' ≠ e → t.encAt e' = s.encAt e'
  dec : t.dec = s.dec
  params : t.params = s.params
  caller : t.caller = s.caller
  inputs : t.inputs = s.inputs
  sink : ∀ e', e' ≠ e → t.sinkAt e' = s.sinkAt e'
  src : t.srcIn = s.srcIn

/-- Nothing but decoder `d`, the ready answers of its source, the record of the run and the commands that wait may
differ. -/
structure OnlyDecoder (d : UnitIdx) (s t : State) : Prop where
  halted : t.halted = s.halted
  alpha : t.alpha = s.alpha
  enc : t.enc = s.enc
  dec : ∀ d', d' ≠ d → t.decAt d' = s.decAt d'
  params : t.params = s.params
  caller : t.caller = s.caller
  inputs : t.inputs = s.inputs
  sink : t.sinkIn = s.sinkIn
  src : ∀ d', d' ≠ d → t.srcAt d' = s.srcAt d'

/-- The registers of an encoder that are kept between commands (R20): all but the datapath. -/
structure SameKeptEnc (x y : Encoder) : Prop where
  bound : x.bound = y.bound
  asel : x.asel = y.asel
  lock : x.lock = y.lock
  hwm : x.hwm = y.hwm
  job : x.job = y.job

/-- The registers of a decoder that are kept between commands (R20): all but the datapath. -/
structure SameKeptDec (x y : Decoder) : Prop where
  bound : x.bound = y.bound
  asel : x.asel = y.asel
  lock : x.lock = y.lock
  phase : x.phase = y.phase
  leftLen : x.leftLen = y.leftLen
  left : x.left = y.left
  bad : x.bad = y.bad
  job : x.job = y.job

end Sys2Proof.Machine
end

