-- ==== Sys2Proof/Certificates/Slice0/Obligations.lean ====
section
/-! DEFINITION. The statements for the provers. A free value of the model (the contents of a datapath register after its
command, assumption 5) stands in them only under "there is". -/

open Sys2Proof Sys2Proof.Machine

/-! ## Encoding of commands -/

/-- Decoding an encoded command gives it back, with every operand at every value its field admits (R103 to R107). -/
def Obligations.DecodeOfEncode : Prop :=
  ∀ i : Instr, i.WellFormed → decode (encode i) = .ok i

/-- Whatever the decoder accepts is well formed, and is spelled by exactly the command it came from: no bit of a word, of
an extension word or of a payload is dropped (R103 to R107, R115). -/
def Obligations.EncodeOfDecode : Prop :=
  ∀ (c : Command) (i : Instr), decode c = .ok i → i.WellFormed ∧ encode i = c

/-- The words that R120 gives for its eleven examples decode to the commands they stand for. -/
def Obligations.SpecWordsDecode : Prop :=
  let boat : List Byte :=
    [0x62, 0x6F, 0x61, 0x74, 0x66, 0x65, 0x65, 0x74, 0x62, 0x6F, 0x77, 0x6C, 0x73, 0x6F, 0x61, 0x70]
  let abcd : List Byte :=
    [0x61, 0x61, 0x61, 0x61, 0x62, 0x62, 0x62, 0x62, 0x63, 0x63, 0x63, 0x63, 0x64, 0x64, 0x64, 0x64]
  let uname : List Byte := [0x75, 0x6E, 0x61, 0x6D, 0x65, 0x20, 0x2D, 0x61]
  let group : List Byte :=
    [0x62, 0x62, 0x62, 0x62, 0x61, 0x61, 0x61, 0x61, 0x61, 0x61, 0x61, 0x61, 0x61, 0x61, 0x61, 0x61]
  decode ⟨0x10000010, none, boat⟩ = .ok (.alphaLoad 0 boat) ∧
  decode ⟨0x21000010, none, abcd⟩ = .ok (.alphaMust 1 abcd) ∧
  decode ⟨0x30000002, none, []⟩ = .ok (.alphaEncv 0 2) ∧
  decode ⟨0x40000004, none, [0x66, 0x65, 0x65, 0x74]⟩ = .ok (.alphaDect 0 ⟨0x66, 0x65, 0x65, 0x74⟩) ∧
  decode ⟨0x50000000, none, []⟩ = .ok (.encOpen 0 0) ∧
  decode ⟨0x60000008, none, uname⟩ = .ok (.encWrite 0 uname) ∧
  decode ⟨0x72000001, none, []⟩ = .ok (.decOpen 2 1) ∧
  decode ⟨0x80000008, none, []⟩ = .ok (.decRead 0 8) ∧
  decode ⟨0x90000008, none, []⟩ = .ok (.decInto 0 8) ∧
  decode ⟨0xA0000001, some 0x00000010, [0x01]⟩ = .ok (.osEncode 0 [0x01] 16) ∧
  decode ⟨0xB0000010, some 0x00000001, group⟩ = .ok (.osDecode 0 group 1)

/-- R114: a reserved opcode, whatever its other bits, is refused and changes no state. -/
def Obligations.ReservedOpcodeRefused : Prop :=
  ∀ (cw : Word32) (caller : Nat) (rest : List Input) (s : State),
    (cw >>> 28 = 0x0 ∨ cw >>> 28 = 0xC ∨ cw >>> 28 = 0xD ∨ cw >>> 28 = 0xE ∨ cw >>> 28 = 0xF) →
    s.halted = false → s.inputs = .present caller ⟨cw, none, []⟩ :: rest →
    step s = .next { s with
      caller := caller
      inputs := rest
      trace := .result caller none ⟨.refused, 0, 0, []⟩ :: s.trace }

/-- R115: `ARG[23:2] ≠ 0` in `ALPHA.ENCV`, `ARG[23:4] ≠ 0` in an `OPEN` command (whose instance is free) and `ARG ≠ 4` in
`ALPHA.DECT`, whose payload is consumed, are refused and change no state. -/
def Obligations.ReservedBitsRefused : Prop :=
  ∀ (cw : Word32) (p : List Byte) (caller : Nat) (rest : List Input) (s : State),
    (cw >>> 28 = 0x3 ∧ cw.extractLsb' 2 22 ≠ 0 ∧ p = [] ∨
      cw >>> 28 = 0x4 ∧ cw.extractLsb' 0 24 ≠ 4 ∧ p.length = (cw.extractLsb' 0 24).toNat ∨
      cw >>> 28 = 0x5 ∧ cw.extractLsb' 4 20 ≠ 0 ∧ p = [] ∧ (s.encAt (cw.extractLsb' 24 4)).lock = false ∨
      cw >>> 28 = 0x7 ∧ cw.extractLsb' 4 20 ≠ 0 ∧ p = [] ∧ (s.decAt (cw.extractLsb' 24 4)).lock = false) →
    s.halted = false → s.inputs = .present caller ⟨cw, none, p⟩ :: rest →
    step s = .next { s with
      caller := caller
      inputs := rest
      trace := .result caller none ⟨.refused, 0, 0, []⟩ :: s.trace }

/-- R116: a command whose `UNIT`, or an `OPEN` command whose slot index, is not below the count is refused; nothing else
happens. -/
def Obligations.UnitOutOfRangeRefused : Prop :=
  ∀ (i : Instr) (s : State), s.halted = false →
    ((match targetOf i with
        | .alpha a => s.params.nAlpha ≤ a.toNat
        | .enc e => s.params.nEnc ≤ e.toNat
        | .dec d => s.params.nDec ≤ d.toNat) ∨
      (∃ e a, i = .encOpen e a ∧ EncReady s e ∧ s.params.nAlpha ≤ a.toNat) ∨
      (∃ d a, i = .decOpen d a ∧ DecReady s d ∧ s.params.nAlpha ≤ a.toNat)) →
    exec i s = .next { s with trace := .result s.caller (some i) ⟨.refused, 0, 0, []⟩ :: s.trace }

/-- A triple whose payload or extension word has not the length the command word states is no command and has no step
(R105, U4): for every opcode that takes `ARG` bytes, for every opcode that takes none, and for the extension word. -/
def Obligations.WrongLengthHasNoStep : Prop :=
  ∀ (c : Command) (caller : Nat) (rest : List Input) (s : State),
    s.inputs = .present caller c :: rest →
    ((c.cw >>> 28 = 0x1 ∨ c.cw >>> 28 = 0x2 ∨ c.cw >>> 28 = 0x4 ∨ c.cw >>> 28 = 0x6 ∨ c.cw >>> 28 = 0xA ∨
          c.cw >>> 28 = 0xB) ∧ c.payload.length ≠ (c.cw.extractLsb' 0 24).toNat ∨
      ¬(c.cw >>> 28 = 0x1 ∨ c.cw >>> 28 = 0x2 ∨ c.cw >>> 28 = 0x4 ∨ c.cw >>> 28 = 0x6 ∨ c.cw >>> 28 = 0xA ∨
          c.cw >>> 28 = 0xB) ∧ c.payload ≠ [] ∨
      (c.cw >>> 28 = 0xA ∨ c.cw >>> 28 = 0xB) ∧ c.ext = none ∨
      ¬(c.cw >>> 28 = 0xA ∨ c.cw >>> 28 = 0xB) ∧ c.ext ≠ none) →
    step s = .refused .notACommand

/-! ## The step -/

/-- A step runs the decoded command: when the next thing that happens is that a caller presents a command that decodes to
`i`, or that the engine takes up a waiting command that decodes to `i`, the step is `exec i` at that state, less the
input consumed and with that caller; and so it is for a word placed by `withFetchWord`. -/
def Obligations.StepRunsDecodedCommand : Prop :=
  (∀ (s : State) (caller : Nat) (c : Command) (rest : List Input) (i : Instr),
    s.inputs = .present caller c :: rest → decode c = .ok i →
    step s = exec i { s with inputs := rest, caller := caller }) ∧
  (∀ (s : State) (k caller : Nat) (c : Command) (rest : List Input) (i : Instr),
    s.inputs = .accept k :: rest → s.waiting[k]? = some (caller, c) → decode c = .ok i →
    step s = exec i { s with inputs := rest, caller := caller, waiting := s.waiting.eraseIdx k }) ∧
  (∀ (s : State) (nbits w : Nat) (i : Instr),
    decodeTableWord nbits w = some i → step (s.withFetchWord nbits w) = exec i s)

/-- A command that may not start waits: while the engine is halted (R135), or while the lock of the instance it addresses
is taken (R26, R30, R83), nothing happens but that the command stays presented. -/
def Obligations.HeldBackCommandWaits : Prop :=
  ∀ (i : Instr) (s : State),
    (s.halted = true ∨
      (∃ e, targetOf i = .enc e ∧ e.toNat < s.params.nEnc ∧ (s.encAt e).lock = true) ∨
      (∃ d, targetOf i = .dec d ∧ d.toNat < s.params.nDec ∧ (s.decAt d).lock = true)) →
    exec i s = .next { s with waiting := s.waiting ++ [(s.caller, encode i)] }

/-- Every meaning answers a next state or one of the two refusals of a port that breaks its duty (U2, U3); and one
command returns at most one result, to the caller that issued it (R110, R220). -/
def Obligations.OneResultToTheCaller : Prop :=
  ∀ (i : Instr) (s : State),
    exec i s = .refused .sinkBrokeDuty ∨ exec i s = .refused .sourceBrokeDuty ∨
    ∃ t new, exec i s = .next t ∧ t.trace = new ++ s.trace ∧
      (∀ c j r, .result c j r ∈ new → c = s.caller ∧ j = some i ∧ new.head? = some (.result c j r)) ∧
      (∀ c j r, .result c j r ∉ new.tail)

/-! ## Packed forms -/

/-- R109: `pack4`; with the layout of the result words (from R110) and the status numbers (from R111). -/
def Obligations.ResultWordLayout : Prop :=
  (∀ w : Token, (pack4 w).toNat = w.b0.toNat + 256 * w.b1.toNat + 65536 * w.b2.toNat + 16777216 * w.b3.toNat) ∧
  (∀ (st : Status) (n : Nat) (info : Word32) (data : List Byte), n < 2 ^ 28 →
    (mkResult st n info data).rw0.toNat = st.code.toNat * 2 ^ 28 + n ∧ (mkResult st n info data).rw1 = info ∧
      (mkResult st n info data).data = data) ∧
  Status.code .ok = 0 ∧ Status.code .invalidAlphabetLength = 1 ∧ Status.code .duplicateToken = 2 ∧
  Status.code .invalidWord = 3 ∧ Status.code .invalidSourceLength = 4 ∧ Status.code .bufferTooSmall = 5 ∧
  Status.code .endOfStream = 6 ∧ Status.code .sourceError = 7 ∧ Status.code .sinkError = 8 ∧
  Status.code .notFound = 9 ∧ Status.code .refused = 15

/-- R38: the packed register forms, every bit of them, with the phase numbers of R32. -/
def Obligations.PackedRegisterLayout : Prop :=
  ∀ s : State,
    s.gstat.toNat = s.halted.toNat ∧
    (∀ a, (s.astat a).toNat = (s.slotAt a).valid.toNat ∧ ∀ i, s.atok a i = pack4 (s.slotAt a).tok[i.toNat]) ∧
    (∀ e, (s.estat e).toNat =
        (s.encAt e).bound.toNat + 2 * (s.encAt e).lock.toNat + 16 * (s.encAt e).asel.toNat ∧
      (s.ehwmr e).toNat = (s.encAt e).hwm.toNat) ∧
    (∀ d, (s.dstat d).toNat =
        (s.decAt d).bound.toNat + 2 * (s.decAt d).lock.toNat + 16 * (s.decAt d).asel.toNat +
          256 * (s.decAt d).leftLen.toNat +
          4096 * (match (s.decAt d).phase with
            | .idle => 0 | .filling => 1 | .decoding => 2 | .carry => 3 | .fault => 4) ∧
      s.dbadr d = pack4 (s.decAt d).bad ∧
      ∀ j : BitVec 2, s.dleftr d j =
        pack4 ⟨(s.decAt d).left.toList.getD (4 * j.toNat) 0, (s.decAt d).left.toList.getD (4 * j.toNat + 1) 0,
          (s.decAt d).left.toList.getD (4 * j.toNat + 2) 0, (s.decAt d).left.toList.getD (4 * j.toNat + 3) 0⟩)

/-! ## Data encoding -/

/-- R91, with R90 and R132: the verdict on a specification of any length; chunks are compared on all 4 bytes. -/
def Obligations.ValidateVerdict : Prop :=
  ∀ p : List Byte,
    (p.length ≠ 16 → validate p = .invalidLength) ∧
    (p.length = 16 → (∃ i j, i < j ∧ j < 4 ∧ (p.drop (4 * i)).take 4 = (p.drop (4 * j)).take 4) →
      validate p = .duplicate) ∧
    (p.length = 16 → (∀ i j, i < j → j < 4 → (p.drop (4 * i)).take 4 ≠ (p.drop (4 * j)).take 4) →
      validate p = .ok ∧ Distinct (specTokens p) ∧
        ∀ i : BitVec 2, (tok (specTokens p) i).bytes = (p.drop (4 * i.toNat)).take 4)

/-- R94: `val` finds the one value whose token is `w`, or nothing if no token is `w`. -/
def Obligations.TokenLookup : Prop :=
  ∀ (t : Vector Token 4) (w : Token), Distinct t →
    (∀ v, val t w = some v ↔ tok t v = w) ∧ (val t w = none ↔ ∀ v, tok t v ≠ w) ∧
      ∀ v, val t (tok t v) = some v

/-- R96: the closed form of a group, low bit pair first; and `ECUR` is 0 after the fourth shift (R153). -/
def Obligations.GroupClosedForm : Prop :=
  ∀ (t : Vector Token 4) (b : Byte),
    encByte t b = (tok t (b.extractLsb' 0 2)).bytes ++ (tok t (b.extractLsb' 2 2)).bytes ++
      (tok t (b.extractLsb' 4 2)).bytes ++ (tok t (b.extractLsb' 6 2)).bytes ∧ (encRounds t 4 b).2 = 0

/-- R97: `Enc` is the concatenation of the groups, and 16 times as long as what it encodes. -/
def Obligations.EncodingLength : Prop :=
  ∀ t : Vector Token 4, encBytes t [] = [] ∧
    (∀ b bs, encBytes t (b :: bs) = encByte t b ++ encBytes t bs) ∧
    (∀ bs, (encBytes t bs).length = 16 * bs.length)

/-- R98: the value of a group whose four tokens are found, and the first token of a group that is not found. -/
def Obligations.GroupDecoding : Prop :=
  ∀ (t : Vector Token 4) (w0 w1 w2 w3 : Token),
    let g := w0.bytes ++ w1.bytes ++ w2.bytes ++ w3.bytes
    (∀ v0 v1 v2 v3 : BitVec 2,
      val t w0 = some v0 → val t w1 = some v1 → val t w2 = some v2 → val t w3 = some v3 →
      ∃ b : Byte, decGroup t g = .ok b ∧
        b.toNat = v0.toNat + 4 * v1.toNat + 16 * v2.toNat + 64 * v3.toNat) ∧
    (val t w0 = none → decGroup t g = .error w0) ∧
    (val t w0 ≠ none → val t w1 = none → decGroup t g = .error w1) ∧
    (val t w0 ≠ none → val t w1 ≠ none → val t w2 = none → decGroup t g = .error w2) ∧
    (val t w0 ≠ none → val t w1 ≠ none → val t w2 ≠ none → val t w3 = none → decGroup t g = .error w3)

/-- R99: `Dec` goes group by group and stops at the first bad one. -/
def Obligations.SequenceDecoding : Prop :=
  ∀ (t : Vector Token 4) (g rest : List Byte), g.length = 16 → rest.length % 16 = 0 →
    decBytes t [] = ([], none) ∧
    (∀ w, decGroup t g = .error w → decBytes t (g ++ rest) = ([], some w)) ∧
    (∀ b, decGroup t g = .ok b → decBytes t (g ++ rest) = (b :: (decBytes t rest).1, (decBytes t rest).2))

/-- R100: the laws of the code, for every valid alphabet: each decoder undoes its encoder, `Enc` is injective, and a
sequence that decodes without error is the encoding of what it decodes to. -/
def Obligations.CodingLaws : Prop :=
  ∀ t : Vector Token 4, Distinct t →
    (∀ b, decGroup t (encByte t b) = .ok b) ∧
    (∀ bs, decBytes t (encBytes t bs) = (bs, none)) ∧
    (∀ bs cs, encBytes t bs = encBytes t cs → bs = cs) ∧
    (∀ e out, e.length % 16 = 0 → decBytes t e = (out, none) → encBytes t out = e)

/-- R191: if token `k` of one group of an encoded stream is replaced by 4 bytes that match no token, then exactly the
bytes before that group are decoded, whatever follows, and the corrupt token is the one reported. -/
def Obligations.CorruptTokenReported : Prop :=
  ∀ (t : Vector Token 4) (before : List Byte) (b : Byte) (k : Nat) (w : Token) (rest : List Byte),
    Distinct t → k < 4 → val t w = none → rest.length % 16 = 0 →
    decBytes t (encBytes t before ++ ((encByte t b).take (4 * k) ++ w.bytes ++ (encByte t b).drop (4 * k + 4)) ++ rest) =
      (before, some w)

/-! ## Alphabet commands -/

/-- R131: `ALPHA.LOAD` on an empty slot, in every case of its payload. -/
def Obligations.AlphaLoadOnEmptySlot : Prop :=
  ∀ (a : UnitIdx) (p : List Byte) (s : State), SlotReady s a → (s.slotAt a).valid = false →
    (p.length ≠ 16 →
      exec (.alphaLoad a p) s = .next { s with
        trace := .result s.caller (some (.alphaLoad a p)) ⟨.invalidAlphabetLength, 0, 0, []⟩ :: s.trace }) ∧
    (p.length = 16 → (∃ i j, i < j ∧ j < 4 ∧ (p.drop (4 * i)).take 4 = (p.drop (4 * j)).take 4) →
      exec (.alphaLoad a p) s = .next { s with
        trace := .result s.caller (some (.alphaLoad a p)) ⟨.duplicateToken, 0, 0, []⟩ :: s.trace }) ∧
    (p.length = 16 → (∀ i j, i < j → j < 4 → (p.drop (4 * i)).take 4 ≠ (p.drop (4 * j)).take 4) →
      ∃ t4 : Vector Token 4, (∀ i : BitVec 2, (tok t4 i).bytes = (p.drop (4 * i.toNat)).take 4) ∧
        exec (.alphaLoad a p) s = .next { s with
          alpha := s.alpha.set a.toNat ⟨true, t4⟩ a.isLt
          trace := .result s.caller (some (.alphaLoad a p)) ⟨.ok, 0, 0, []⟩ :: s.trace })

/-- R134 with R135: `ALPHA.MUST` on an empty slot loads a good specification, and halts the engine without a result on a
bad one. -/
def Obligations.AlphaMustOnEmptySlot : Prop :=
  ∀ (a : UnitIdx) (p : List Byte) (s : State), SlotReady s a → (s.slotAt a).valid = false →
    ((p.length ≠ 16 ∨ ∃ i j, i < j ∧ j < 4 ∧ (p.drop (4 * i)).take 4 = (p.drop (4 * j)).take 4) →
      exec (.alphaMust a p) s = .next { s with halted := true }) ∧
    (p.length = 16 → (∀ i j, i < j → j < 4 → (p.drop (4 * i)).take 4 ≠ (p.drop (4 * j)).take 4) →
      ∃ t4 : Vector Token 4, (∀ i : BitVec 2, (tok t4 i).bytes = (p.drop (4 * i.toNat)).take 4) ∧
        exec (.alphaMust a p) s = .next { s with
          alpha := s.alpha.set a.toNat ⟨true, t4⟩ a.isLt
          trace := .result s.caller (some (.alphaMust a p)) ⟨.ok, 0, 0, []⟩ :: s.trace })

/-- R133: a valid slot cannot be loaded again, whatever the payload; there is no halt either. -/
def Obligations.ValidSlotNotReloaded : Prop :=
  ∀ (a : UnitIdx) (p : List Byte) (s : State), SlotReady s a → (s.slotAt a).valid = true →
    exec (.alphaLoad a p) s = .next { s with
      trace := .result s.caller (some (.alphaLoad a p)) ⟨.refused, 0, 0, []⟩ :: s.trace } ∧
    exec (.alphaMust a p) s = .next { s with
      trace := .result s.caller (some (.alphaMust a p)) ⟨.refused, 0, 0, []⟩ :: s.trace }

/-- R136: `ALPHA.ENCV` returns the token of the value and writes no state. -/
def Obligations.AlphaEncvReturnsToken : Prop :=
  ∀ (a : UnitIdx) (v : BitVec 2) (s : State), SlotReady s a → (s.slotAt a).valid = true →
    exec (.alphaEncv a v) s = .next { s with
      trace := .result s.caller (some (.alphaEncv a v)) ⟨.ok, 4, 0, (s.slotAt a).tok[v.toNat].bytes⟩ :: s.trace }

/-- R137: `ALPHA.DECT` returns the value whose token is `w`, or `NotFound`, and writes no state. -/
def Obligations.AlphaDectLooksUp : Prop :=
  ∀ (a : UnitIdx) (w : Token) (s : State), SlotReady s a → (s.slotAt a).valid = true →
    (∀ v : BitVec 2, Distinct (s.tokens a) → (s.slotAt a).tok[v.toNat] = w →
      exec (.alphaDect a w) s = .next { s with
        trace := .result s.caller (some (.alphaDect a w)) ⟨.ok, 0, v.setWidth 32, []⟩ :: s.trace }) ∧
    ((∀ v : BitVec 2, (s.slotAt a).tok[v.toNat] ≠ w) →
      exec (.alphaDect a w) s = .next { s with
        trace := .result s.caller (some (.alphaDect a w)) ⟨.notFound, 0, 0, []⟩ :: s.trace })

/-- R231 (d) and (f): a command that names an empty slot where it needs a valid one, and a command on an instance that is
not bound, are refused; nothing else happens. -/
def Obligations.EmptySlotOrUnboundRefused : Prop :=
  ∀ (i : Instr) (s : State),
    ((∃ a v, i = .alphaEncv a v ∧ SlotReady s a ∧ (s.slotAt a).valid = false) ∨
      (∃ a w, i = .alphaDect a w ∧ SlotReady s a ∧ (s.slotAt a).valid = false) ∨
      (∃ e a, i = .encOpen e a ∧ EncReady s e ∧ (s.slotAt a).valid = false) ∨
      (∃ d a, i = .decOpen d a ∧ DecReady s d ∧ (s.slotAt a).valid = false) ∨
      (∃ a p cap, i = .osEncode a p cap ∧ SlotReady s a ∧ (s.slotAt a).valid = false) ∨
      (∃ a p cap, i = .osDecode a p cap ∧ SlotReady s a ∧ (s.slotAt a).valid = false) ∨
      (∃ e p, i = .encWrite e p ∧ EncReady s e ∧ (s.encAt e).bound = false) ∨
      (∃ d c, i = .decRead d c ∧ DecReady s d ∧ (s.decAt d).bound = false) ∨
      (∃ d n, i = .decInto d n ∧ DecReady s d ∧ (s.decAt d).bound = false)) →
    exec i s = .next { s with trace := .result s.caller (some i) ⟨.refused, 0, 0, []⟩ :: s.trace }

/-! ## The stream encoder -/

/-- R151: `ENC.OPEN` binds the instance, bound already or not, to a valid slot, and sets its scratch size to 0. -/
def Obligations.EncOpenBinds : Prop :=
  ∀ (e a : UnitIdx) (s : State), EncReady s e → a.toNat < s.params.nAlpha → (s.slotAt a).valid = true →
    exec (.encOpen e a) s = .next { s with
      enc := s.enc.set e.toNat { s.encAt e with bound := true, asel := a, hwm := 0 } e.isLt
      trace := .result s.caller (some (.encOpen e a)) ⟨.ok, 0, 0, []⟩ :: s.trace }

/-- R152 to R154 and R158: a write whose sink takes all `16 * n` bytes makes one `SinkWrite` of the encoding of the
payload, raises `EHWM`, and answers `(OK, n)`. -/
def Obligations.EncWriteFlushes : Prop :=
  ∀ (e : UnitIdx) (p : List Byte) (rest : List SinkAnswer) (s : State),
    EncReady s e → (s.encAt e).bound = true → p ≠ [] → p.length ≤ Config.lenMax →
    s.sinkAt e = ⟨16 * p.length, none⟩ :: rest →
    ∃ path hwm, hwm.toNat = max (s.encAt e).hwm.toNat (16 * p.length) ∧
      exec (.encWrite e p) s = .next { s with
        enc := s.enc.set e.toNat { s.encAt e with hwm := hwm, path := path, job := none } e.isLt
        sinkIn := s.sinkIn.set e.toNat rest e.isLt
        trace :=
          .result s.caller (some (.encWrite e p)) ⟨.ok, BitVec.ofNat 28 p.length, 0, []⟩ ::
            .sinkWrite e (encBytes (s.tokens (s.encAt e).asel) p) ⟨16 * p.length, none⟩ :: s.trace }

/-- R156: a write whose sink takes `m` bytes and reports the error `c` answers `(SinkError, m div 16, c)`; the instance
stays as it was but for `EHWM` (R158). -/
def Obligations.EncWriteSinkError : Prop :=
  ∀ (e : UnitIdx) (p : List Byte) (m : Nat) (c : Word32) (rest : List SinkAnswer) (s : State),
    EncReady s e → (s.encAt e).bound = true → p ≠ [] → p.length ≤ Config.lenMax →
    m ≤ 16 * p.length → s.sinkAt e = ⟨m, some c⟩ :: rest →
    ∃ path hwm, hwm.toNat = max (s.encAt e).hwm.toNat (16 * p.length) ∧
      exec (.encWrite e p) s = .next { s with
        enc := s.enc.set e.toNat { s.encAt e with hwm := hwm, path := path, job := none } e.isLt
        sinkIn := s.sinkIn.set e.toNat rest e.isLt
        trace :=
          .result s.caller (some (.encWrite e p)) ⟨.sinkError, BitVec.ofNat 28 (m / 16), c, []⟩ ::
            .sinkWrite e (encBytes (s.tokens (s.encAt e).asel) p) ⟨m, some c⟩ :: s.trace }

/-- R155: a write of no bytes makes no sink write and answers `(OK, 0)`. -/
def Obligations.EncWriteOfNothing : Prop :=
  ∀ (e : UnitIdx) (s : State), EncReady s e → (s.encAt e).bound = true →
    ∃ path, exec (.encWrite e []) s = .next { s with
      enc := s.enc.set e.toNat { s.encAt e with path := path, job := none } e.isLt
      trace := .result s.caller (some (.encWrite e [])) ⟨.ok, 0, 0, []⟩ :: s.trace }

/-- A write whose sink has no answer ready blocks (R271): scratch filled, `EHWM` raised, lock taken, no result, no sink
write. Served without an answer it goes on waiting. Served when its sink has answered `⟨m, err⟩`, whatever the rest of
the machine holds by then, it ends as it would have at once: `(OK, n)` if there is no error, `(SinkError, m div 16, c)`
else (R26, R152, R156), to the caller that gave it. The way an answer becomes ready is the model's own (assumption 1). -/
def Obligations.EncWriteBlocksAndResumes : Prop :=
  ∀ (e : UnitIdx) (p : List Byte) (s : State),
    EncReady s e → (s.encAt e).bound = true → p ≠ [] → p.length ≤ Config.lenMax → s.sinkAt e = [] →
    ∃ t, exec (.encWrite e p) s = .next t ∧ OnlyEncoder e s t ∧ t.waiting = s.waiting ∧ t.trace = s.trace ∧
      (t.encAt e).lock = true ∧ (t.encAt e).path.escr = encBytes (s.tokens (s.encAt e).asel) p ∧
      (t.encAt e).hwm.toNat = max (s.encAt e).hwm.toNat (16 * p.length) ∧
      (∀ (u : State) (tl : List Input), u.inputs = .serveEnc e :: tl → u.halted = false →
        u.encAt e = t.encAt e → u.sinkAt e = [] → step u = .next (u.setInputs tl)) ∧
      ∀ (u : State) (tl : List Input) (m : Nat) (err : Option Word32) (rest : List SinkAnswer),
        u.inputs = .serveEnc e :: tl → u.halted = false → u.encAt e = t.encAt e →
        u.sinkAt e = ⟨m, err⟩ :: rest → m ≤ 16 * p.length → (err = none → m = 16 * p.length) →
        ∃ v, step u = .next v ∧ OnlyEncoder e (u.setInputs tl) v ∧ v.waiting = u.waiting ∧
          v.sinkAt e = rest ∧ (v.encAt e).lock = false ∧ (v.encAt e).job = none ∧ (v.encAt e).bound = true ∧
          (v.encAt e).asel = (s.encAt e).asel ∧ (v.encAt e).hwm = (t.encAt e).hwm ∧
          v.trace =
            .result s.caller (some (.encWrite e p))
                (match err with
                  | none => ⟨.ok, BitVec.ofNat 28 p.length, 0, []⟩
                  | some c => ⟨.sinkError, BitVec.ofNat 28 (m / 16), c, []⟩) ::
              .sinkWrite e (encBytes (s.tokens (s.encAt e).asel) p) ⟨m, err⟩ :: u.trace

/-- A sink that takes fewer bytes than offered and reports no error, or more than offered, and a source that gives more
bytes than asked for, have no step (U2, U3, R66, R67): when a command starts, and when an instance is served whose command
has blocked or, as a `DEC.INTO`, has inner reads still to make. -/
def Obligations.BrokenPortDutyHasNoStep : Prop :=
  (∀ (e : UnitIdx) (p : List Byte) (a : SinkAnswer) (rest : List SinkAnswer) (s : State),
    EncReady s e → (s.encAt e).bound = true → p ≠ [] → s.sinkAt e = a :: rest →
    (a.err = none ∧ a.accepted ≠ 16 * p.length ∨ 16 * p.length < a.accepted) →
    exec (.encWrite e p) s = .refused .sinkBrokeDuty) ∧
  (∀ (d : UnitIdx) (c : Arg) (a : SrcAnswer) (rest : List SrcAnswer) (s : State),
    DecReady s d → (s.decAt d).bound = true → (s.decAt d).phase ≠ .fault → c ≠ 0 → s.srcAt d = a :: rest →
    16 * c.toNat - (s.decAt d).leftLen.toNat < a.bytes.length →
    exec (.decRead d c) s = .refused .sourceBrokeDuty ∧ exec (.decInto d c) s = .refused .sourceBrokeDuty) ∧
  (∀ (e : UnitIdx) (j : EncJob) (a : SinkAnswer) (rest : List SinkAnswer) (tl : List Input) (s : State),
    s.inputs = .serveEnc e :: tl → s.halted = false → (s.encAt e).job = some j → s.sinkAt e = a :: rest →
    (a.err = none ∧ a.accepted ≠ (s.encAt e).path.escr.length ∨ (s.encAt e).path.escr.length < a.accepted) →
    step s = .refused .sinkBrokeDuty) ∧
  (∀ (d : UnitIdx) (j : DecJob) (a : SrcAnswer) (rest : List SrcAnswer) (tl : List Input) (s : State),
    s.inputs = .serveDec d :: tl → s.halted = false → (s.decAt d).job = some j → s.srcAt d = a :: rest →
    16 * (j.cap.toNat - j.out.length) - (s.decAt d).leftLen.toNat < a.bytes.length →
    step s = .refused .sourceBrokeDuty)

/-- R157 and R79: while no write of an encoder has met a sink error since it was opened, the bytes its sink has taken are
the encoding of the raw bytes of the writes that answered `OK`, in order; every step keeps this. -/
def Obligations.SinkStreamKept : Prop :=
  ∀ s s' : State, s.Inv → (∀ e, SinkStreamHolds s e) → step s = .next s' → ∀ e, SinkStreamHolds s' e

/-! ## The stream decoder -/

/-- R171: `DEC.OPEN` binds the instance, bound already or not, to a valid slot, empties its leftover and clears its
fault. -/
def Obligations.DecOpenBinds : Prop :=
  ∀ (d a : UnitIdx) (s : State), DecReady s d → a.toNat < s.params.nAlpha → (s.slotAt a).valid = true →
    exec (.decOpen d a) s = .next { s with
      dec := s.dec.set d.toNat { s.decAt d with bound := true, asel := a, leftLen := 0, phase := .idle } d.isLt
      trace := .result s.caller (some (.decOpen d a)) ⟨.ok, 0, 0, []⟩ :: s.trace }

/-- R172, R173, R175, R178 and R179: a read makes one `SrcRead` for `16 * C - L` bytes, decodes the whole groups of the
leftover and the bytes that came, all of whose tokens match, keeps the rest as the new leftover, and reports the
source's status. -/
def Obligations.DecReadDecodes : Prop :=
  ∀ (d : UnitIdx) (c : Arg) (b : List Byte) (st : SrcStatus) (rest : List SrcAnswer) (out : List Byte) (s : State),
    DecReady s d → (s.decAt d).bound = true → (s.decAt d).phase ≠ .fault → c ≠ 0 →
    s.srcAt d = ⟨b, st⟩ :: rest → b.length ≤ 16 * c.toNat - (s.decAt d).leftLen.toNat →
    let scr := (s.decAt d).leftover ++ b
    let g := scr.length / 16
    decBytes (s.tokens (s.decAt d).asel) (scr.take (16 * g)) = (out, none) →
    ∃ t, exec (.decRead d c) s = .next t ∧ OnlyDecoder d s t ∧ t.waiting = s.waiting ∧ t.srcAt d = rest ∧
      out.length = g ∧
      t.trace =
        .result s.caller (some (.decRead d c))
            (match st with
              | .none => ⟨.ok, BitVec.ofNat 28 g, 0, out⟩
              | .eos => ⟨.endOfStream, BitVec.ofNat 28 g, 0, out⟩
              | .err code => ⟨.sourceError, BitVec.ofNat 28 g, code, out⟩) ::
          .srcRead d (16 * c.toNat - (s.decAt d).leftLen.toNat) ⟨b, st⟩ :: s.trace ∧
      (t.decAt d).leftover = scr.drop (16 * g) ∧ (t.decAt d).leftLen.toNat = scr.length % 16 ∧
      (t.decAt d).phase = .idle ∧ (t.decAt d).lock = false ∧ (t.decAt d).job = none ∧
      (t.decAt d).bound = true ∧ (t.decAt d).asel = (s.decAt d).asel ∧ (t.decAt d).bad = (s.decAt d).bad

/-- R176, R181 and R182: a read that meets a token `w` that matches nothing answers `InvalidWord` with the bytes decoded
before it and hides the source's status; the instance is in `FAULT`, has latched `w`, and its leftover is empty. -/
def Obligations.DecReadInvalidWord : Prop :=
  ∀ (d : UnitIdx) (c : Arg) (b : List Byte) (st : SrcStatus) (rest : List SrcAnswer) (out : List Byte) (w : Token)
    (s : State),
    DecReady s d → (s.decAt d).bound = true → (s.decAt d).phase ≠ .fault → c ≠ 0 →
    s.srcAt d = ⟨b, st⟩ :: rest → b.length ≤ 16 * c.toNat - (s.decAt d).leftLen.toNat →
    let scr := (s.decAt d).leftover ++ b
    decBytes (s.tokens (s.decAt d).asel) (scr.take (16 * (scr.length / 16))) = (out, some w) →
    ∃ t, exec (.decRead d c) s = .next t ∧ OnlyDecoder d s t ∧ t.waiting = s.waiting ∧ t.srcAt d = rest ∧
      t.trace =
        .result s.caller (some (.decRead d c)) ⟨.invalidWord, BitVec.ofNat 28 out.length, pack4 w, out⟩ ::
          .srcRead d (16 * c.toNat - (s.decAt d).leftLen.toNat) ⟨b, st⟩ :: s.trace ∧
      (t.decAt d).phase = .fault ∧ (t.decAt d).bad = w ∧ (t.decAt d).leftLen = 0 ∧ (t.decAt d).leftover = [] ∧
      (t.decAt d).lock = false ∧ (t.decAt d).job = none ∧ (t.decAt d).bound = true ∧
      (t.decAt d).asel = (s.decAt d).asel

/-- R174: a read whose source gives so few bytes, without an error, that no group is complete answers `(OK, 0, 0, [])`
and keeps every byte; with no bytes at all the leftover is as it was. -/
def Obligations.ZeroProgressRead : Prop :=
  ∀ (d : UnitIdx) (c : Arg) (b : List Byte) (rest : List SrcAnswer) (s : State),
    DecReady s d → (s.decAt d).bound = true → (s.decAt d).phase ≠ .fault → c ≠ 0 →
    s.srcAt d = ⟨b, .none⟩ :: rest → (s.decAt d).leftover.length + b.length < 16 →
    ∃ t, exec (.decRead d c) s = .next t ∧
      t.trace =
        .result s.caller (some (.decRead d c)) ⟨.ok, 0, 0, []⟩ ::
          .srcRead d (16 * c.toNat - (s.decAt d).leftLen.toNat) ⟨b, .none⟩ :: s.trace ∧
      (t.decAt d).leftover = (s.decAt d).leftover ++ b ∧ (b = [] → (t.decAt d).leftover = (s.decAt d).leftover) ∧
      (t.decAt d).phase = .idle

/-- R181 and R236: a faulted instance fails again, with any capacity, with the latched word, without reading its source
and without any change; and only a `DEC.OPEN` of the instance that answers `OK`, and reset, lead out of `FAULT`. -/
def Obligations.FaultIsTerminal : Prop :=
  (∀ (d : UnitIdx) (c : Arg) (s : State), DecReady s d → (s.decAt d).bound = true → (s.decAt d).phase = .fault →
    exec (.decRead d c) s = .next { s with
      trace := .result s.caller (some (.decRead d c)) ⟨.invalidWord, 0, pack4 (s.decAt d).bad, []⟩ :: s.trace }) ∧
  (∀ (s s' : State) (d : UnitIdx), s.Inv → step s = .next s' → (s.decAt d).phase = .fault →
    (s'.decAt d).phase = .fault ∧ (s'.decAt d).bad = (s.decAt d).bad ∨
    (∃ taken rest, s.inputs = .reset taken :: rest) ∨
    ∃ caller a r, s'.trace = .result caller (some (.decOpen d a)) r :: s.trace ∧ r.status = .ok)

/-- R180: a read of capacity 0 makes no source read and changes nothing; it answers `(OK, 0, 0, [])`, or on a faulted
instance, before that, the latched `InvalidWord`. -/
def Obligations.DecReadOfNothing : Prop :=
  ∀ (d : UnitIdx) (s : State), DecReady s d → (s.decAt d).bound = true →
    ((s.decAt d).phase ≠ .fault → exec (.decRead d 0) s = .next { s with
      trace := .result s.caller (some (.decRead d 0)) ⟨.ok, 0, 0, []⟩ :: s.trace }) ∧
    ((s.decAt d).phase = .fault → exec (.decRead d 0) s = .next { s with
      trace := .result s.caller (some (.decRead d 0)) ⟨.invalidWord, 0, pack4 (s.decAt d).bad, []⟩ :: s.trace })

/-- A read whose source has no answer ready blocks in `FILLING` (R170, R271): the leftover in scratch, the lock taken, no
result, the leftover registers as they were. Served without an answer it goes on waiting. Served when its source has
answered `⟨b, st⟩`, whatever the rest of the machine holds by then, it ends as it would have at once, with the whole
groups decoded, the rest carried and the source's status, or with `InvalidWord` (R172 to R179, R181, R182), to the caller
that gave it. The way an answer becomes ready is the model's own (assumption 1). -/
def Obligations.DecReadBlocksAndResumes : Prop :=
  ∀ (d : UnitIdx) (c : Arg) (s : State),
    DecReady s d → (s.decAt d).bound = true → (s.decAt d).phase ≠ .fault → c ≠ 0 → s.srcAt d = [] →
    ∃ t, exec (.decRead d c) s = .next t ∧ OnlyDecoder d s t ∧ t.waiting = s.waiting ∧ t.trace = s.trace ∧
      (t.decAt d).lock = true ∧ (t.decAt d).phase = .filling ∧ (t.decAt d).path.dscr = (s.decAt d).leftover ∧
      (t.decAt d).leftover = (s.decAt d).leftover ∧
      (∀ (u : State) (tl : List Input), u.inputs = .serveDec d :: tl → u.halted = false →
        u.decAt d = t.decAt d → u.srcAt d = [] → step u = .next (u.setInputs tl)) ∧
      ∀ (u : State) (tl : List Input) (b : List Byte) (st : SrcStatus) (rest : List SrcAnswer) (out : List Byte)
        (bad : Option Token),
        u.inputs = .serveDec d :: tl → u.halted = false → u.decAt d = t.decAt d → u.srcAt d = ⟨b, st⟩ :: rest →
        b.length ≤ 16 * c.toNat - (s.decAt d).leftLen.toNat →
        let scr := (s.decAt d).leftover ++ b
        let g := scr.length / 16
        decBytes (u.tokens (s.decAt d).asel) (scr.take (16 * g)) = (out, bad) →
        let read := Output.srcRead d (16 * c.toNat - (s.decAt d).leftLen.toNat) ⟨b, st⟩
        ∃ v, step u = .next v ∧ OnlyDecoder d (u.setInputs tl) v ∧ v.waiting = u.waiting ∧
          v.srcAt d = rest ∧ (v.decAt d).lock = false ∧ (v.decAt d).job = none ∧ (v.decAt d).bound = true ∧
          (v.decAt d).asel = (s.decAt d).asel ∧
          match bad with
          | none =>
            out.length = g ∧
              v.trace =
                .result s.caller (some (.decRead d c))
                    (match st with
                      | .none => ⟨.ok, BitVec.ofNat 28 g, 0, out⟩
                      | .eos => ⟨.endOfStream, BitVec.ofNat 28 g, 0, out⟩
                      | .err code => ⟨.sourceError, BitVec.ofNat 28 g, code, out⟩) :: read :: u.trace ∧
              (v.decAt d).leftover = scr.drop (16 * g) ∧ (v.decAt d).leftLen.toNat = scr.length % 16 ∧
              (v.decAt d).phase = .idle ∧ (v.decAt d).bad = (s.decAt d).bad
          | some w =>
            v.trace =
                .result s.caller (some (.decRead d c)) ⟨.invalidWord, BitVec.ofNat 28 out.length, pack4 w, out⟩ ::
                  read :: u.trace ∧
              (v.decAt d).phase = .fault ∧ (v.decAt d).bad = w ∧ (v.decAt d).leftLen = 0 ∧ (v.decAt d).leftover = []

/-- R185: a read never returns more than its capacity, its count is the number of its data bytes, and the leftover is at
most 15 bytes long and holds no whole group. -/
def Obligations.DecReadBounds : Prop :=
  ∀ (d : UnitIdx) (c : Arg) (s t : State) (caller : Nat) (j : Option Instr) (r : Result) (tl : List Output),
    exec (.decRead d c) s = .next t → t.trace = .result caller j r :: tl → t.trace ≠ s.trace →
    r.data.length ≤ c.toNat ∧ r.count.toNat = r.data.length ∧ (t.decAt d).leftover.length ≤ 15

/-- R184: the invariant of the carry. Every step keeps it, so that what a decoder has delivered depends only on the bytes
its source gave, and not on how they were cut into reads. -/
def Obligations.CarryKept : Prop :=
  ∀ s s' : State, s.Inv → (∀ d, CarryHolds s d) → step s = .next s' → ∀ d, CarryHolds s' d

/-- R184 with R100 and R207, the round trip over a stream cut anywhere: if the invariant of the carry holds and what the
source of an unfaulted decoder has given is the encoding of `bs` with its alphabet, then exactly `bs` has been decoded
and nothing is left over. -/
def Obligations.ChunkedRoundTrip : Prop :=
  ∀ (s : State) (d : UnitIdx) (bs : List Byte), s.Inv → CarryHolds s d → (s.decAt d).bound = true →
    (s.decAt d).phase ≠ .fault → seenBytes d s.trace = encBytes (s.tokens (s.decAt d).asel) bs →
    deliveredBytes d s.trace ++ (s.decAt d).pending = bs ∧ (s.decAt d).leftover = []

/-- R186 and R187: a `DEC.INTO` of size 0 answers `(OK, 0)` at once, on a faulted instance too; of any other size, on a
faulted instance, it answers the same `InvalidWord` again. -/
def Obligations.DecIntoAtOnce : Prop :=
  ∀ (d : UnitIdx) (n : Arg) (s : State), DecReady s d → (s.decAt d).bound = true →
    (n = 0 → exec (.decInto d n) s = .next { s with
      trace := .result s.caller (some (.decInto d n)) ⟨.ok, 0, 0, []⟩ :: s.trace }) ∧
    (n ≠ 0 → (s.decAt d).phase = .fault → exec (.decInto d n) s = .next { s with
      trace := .result s.caller (some (.decInto d n)) ⟨.invalidWord, 0, pack4 (s.decAt d).bad, []⟩ :: s.trace })

/-- R186, R187 and R188: the first inner read of a `DEC.INTO` has capacity `D`. A bad token ends the command with
`InvalidWord`, a source error with `SourceError`, the end of the stream with `OK`, a full destination with `OK`, each with
the bytes decoded; else the command goes on, the lock taken and the bytes kept, and no result is returned yet. With no
answer ready it blocks in `FILLING` with nothing decoded (R271, assumption 1). -/
def Obligations.DecIntoFirstRead : Prop :=
  ∀ (d : UnitIdx) (n : Arg) (s : State),
    DecReady s d → (s.decAt d).bound = true → (s.decAt d).phase ≠ .fault → n ≠ 0 →
    (s.srcAt d = [] →
      ∃ t, exec (.decInto d n) s = .next t ∧ OnlyDecoder d s t ∧ t.waiting = s.waiting ∧ t.trace = s.trace ∧
        (t.decAt d).lock = true ∧ (t.decAt d).phase = .filling ∧ (t.decAt d).path.dscr = (s.decAt d).leftover ∧
        (t.decAt d).leftover = (s.decAt d).leftover ∧ (t.decAt d).job = some ⟨s.caller, true, n, []⟩) ∧
    ∀ (b : List Byte) (st : SrcStatus) (rest : List SrcAnswer) (out : List Byte) (bad : Option Token),
      s.srcAt d = ⟨b, st⟩ :: rest → b.length ≤ 16 * n.toNat - (s.decAt d).leftLen.toNat →
      let scr := (s.decAt d).leftover ++ b
      decBytes (s.tokens (s.decAt d).asel) (scr.take (16 * (scr.length / 16))) = (out, bad) →
      let read := Output.srcRead d (16 * n.toNat - (s.decAt d).leftLen.toNat) ⟨b, st⟩
      ∃ t, exec (.decInto d n) s = .next t ∧ OnlyDecoder d s t ∧ t.waiting = s.waiting ∧ t.srcAt d = rest ∧
        (bad = none → (t.decAt d).leftover = scr.drop (16 * (scr.length / 16))) ∧
        match bad, st with
        | some w, _ =>
          (t.decAt d).phase = .fault ∧ (t.decAt d).bad = w ∧ (t.decAt d).leftover = [] ∧ (t.decAt d).lock = false ∧
            t.trace = .result s.caller (some (.decInto d n))
              ⟨.invalidWord, BitVec.ofNat 28 out.length, pack4 w, out⟩ :: read :: s.trace
        | none, .err code =>
          (t.decAt d).phase = .idle ∧ (t.decAt d).lock = false ∧
            t.trace = .result s.caller (some (.decInto d n))
              ⟨.sourceError, BitVec.ofNat 28 out.length, code, out⟩ :: read :: s.trace
        | none, .eos =>
          (t.decAt d).phase = .idle ∧ (t.decAt d).lock = false ∧
            t.trace = .result s.caller (some (.decInto d n)) ⟨.ok, BitVec.ofNat 28 out.length, 0, out⟩ ::
              read :: s.trace
        | none, .none =>
          (t.decAt d).phase = .idle ∧
            (out.length = n.toNat → (t.decAt d).lock = false ∧
              t.trace = .result s.caller (some (.decInto d n)) ⟨.ok, BitVec.ofNat 28 out.length, 0, out⟩ ::
                read :: s.trace) ∧
            (out.length ≠ n.toNat → (t.decAt d).lock = true ∧
              (t.decAt d).job = some ⟨s.caller, true, n, out⟩ ∧ t.trace = read :: s.trace)

/-- R186, R187: the next inner read of a `DEC.INTO` that has `before` already, be it a later one or the first one after it
had blocked, has capacity `D - |before|`; what it decodes is added, and the command ends as R186 says (full, end of
stream, source error or a bad token, with all the bytes) or goes on with the lock as it was, which under the invariant is
taken. A bad token is latched and empties the leftover; else the rest of the bytes is carried. With no answer ready the
read waits in `FILLING` (R271, assumption 1). -/
def Obligations.DecIntoNextRead : Prop :=
  ∀ (d : UnitIdx) (n : Arg) (caller : Nat) (before : List Byte) (tl : List Input) (s : State),
    s.inputs = .serveDec d :: tl → s.halted = false → (s.decAt d).job = some ⟨caller, true, n, before⟩ →
    before.length < n.toNat →
    (s.srcAt d = [] →
      ∃ t, step s = .next t ∧ OnlyDecoder d (s.setInputs tl) t ∧ t.waiting = s.waiting ∧ t.srcAt d = [] ∧
        t.trace = s.trace ∧
        t.decAt d = { s.decAt d with
          phase := .filling
          path := { (s.decAt d).path with dscr := (s.decAt d).leftover } }) ∧
    ∀ (b : List Byte) (st : SrcStatus) (rest : List SrcAnswer) (out : List Byte) (bad : Option Token),
      s.srcAt d = ⟨b, st⟩ :: rest → b.length ≤ 16 * (n.toNat - before.length) - (s.decAt d).leftLen.toNat →
      let scr := (s.decAt d).leftover ++ b
      decBytes (s.tokens (s.decAt d).asel) (scr.take (16 * (scr.length / 16))) = (out, bad) →
      let all := before ++ out
      let read := Output.srcRead d (16 * (n.toNat - before.length) - (s.decAt d).leftLen.toNat) ⟨b, st⟩
      ∃ t, step s = .next t ∧ OnlyDecoder d (s.setInputs tl) t ∧ t.waiting = s.waiting ∧ t.srcAt d = rest ∧
        (t.decAt d).bound = (s.decAt d).bound ∧ (t.decAt d).asel = (s.decAt d).asel ∧
        (bad = none → (t.decAt d).leftover = scr.drop (16 * (scr.length / 16)) ∧
          (t.decAt d).leftLen.toNat = scr.length % 16 ∧ (t.decAt d).bad = (s.decAt d).bad) ∧
        match bad, st with
        | some w, _ =>
          (t.decAt d).phase = .fault ∧ (t.decAt d).bad = w ∧ (t.decAt d).leftLen = 0 ∧ (t.decAt d).leftover = [] ∧
            (t.decAt d).lock = false ∧ (t.decAt d).job = none ∧
            t.trace = .result caller (some (.decInto d n))
              ⟨.invalidWord, BitVec.ofNat 28 all.length, pack4 w, all⟩ :: read :: s.trace
        | none, .err code =>
          (t.decAt d).phase = .idle ∧ (t.decAt d).lock = false ∧ (t.decAt d).job = none ∧
            t.trace = .result caller (some (.decInto d n))
              ⟨.sourceError, BitVec.ofNat 28 all.length, code, all⟩ :: read :: s.trace
        | none, .eos =>
          (t.decAt d).phase = .idle ∧ (t.decAt d).lock = false ∧ (t.decAt d).job = none ∧
            t.trace = .result caller (some (.decInto d n)) ⟨.ok, BitVec.ofNat 28 all.length, 0, all⟩ :: read :: s.trace
        | none, .none =>
          (t.decAt d).phase = .idle ∧
            (all.length = n.toNat → (t.decAt d).lock = false ∧ (t.decAt d).job = none ∧
              t.trace = .result caller (some (.decInto d n)) ⟨.ok, BitVec.ofNat 28 all.length, 0, all⟩ ::
                read :: s.trace) ∧
            (all.length ≠ n.toNat → (t.decAt d).lock = (s.decAt d).lock ∧ (s.Inv → (t.decAt d).lock = true) ∧
              (t.decAt d).job = some ⟨caller, true, n, all⟩ ∧ t.trace = read :: s.trace)

/-! ## One-shot commands -/

/-- R201: `OS.ENCODE` answers `BufferTooSmall` if the destination is smaller than `16 * n`, else the encoding. -/
def Obligations.OsEncodeResult : Prop :=
  ∀ (a : UnitIdx) (p : List Byte) (dcap : Word32) (s : State), SlotReady s a → (s.slotAt a).valid = true →
    (dcap.toNat < 16 * p.length → exec (.osEncode a p dcap) s = .next { s with
      trace := .result s.caller (some (.osEncode a p dcap)) ⟨.bufferTooSmall, 0, 0, []⟩ :: s.trace }) ∧
    (16 * p.length ≤ dcap.toNat → exec (.osEncode a p dcap) s = .next { s with
      trace := .result s.caller (some (.osEncode a p dcap))
        ⟨.ok, BitVec.ofNat 28 (16 * p.length), 0, encBytes (s.tokens a) p⟩ :: s.trace })

/-- R202 and R203: `OS.DECODE` tests the length, then the capacity, then the tokens. -/
def Obligations.OsDecodeResult : Prop :=
  ∀ (a : UnitIdx) (p : List Byte) (dcap : Word32) (s : State), SlotReady s a → (s.slotAt a).valid = true →
    (p.length % 16 ≠ 0 → exec (.osDecode a p dcap) s = .next { s with
      trace := .result s.caller (some (.osDecode a p dcap)) ⟨.invalidSourceLength, 0, 0, []⟩ :: s.trace }) ∧
    (p.length % 16 = 0 → dcap.toNat < p.length / 16 → exec (.osDecode a p dcap) s = .next { s with
      trace := .result s.caller (some (.osDecode a p dcap)) ⟨.bufferTooSmall, 0, 0, []⟩ :: s.trace }) ∧
    (∀ out, p.length % 16 = 0 → p.length / 16 ≤ dcap.toNat → decBytes (s.tokens a) p = (out, none) →
      exec (.osDecode a p dcap) s = .next { s with
        trace := .result s.caller (some (.osDecode a p dcap)) ⟨.ok, BitVec.ofNat 28 (p.length / 16), 0, out⟩ ::
          s.trace }) ∧
    (∀ out w, p.length % 16 = 0 → p.length / 16 ≤ dcap.toNat → decBytes (s.tokens a) p = (out, some w) →
      exec (.osDecode a p dcap) s = .next { s with
        trace := .result s.caller (some (.osDecode a p dcap))
          ⟨.invalidWord, BitVec.ofNat 28 out.length, pack4 w, out⟩ :: s.trace })

/-- R206: the pseudo-operations never answer `BufferTooSmall`. -/
def Obligations.PseudoOperationsFit : Prop :=
  ∀ (a : UnitIdx) (p : List Byte) (s : State), p.length ≤ Config.lenMax → SlotReady s a →
    (s.slotAt a).valid = true →
    (∃ r : Result, exec (osEncodes a p) s = .next { s with
      trace := .result s.caller (some (osEncodes a p)) r :: s.trace } ∧ r.status = .ok) ∧
    (∃ r : Result, exec (osDecodes a p) s = .next { s with
      trace := .result s.caller (some (osDecodes a p)) r :: s.trace } ∧
        (r.status = .ok ∨ r.status = .invalidSourceLength ∨ r.status = .invalidWord))

/-- R207: with capacities large enough, `OS.DECODE` of the data of `OS.ENCODE` of `p` returns `p`. -/
def Obligations.OneShotRoundTrip : Prop :=
  ∀ (a : UnitIdx) (p : List Byte) (cap cap' : Word32) (s : State), s.Inv → SlotReady s a →
    (s.slotAt a).valid = true → 16 * p.length ≤ cap.toNat → p.length ≤ cap'.toNat →
    ∃ t u r r', exec (.osEncode a p cap) s = .next t ∧
      t.trace = .result s.caller (some (.osEncode a p cap)) r :: s.trace ∧ r.status = .ok ∧
      r.data.length = 16 * p.length ∧
      exec (.osDecode a r.data cap') t = .next u ∧
      u.trace = .result t.caller (some (.osDecode a r.data cap')) r' :: t.trace ∧ r'.status = .ok ∧ r'.data = p

/-! ## Frames -/

/-- The alphabet commands and the one-shot commands. The lookups and the one-shots change no register and no port, and
read no source and write no sink: but for one result, or for the command waiting, the state is as it was (R136, R137,
R204). `ALPHA.LOAD` and `ALPHA.MUST` change nothing but the slot they address, if it is empty, and `HALTED`, and
`ALPHA.LOAD` not that (R131, R134). -/
def Obligations.AlphabetAndOneShotFrame : Prop :=
  (∀ (i : Instr) (s t : State),
    ((∃ a v, i = .alphaEncv a v) ∨ (∃ a w, i = .alphaDect a w) ∨ (∃ a p cap, i = .osEncode a p cap) ∨
      ∃ a p cap, i = .osDecode a p cap) →
    exec i s = .next t →
    t = { s with waiting := s.waiting ++ [(s.caller, encode i)] } ∨
      ∃ r, t = { s with trace := .result s.caller (some i) r :: s.trace }) ∧
  (∀ (i : Instr) (a : UnitIdx) (p : List Byte) (s t : State), (i = .alphaLoad a p ∨ i = .alphaMust a p) →
    exec i s = .next t →
    (∀ a', a' ≠ a → t.slotAt a' = s.slotAt a') ∧ ((s.slotAt a).valid = true → t.slotAt a = s.slotAt a) ∧
      (i = .alphaLoad a p → t.halted = s.halted) ∧ t.enc = s.enc ∧ t.dec = s.dec ∧ t.params = s.params ∧
      t.caller = s.caller ∧ t.inputs = s.inputs ∧ t.sinkIn = s.sinkIn ∧ t.srcIn = s.srcIn)

/-- The encoder commands change nothing but their own encoder, and of it only what the spec names: `ENC.WRITE` leaves its
binding as it was and never lowers `EHWM` (R151, R152, R157, R158, R7). -/
def Obligations.EncoderCommandsFrame : Prop :=
  (∀ (e a : UnitIdx) (s t : State), exec (.encOpen e a) s = .next t →
    OnlyEncoder e s t ∧ t.sinkIn = s.sinkIn ∧ (t.encAt e).path = (s.encAt e).path ∧
      (t.encAt e).job = (s.encAt e).job) ∧
  (∀ (e : UnitIdx) (p : List Byte) (s t : State), p.length ≤ Config.lenMax → exec (.encWrite e p) s = .next t →
    OnlyEncoder e s t ∧ (t.encAt e).bound = (s.encAt e).bound ∧ (t.encAt e).asel = (s.encAt e).asel ∧
      (s.encAt e).hwm.toNat ≤ (t.encAt e).hwm.toNat)

/-- The decoder commands change nothing but their own decoder, and of it only what the spec names: a read leaves its
binding as it was, and the latched word unless it enters `FAULT` (R171, R172, R186, R7). -/
def Obligations.DecoderCommandsFrame : Prop :=
  (∀ (d a : UnitIdx) (s t : State), exec (.decOpen d a) s = .next t →
    OnlyDecoder d s t ∧ t.srcIn = s.srcIn ∧ (t.decAt d).bad = (s.decAt d).bad ∧
      (t.decAt d).left = (s.decAt d).left ∧ (t.decAt d).path = (s.decAt d).path ∧
      (t.decAt d).job = (s.decAt d).job) ∧
  (∀ (i : Instr) (d : UnitIdx) (c : Arg) (s t : State), (i = .decRead d c ∨ i = .decInto d c) →
    exec i s = .next t →
    OnlyDecoder d s t ∧ (t.decAt d).bound = (s.decAt d).bound ∧ (t.decAt d).asel = (s.decAt d).asel ∧
      ((t.decAt d).phase ≠ .fault → (t.decAt d).bad = (s.decAt d).bad))

/-- R7, R81: what a command on an instance does depends on nothing but that instance, its own port, the alphabets, the
counts, `HALTED` and the caller; two machines that agree on these do the same, whatever else they hold. -/
def Obligations.InstanceIsolation : Prop :=
  (∀ (i : Instr) (d : UnitIdx) (s1 s2 t1 : State), targetOf i = .dec d →
    s1.decAt d = s2.decAt d → s1.srcAt d = s2.srcAt d → s1.alpha = s2.alpha → s1.params = s2.params →
    s1.halted = s2.halted → s1.caller = s2.caller → exec i s1 = .next t1 →
    ∃ t2 new, exec i s2 = .next t2 ∧ t1.trace = new ++ s1.trace ∧ t2.trace = new ++ s2.trace ∧
      SameKeptDec (t1.decAt d) (t2.decAt d) ∧ t1.srcAt d = t2.srcAt d) ∧
  (∀ (i : Instr) (e : UnitIdx) (s1 s2 t1 : State), targetOf i = .enc e →
    s1.encAt e = s2.encAt e → s1.sinkAt e = s2.sinkAt e → s1.alpha = s2.alpha → s1.params = s2.params →
    s1.halted = s2.halted → s1.caller = s2.caller → exec i s1 = .next t1 →
    ∃ t2 new, exec i s2 = .next t2 ∧ t1.trace = new ++ s1.trace ∧ t2.trace = new ++ s2.trace ∧
      SameKeptEnc (t1.encAt e) (t2.encAt e) ∧ t1.sinkAt e = t2.sinkAt e)

/-! ## The whole machine -/

/-- The invariant of the engine holds after every step from every state in which it holds: the counts are legal, valid
slots hold four distinct tokens (R24), bound instances name valid slots (R25, R29), locks are taken exactly while a
command is in progress (R26, R30), `EHWM` and `DPHASE` hold legal values (R32, R38), and a command in progress is in one
of the states of R170. -/
def Obligations.InvKept : Prop :=
  ∀ s s' : State, s.Inv → step s = .next s' → s'.Inv

/-- The invariants hold right after reset. -/
def Obligations.InvAtReset : Prop :=
  State.reset.Inv ∧ (∀ d, CarryHolds State.reset d) ∧ ∀ e, SinkStreamHolds State.reset e

/-- R23 and R251: a valid slot never changes, but by reset. -/
def Obligations.ValidSlotImmutable : Prop :=
  ∀ (s s' : State) (a : UnitIdx), step s = .next s' → (s.slotAt a).valid = true →
    s'.slotAt a = s.slotAt a ∨ ∃ taken rest, s.inputs = .reset taken :: rest

/-- R135, R36, R232: a halted engine does nothing: whatever comes but reset, no register changes, no source is read, no
sink is written, no result is returned; and it is stuck if nothing comes (U10). A running engine halts only by an
`ALPHA.MUST` with a bad specification on an empty slot. -/
def Obligations.HaltedUntilReset : Prop :=
  (∀ s : State, s.halted = true →
    (s.inputs = [] → step s = .fault .halted) ∧
    (∀ s', step s = .next s' → (∃ taken rest, s.inputs = .reset taken :: rest) ∨
      s'.halted = true ∧ s'.alpha = s.alpha ∧ s'.enc = s.enc ∧ s'.dec = s.dec ∧ s'.trace = s.trace)) ∧
  (∀ (i : Instr) (s t : State), s.halted = false → exec i s = .next t → t.halted = true →
    ∃ a p, i = .alphaMust a p ∧ (s.slotAt a).valid = false ∧
      (p.length ≠ 16 ∨ ∃ j k, j < k ∧ k < 4 ∧ (p.drop (4 * j)).take 4 = (p.drop (4 * k)).take 4))

/-- R251 with R42: right after reset, and after a reset at any time, every register for which the spec gives a value has
it. -/
def Obligations.ResetValues : Prop :=
  let good : State → Prop := fun s =>
    s.halted = false ∧ (∀ a, (s.slotAt a).valid = false) ∧
    (∀ e, (s.encAt e).bound = false ∧ (s.encAt e).asel = 0 ∧ (s.encAt e).lock = false ∧ (s.encAt e).hwm = 0) ∧
    ∀ d, (s.decAt d).bound = false ∧ (s.decAt d).asel = 0 ∧ (s.decAt d).lock = false ∧
      (s.decAt d).phase = .idle ∧ (s.decAt d).leftLen = 0
  good State.reset ∧
  ∀ (s : State) (taken : List Nat) (rest : List Input), s.inputs = .reset taken :: rest →
    ∃ t, step s = .next t ∧ good t

/-- R252: reset abandons the commands in progress and drops the commands that wait; none of them returns a result. -/
def Obligations.ResetAbandonsCommands : Prop :=
  ∀ (s : State) (taken : List Nat) (rest : List Input), s.inputs = .reset taken :: rest →
    ∃ t new, step s = .next t ∧ t.waiting = [] ∧ (∀ e, (t.encAt e).job = none) ∧ (∀ d, (t.decAt d).job = none) ∧
      t.trace = new ++ s.trace ∧ (∀ c i r, .result c i r ∉ new) ∧ t.inputs = rest ∧ t.params = s.params
end

