-- ==== Sys2Proof/Laws/State.lean ====
section
/-! SUPPORT. One small lemma for each field and accessor after each update of the state, so that no later proof unfolds a
record update. -/

namespace Sys2Proof.Machine

/-! ## `State.setSlot` -/

@[simp] theorem setSlot_halted (s : State) (a : UnitIdx) (x : AlphaSlot) : (s.setSlot a x).halted = s.halted := rfl
@[simp] theorem setSlot_enc (s : State) (a : UnitIdx) (x : AlphaSlot) : (s.setSlot a x).enc = s.enc := rfl
@[simp] theorem setSlot_dec (s : State) (a : UnitIdx) (x : AlphaSlot) : (s.setSlot a x).dec = s.dec := rfl
@[simp] theorem setSlot_params (s : State) (a : UnitIdx) (x : AlphaSlot) : (s.setSlot a x).params = s.params := rfl
@[simp] theorem setSlot_caller (s : State) (a : UnitIdx) (x : AlphaSlot) : (s.setSlot a x).caller = s.caller := rfl
@[simp] theorem setSlot_inputs (s : State) (a : UnitIdx) (x : AlphaSlot) : (s.setSlot a x).inputs = s.inputs := rfl
@[simp] theorem setSlot_waiting (s : State) (a : UnitIdx) (x : AlphaSlot) : (s.setSlot a x).waiting = s.waiting := rfl
@[simp] theorem setSlot_sinkIn (s : State) (a : UnitIdx) (x : AlphaSlot) : (s.setSlot a x).sinkIn = s.sinkIn := rfl
@[simp] theorem setSlot_srcIn (s : State) (a : UnitIdx) (x : AlphaSlot) : (s.setSlot a x).srcIn = s.srcIn := rfl
@[simp] theorem setSlot_trace (s : State) (a : UnitIdx) (x : AlphaSlot) : (s.setSlot a x).trace = s.trace := rfl
@[simp] theorem setSlot_encAt (s : State) (a : UnitIdx) (x : AlphaSlot) (e' : UnitIdx) : (s.setSlot a x).encAt e' = s.encAt e' := rfl
@[simp] theorem setSlot_decAt (s : State) (a : UnitIdx) (x : AlphaSlot) (d' : UnitIdx) : (s.setSlot a x).decAt d' = s.decAt d' := rfl
@[simp] theorem setSlot_sinkAt (s : State) (a : UnitIdx) (x : AlphaSlot) (e' : UnitIdx) : (s.setSlot a x).sinkAt e' = s.sinkAt e' := rfl
@[simp] theorem setSlot_srcAt (s : State) (a : UnitIdx) (x : AlphaSlot) (d' : UnitIdx) : (s.setSlot a x).srcAt d' = s.srcAt d' := rfl
@[simp] theorem setSlot_slotAt_self (s : State) (a : UnitIdx) (x : AlphaSlot) : (s.setSlot a x).slotAt a = x := by
  simp [State.setSlot, State.slotAt]
theorem setSlot_slotAt_ne (s : State) (a : UnitIdx) (x : AlphaSlot) (a' : UnitIdx) (h : a' ≠ a) :
    (s.setSlot a x).slotAt a' = s.slotAt a' := by
  have h' : a.toNat ≠ a'.toNat := fun q => h (BitVec.eq_of_toNat_eq q.symm)
  simp [State.setSlot, State.slotAt, h']
theorem setSlot_slotAt (s : State) (a : UnitIdx) (x : AlphaSlot) (a' : UnitIdx) :
    (s.setSlot a x).slotAt a' = if a' = a then x else s.slotAt a' := by
  split
  · next h => subst h; exact setSlot_slotAt_self s a' x
  · next h => exact setSlot_slotAt_ne s a x a' h
@[simp] theorem setSlot_setSlot (s : State) (a : UnitIdx) (x y : AlphaSlot) : (s.setSlot a x).setSlot a y = s.setSlot a y := by
  simp [State.setSlot]
@[simp] theorem setSlot_self (s : State) (a : UnitIdx) : s.setSlot a (s.slotAt a) = s := by
  simp [State.setSlot, State.slotAt]

/-! ## `State.setEnc` -/

@[simp] theorem setEnc_halted (s : State) (e : UnitIdx) (x : Encoder) : (s.setEnc e x).halted = s.halted := rfl
@[simp] theorem setEnc_alpha (s : State) (e : UnitIdx) (x : Encoder) : (s.setEnc e x).alpha = s.alpha := rfl
@[simp] theorem setEnc_dec (s : State) (e : UnitIdx) (x : Encoder) : (s.setEnc e x).dec = s.dec := rfl
@[simp] theorem setEnc_params (s : State) (e : UnitIdx) (x : Encoder) : (s.setEnc e x).params = s.params := rfl
@[simp] theorem setEnc_caller (s : State) (e : UnitIdx) (x : Encoder) : (s.setEnc e x).caller = s.caller := rfl
@[simp] theorem setEnc_inputs (s : State) (e : UnitIdx) (x : Encoder) : (s.setEnc e x).inputs = s.inputs := rfl
@[simp] theorem setEnc_waiting (s : State) (e : UnitIdx) (x : Encoder) : (s.setEnc e x).waiting = s.waiting := rfl
@[simp] theorem setEnc_sinkIn (s : State) (e : UnitIdx) (x : Encoder) : (s.setEnc e x).sinkIn = s.sinkIn := rfl
@[simp] theorem setEnc_srcIn (s : State) (e : UnitIdx) (x : Encoder) : (s.setEnc e x).srcIn = s.srcIn := rfl
@[simp] theorem setEnc_trace (s : State) (e : UnitIdx) (x : Encoder) : (s.setEnc e x).trace = s.trace := rfl
@[simp] theorem setEnc_slotAt (s : State) (e : UnitIdx) (x : Encoder) (a' : UnitIdx) : (s.setEnc e x).slotAt a' = s.slotAt a' := rfl
@[simp] theorem setEnc_decAt (s : State) (e : UnitIdx) (x : Encoder) (d' : UnitIdx) : (s.setEnc e x).decAt d' = s.decAt d' := rfl
@[simp] theorem setEnc_sinkAt (s : State) (e : UnitIdx) (x : Encoder) (e' : UnitIdx) : (s.setEnc e x).sinkAt e' = s.sinkAt e' := rfl
@[simp] theorem setEnc_srcAt (s : State) (e : UnitIdx) (x : Encoder) (d' : UnitIdx) : (s.setEnc e x).srcAt d' = s.srcAt d' := rfl
@[simp] theorem setEnc_tokens (s : State) (e : UnitIdx) (x : Encoder) (a' : UnitIdx) : (s.setEnc e x).tokens a' = s.tokens a' := rfl
@[simp] theorem setEnc_encAt_self (s : State) (e : UnitIdx) (x : Encoder) : (s.setEnc e x).encAt e = x := by
  simp [State.setEnc, State.encAt]
theorem setEnc_encAt_ne (s : State) (e : UnitIdx) (x : Encoder) (e' : UnitIdx) (h : e' ≠ e) :
    (s.setEnc e x).encAt e' = s.encAt e' := by
  have h' : e.toNat ≠ e'.toNat := fun q => h (BitVec.eq_of_toNat_eq q.symm)
  simp [State.setEnc, State.encAt, h']
theorem setEnc_encAt (s : State) (e : UnitIdx) (x : Encoder) (e' : UnitIdx) :
    (s.setEnc e x).encAt e' = if e' = e then x else s.encAt e' := by
  split
  · next h => subst h; exact setEnc_encAt_self s e' x
  · next h => exact setEnc_encAt_ne s e x e' h
@[simp] theorem setEnc_setEnc (s : State) (e : UnitIdx) (x y : Encoder) : (s.setEnc e x).setEnc e y = s.setEnc e y := by
  simp [State.setEnc]
@[simp] theorem setEnc_self (s : State) (e : UnitIdx) : s.setEnc e (s.encAt e) = s := by
  simp [State.setEnc, State.encAt]

/-! ## `State.setDec` -/

@[simp] theorem setDec_halted (s : State) (d : UnitIdx) (x : Decoder) : (s.setDec d x).halted = s.halted := rfl
@[simp] theorem setDec_alpha (s : State) (d : UnitIdx) (x : Decoder) : (s.setDec d x).alpha = s.alpha := rfl
@[simp] theorem setDec_enc (s : State) (d : UnitIdx) (x : Decoder) : (s.setDec d x).enc = s.enc := rfl
@[simp] theorem setDec_params (s : State) (d : UnitIdx) (x : Decoder) : (s.setDec d x).params = s.params := rfl
@[simp] theorem setDec_caller (s : State) (d : UnitIdx) (x : Decoder) : (s.setDec d x).caller = s.caller := rfl
@[simp] theorem setDec_inputs (s : State) (d : UnitIdx) (x : Decoder) : (s.setDec d x).inputs = s.inputs := rfl
@[simp] theorem setDec_waiting (s : State) (d : UnitIdx) (x : Decoder) : (s.setDec d x).waiting = s.waiting := rfl
@[simp] theorem setDec_sinkIn (s : State) (d : UnitIdx) (x : Decoder) : (s.setDec d x).sinkIn = s.sinkIn := rfl
@[simp] theorem setDec_srcIn (s : State) (d : UnitIdx) (x : Decoder) : (s.setDec d x).srcIn = s.srcIn := rfl
@[simp] theorem setDec_trace (s : State) (d : UnitIdx) (x : Decoder) : (s.setDec d x).trace = s.trace := rfl
@[simp] theorem setDec_slotAt (s : State) (d : UnitIdx) (x : Decoder) (a' : UnitIdx) : (s.setDec d x).slotAt a' = s.slotAt a' := rfl
@[simp] theorem setDec_encAt (s : State) (d : UnitIdx) (x : Decoder) (e' : UnitIdx) : (s.setDec d x).encAt e' = s.encAt e' := rfl
@[simp] theorem setDec_sinkAt (s : State) (d : UnitIdx) (x : Decoder) (e' : UnitIdx) : (s.setDec d x).sinkAt e' = s.sinkAt e' := rfl
@[simp] theorem setDec_srcAt (s : State) (d : UnitIdx) (x : Decoder) (d' : UnitIdx) : (s.setDec d x).srcAt d' = s.srcAt d' := rfl
@[simp] theorem setDec_tokens (s : State) (d : UnitIdx) (x : Decoder) (a' : UnitIdx) : (s.setDec d x).tokens a' = s.tokens a' := rfl
@[simp] theorem setDec_decAt_self (s : State) (d : UnitIdx) (x : Decoder) : (s.setDec d x).decAt d = x := by
  simp [State.setDec, State.decAt]
theorem setDec_decAt_ne (s : State) (d : UnitIdx) (x : Decoder) (d' : UnitIdx) (h : d' ≠ d) :
    (s.setDec d x).decAt d' = s.decAt d' := by
  have h' : d.toNat ≠ d'.toNat := fun q => h (BitVec.eq_of_toNat_eq q.symm)
  simp [State.setDec, State.decAt, h']
theorem setDec_decAt (s : State) (d : UnitIdx) (x : Decoder) (d' : UnitIdx) :
    (s.setDec d x).decAt d' = if d' = d then x else s.decAt d' := by
  split
  · next h => subst h; exact setDec_decAt_self s d' x
  · next h => exact setDec_decAt_ne s d x d' h
@[simp] theorem setDec_setDec (s : State) (d : UnitIdx) (x y : Decoder) : (s.setDec d x).setDec d y = s.setDec d y := by
  simp [State.setDec]
@[simp] theorem setDec_self (s : State) (d : UnitIdx) : s.setDec d (s.decAt d) = s := by
  simp [State.setDec, State.decAt]

/-! ## `State.setSink` -/

@[simp] theorem setSink_halted (s : State) (e : UnitIdx) (x : List SinkAnswer) : (s.setSink e x).halted = s.halted := rfl
@[simp] theorem setSink_alpha (s : State) (e : UnitIdx) (x : List SinkAnswer) : (s.setSink e x).alpha = s.alpha := rfl
@[simp] theorem setSink_enc (s : State) (e : UnitIdx) (x : List SinkAnswer) : (s.setSink e x).enc = s.enc := rfl
@[simp] theorem setSink_dec (s : State) (e : UnitIdx) (x : List SinkAnswer) : (s.setSink e x).dec = s.dec := rfl
@[simp] theorem setSink_params (s : State) (e : UnitIdx) (x : List SinkAnswer) : (s.setSink e x).params = s.params := rfl
@[simp] theorem setSink_caller (s : State) (e : UnitIdx) (x : List SinkAnswer) : (s.setSink e x).caller = s.caller := rfl
@[simp] theorem setSink_inputs (s : State) (e : UnitIdx) (x : List SinkAnswer) : (s.setSink e x).inputs = s.inputs := rfl
@[simp] theorem setSink_waiting (s : State) (e : UnitIdx) (x : List SinkAnswer) : (s.setSink e x).waiting = s.waiting := rfl
@[simp] theorem setSink_srcIn (s : State) (e : UnitIdx) (x : List SinkAnswer) : (s.setSink e x).srcIn = s.srcIn := rfl
@[simp] theorem setSink_trace (s : State) (e : UnitIdx) (x : List SinkAnswer) : (s.setSink e x).trace = s.trace := rfl
@[simp] theorem setSink_slotAt (s : State) (e : UnitIdx) (x : List SinkAnswer) (a' : UnitIdx) : (s.setSink e x).slotAt a' = s.slotAt a' := rfl
@[simp] theorem setSink_encAt (s : State) (e : UnitIdx) (x : List SinkAnswer) (e' : UnitIdx) : (s.setSink e x).encAt e' = s.encAt e' := rfl
@[simp] theorem setSink_decAt (s : State) (e : UnitIdx) (x : List SinkAnswer) (d' : UnitIdx) : (s.setSink e x).decAt d' = s.decAt d' := rfl
@[simp] theorem setSink_srcAt (s : State) (e : UnitIdx) (x : List SinkAnswer) (d' : UnitIdx) : (s.setSink e x).srcAt d' = s.srcAt d' := rfl
@[simp] theorem setSink_tokens (s : State) (e : UnitIdx) (x : List SinkAnswer) (a' : UnitIdx) : (s.setSink e x).tokens a' = s.tokens a' := rfl
@[simp] theorem setSink_sinkAt_self (s : State) (e : UnitIdx) (x : List SinkAnswer) : (s.setSink e x).sinkAt e = x := by
  simp [State.setSink, State.sinkAt]
theorem setSink_sinkAt_ne (s : State) (e : UnitIdx) (x : List SinkAnswer) (e' : UnitIdx) (h : e' ≠ e) :
    (s.setSink e x).sinkAt e' = s.sinkAt e' := by
  have h' : e.toNat ≠ e'.toNat := fun q => h (BitVec.eq_of_toNat_eq q.symm)
  simp [State.setSink, State.sinkAt, h']
theorem setSink_sinkAt (s : State) (e : UnitIdx) (x : List SinkAnswer) (e' : UnitIdx) :
    (s.setSink e x).sinkAt e' = if e' = e then x else s.sinkAt e' := by
  split
  · next h => subst h; exact setSink_sinkAt_self s e' x
  · next h => exact setSink_sinkAt_ne s e x e' h
@[simp] theorem setSink_setSink (s : State) (e : UnitIdx) (x y : List SinkAnswer) : (s.setSink e x).setSink e y = s.setSink e y := by
  simp [State.setSink]
@[simp] theorem setSink_self (s : State) (e : UnitIdx) : s.setSink e (s.sinkAt e) = s := by
  simp [State.setSink, State.sinkAt]

/-! ## `State.setSrc` -/

@[simp] theorem setSrc_halted (s : State) (d : UnitIdx) (x : List SrcAnswer) : (s.setSrc d x).halted = s.halted := rfl
@[simp] theorem setSrc_alpha (s : State) (d : UnitIdx) (x : List SrcAnswer) : (s.setSrc d x).alpha = s.alpha := rfl
@[simp] theorem setSrc_enc (s : State) (d : UnitIdx) (x : List SrcAnswer) : (s.setSrc d x).enc = s.enc := rfl
@[simp] theorem setSrc_dec (s : State) (d : UnitIdx) (x : List SrcAnswer) : (s.setSrc d x).dec = s.dec := rfl
@[simp] theorem setSrc_params (s : State) (d : UnitIdx) (x : List SrcAnswer) : (s.setSrc d x).params = s.params := rfl
@[simp] theorem setSrc_caller (s : State) (d : UnitIdx) (x : List SrcAnswer) : (s.setSrc d x).caller = s.caller := rfl
@[simp] theorem setSrc_inputs (s : State) (d : UnitIdx) (x : List SrcAnswer) : (s.setSrc d x).inputs = s.inputs := rfl
@[simp] theorem setSrc_waiting (s : State) (d : UnitIdx) (x : List SrcAnswer) : (s.setSrc d x).waiting = s.waiting := rfl
@[simp] theorem setSrc_sinkIn (s : State) (d : UnitIdx) (x : List SrcAnswer) : (s.setSrc d x).sinkIn = s.sinkIn := rfl
@[simp] theorem setSrc_trace (s : State) (d : UnitIdx) (x : List SrcAnswer) : (s.setSrc d x).trace = s.trace := rfl
@[simp] theorem setSrc_slotAt (s : State) (d : UnitIdx) (x : List SrcAnswer) (a' : UnitIdx) : (s.setSrc d x).slotAt a' = s.slotAt a' := rfl
@[simp] theorem setSrc_encAt (s : State) (d : UnitIdx) (x : List SrcAnswer) (e' : UnitIdx) : (s.setSrc d x).encAt e' = s.encAt e' := rfl
@[simp] theorem setSrc_decAt (s : State) (d : UnitIdx) (x : List SrcAnswer) (d' : UnitIdx) : (s.setSrc d x).decAt d' = s.decAt d' := rfl
@[simp] theorem setSrc_sinkAt (s : State) (d : UnitIdx) (x : List SrcAnswer) (e' : UnitIdx) : (s.setSrc d x).sinkAt e' = s.sinkAt e' := rfl
@[simp] theorem setSrc_tokens (s : State) (d : UnitIdx) (x : List SrcAnswer) (a' : UnitIdx) : (s.setSrc d x).tokens a' = s.tokens a' := rfl
@[simp] theorem setSrc_srcAt_self (s : State) (d : UnitIdx) (x : List SrcAnswer) : (s.setSrc d x).srcAt d = x := by
  simp [State.setSrc, State.srcAt]
theorem setSrc_srcAt_ne (s : State) (d : UnitIdx) (x : List SrcAnswer) (d' : UnitIdx) (h : d' ≠ d) :
    (s.setSrc d x).srcAt d' = s.srcAt d' := by
  have h' : d.toNat ≠ d'.toNat := fun q => h (BitVec.eq_of_toNat_eq q.symm)
  simp [State.setSrc, State.srcAt, h']
theorem setSrc_srcAt (s : State) (d : UnitIdx) (x : List SrcAnswer) (d' : UnitIdx) :
    (s.setSrc d x).srcAt d' = if d' = d then x else s.srcAt d' := by
  split
  · next h => subst h; exact setSrc_srcAt_self s d' x
  · next h => exact setSrc_srcAt_ne s d x d' h
@[simp] theorem setSrc_setSrc (s : State) (d : UnitIdx) (x y : List SrcAnswer) : (s.setSrc d x).setSrc d y = s.setSrc d y := by
  simp [State.setSrc]
@[simp] theorem setSrc_self (s : State) (d : UnitIdx) : s.setSrc d (s.srcAt d) = s := by
  simp [State.setSrc, State.srcAt]

/-! ## `State.emit` -/

@[simp] theorem emit_halted (s : State) (o : Output) : (s.emit o).halted = s.halted := rfl
@[simp] theorem emit_alpha (s : State) (o : Output) : (s.emit o).alpha = s.alpha := rfl
@[simp] theorem emit_enc (s : State) (o : Output) : (s.emit o).enc = s.enc := rfl
@[simp] theorem emit_dec (s : State) (o : Output) : (s.emit o).dec = s.dec := rfl
@[simp] theorem emit_params (s : State) (o : Output) : (s.emit o).params = s.params := rfl
@[simp] theorem emit_caller (s : State) (o : Output) : (s.emit o).caller = s.caller := rfl
@[simp] theorem emit_inputs (s : State) (o : Output) : (s.emit o).inputs = s.inputs := rfl
@[simp] theorem emit_waiting (s : State) (o : Output) : (s.emit o).waiting = s.waiting := rfl
@[simp] theorem emit_sinkIn (s : State) (o : Output) : (s.emit o).sinkIn = s.sinkIn := rfl
@[simp] theorem emit_srcIn (s : State) (o : Output) : (s.emit o).srcIn = s.srcIn := rfl
@[simp] theorem emit_slotAt (s : State) (o : Output) (a' : UnitIdx) : (s.emit o).slotAt a' = s.slotAt a' := rfl
@[simp] theorem emit_encAt (s : State) (o : Output) (e' : UnitIdx) : (s.emit o).encAt e' = s.encAt e' := rfl
@[simp] theorem emit_decAt (s : State) (o : Output) (d' : UnitIdx) : (s.emit o).decAt d' = s.decAt d' := rfl
@[simp] theorem emit_sinkAt (s : State) (o : Output) (e' : UnitIdx) : (s.emit o).sinkAt e' = s.sinkAt e' := rfl
@[simp] theorem emit_srcAt (s : State) (o : Output) (d' : UnitIdx) : (s.emit o).srcAt d' = s.srcAt d' := rfl
@[simp] theorem emit_tokens (s : State) (o : Output) (a' : UnitIdx) : (s.emit o).tokens a' = s.tokens a' := rfl
@[simp] theorem emit_trace (s : State) (o : Output) : (s.emit o).trace = o :: s.trace := rfl

/-! ## `State.hold` -/

@[simp] theorem hold_halted (s : State) (c : Command) : (s.hold c).halted = s.halted := rfl
@[simp] theorem hold_alpha (s : State) (c : Command) : (s.hold c).alpha = s.alpha := rfl
@[simp] theorem hold_enc (s : State) (c : Command) : (s.hold c).enc = s.enc := rfl
@[simp] theorem hold_dec (s : State) (c : Command) : (s.hold c).dec = s.dec := rfl
@[simp] theorem hold_params (s : State) (c : Command) : (s.hold c).params = s.params := rfl
@[simp] theorem hold_caller (s : State) (c : Command) : (s.hold c).caller = s.caller := rfl
@[simp] theorem hold_inputs (s : State) (c : Command) : (s.hold c).inputs = s.inputs := rfl
@[simp] theorem hold_sinkIn (s : State) (c : Command) : (s.hold c).sinkIn = s.sinkIn := rfl
@[simp] theorem hold_srcIn (s : State) (c : Command) : (s.hold c).srcIn = s.srcIn := rfl
@[simp] theorem hold_trace (s : State) (c : Command) : (s.hold c).trace = s.trace := rfl
@[simp] theorem hold_slotAt (s : State) (c : Command) (a' : UnitIdx) : (s.hold c).slotAt a' = s.slotAt a' := rfl
@[simp] theorem hold_encAt (s : State) (c : Command) (e' : UnitIdx) : (s.hold c).encAt e' = s.encAt e' := rfl
@[simp] theorem hold_decAt (s : State) (c : Command) (d' : UnitIdx) : (s.hold c).decAt d' = s.decAt d' := rfl
@[simp] theorem hold_sinkAt (s : State) (c : Command) (e' : UnitIdx) : (s.hold c).sinkAt e' = s.sinkAt e' := rfl
@[simp] theorem hold_srcAt (s : State) (c : Command) (d' : UnitIdx) : (s.hold c).srcAt d' = s.srcAt d' := rfl
@[simp] theorem hold_tokens (s : State) (c : Command) (a' : UnitIdx) : (s.hold c).tokens a' = s.tokens a' := rfl
@[simp] theorem hold_waiting (s : State) (c : Command) : (s.hold c).waiting = s.waiting ++ [(s.caller, c)] := rfl

/-! ## `State.setHalted` -/

@[simp] theorem setHalted_alpha (s : State) (x : Bool) : (s.setHalted x).alpha = s.alpha := rfl
@[simp] theorem setHalted_enc (s : State) (x : Bool) : (s.setHalted x).enc = s.enc := rfl
@[simp] theorem setHalted_dec (s : State) (x : Bool) : (s.setHalted x).dec = s.dec := rfl
@[simp] theorem setHalted_params (s : State) (x : Bool) : (s.setHalted x).params = s.params := rfl
@[simp] theorem setHalted_caller (s : State) (x : Bool) : (s.setHalted x).caller = s.caller := rfl
@[simp] theorem setHalted_inputs (s : State) (x : Bool) : (s.setHalted x).inputs = s.inputs := rfl
@[simp] theorem setHalted_waiting (s : State) (x : Bool) : (s.setHalted x).waiting = s.waiting := rfl
@[simp] theorem setHalted_sinkIn (s : State) (x : Bool) : (s.setHalted x).sinkIn = s.sinkIn := rfl
@[simp] theorem setHalted_srcIn (s : State) (x : Bool) : (s.setHalted x).srcIn = s.srcIn := rfl
@[simp] theorem setHalted_trace (s : State) (x : Bool) : (s.setHalted x).trace = s.trace := rfl
@[simp] theorem setHalted_slotAt (s : State) (x : Bool) (a' : UnitIdx) : (s.setHalted x).slotAt a' = s.slotAt a' := rfl
@[simp] theorem setHalted_encAt (s : State) (x : Bool) (e' : UnitIdx) : (s.setHalted x).encAt e' = s.encAt e' := rfl
@[simp] theorem setHalted_decAt (s : State) (x : Bool) (d' : UnitIdx) : (s.setHalted x).decAt d' = s.decAt d' := rfl
@[simp] theorem setHalted_sinkAt (s : State) (x : Bool) (e' : UnitIdx) : (s.setHalted x).sinkAt e' = s.sinkAt e' := rfl
@[simp] theorem setHalted_srcAt (s : State) (x : Bool) (d' : UnitIdx) : (s.setHalted x).srcAt d' = s.srcAt d' := rfl
@[simp] theorem setHalted_tokens (s : State) (x : Bool) (a' : UnitIdx) : (s.setHalted x).tokens a' = s.tokens a' := rfl
@[simp] theorem setHalted_halted (s : State) (x : Bool) : (s.setHalted x).halted = x := rfl

/-! ## `State.setCaller` -/

@[simp] theorem setCaller_halted (s : State) (x : Nat) : (s.setCaller x).halted = s.halted := rfl
@[simp] theorem setCaller_alpha (s : State) (x : Nat) : (s.setCaller x).alpha = s.alpha := rfl
@[simp] theorem setCaller_enc (s : State) (x : Nat) : (s.setCaller x).enc = s.enc := rfl
@[simp] theorem setCaller_dec (s : State) (x : Nat) : (s.setCaller x).dec = s.dec := rfl
@[simp] theorem setCaller_params (s : State) (x : Nat) : (s.setCaller x).params = s.params := rfl
@[simp] theorem setCaller_inputs (s : State) (x : Nat) : (s.setCaller x).inputs = s.inputs := rfl
@[simp] theorem setCaller_waiting (s : State) (x : Nat) : (s.setCaller x).waiting = s.waiting := rfl
@[simp] theorem setCaller_sinkIn (s : State) (x : Nat) : (s.setCaller x).sinkIn = s.sinkIn := rfl
@[simp] theorem setCaller_srcIn (s : State) (x : Nat) : (s.setCaller x).srcIn = s.srcIn := rfl
@[simp] theorem setCaller_trace (s : State) (x : Nat) : (s.setCaller x).trace = s.trace := rfl
@[simp] theorem setCaller_slotAt (s : State) (x : Nat) (a' : UnitIdx) : (s.setCaller x).slotAt a' = s.slotAt a' := rfl
@[simp] theorem setCaller_encAt (s : State) (x : Nat) (e' : UnitIdx) : (s.setCaller x).encAt e' = s.encAt e' := rfl
@[simp] theorem setCaller_decAt (s : State) (x : Nat) (d' : UnitIdx) : (s.setCaller x).decAt d' = s.decAt d' := rfl
@[simp] theorem setCaller_sinkAt (s : State) (x : Nat) (e' : UnitIdx) : (s.setCaller x).sinkAt e' = s.sinkAt e' := rfl
@[simp] theorem setCaller_srcAt (s : State) (x : Nat) (d' : UnitIdx) : (s.setCaller x).srcAt d' = s.srcAt d' := rfl
@[simp] theorem setCaller_tokens (s : State) (x : Nat) (a' : UnitIdx) : (s.setCaller x).tokens a' = s.tokens a' := rfl
@[simp] theorem setCaller_caller (s : State) (x : Nat) : (s.setCaller x).caller = x := rfl

/-! ## `State.setInputs` -/

@[simp] theorem setInputs_halted (s : State) (x : List Input) : (s.setInputs x).halted = s.halted := rfl
@[simp] theorem setInputs_alpha (s : State) (x : List Input) : (s.setInputs x).alpha = s.alpha := rfl
@[simp] theorem setInputs_enc (s : State) (x : List Input) : (s.setInputs x).enc = s.enc := rfl
@[simp] theorem setInputs_dec (s : State) (x : List Input) : (s.setInputs x).dec = s.dec := rfl
@[simp] theorem setInputs_params (s : State) (x : List Input) : (s.setInputs x).params = s.params := rfl
@[simp] theorem setInputs_caller (s : State) (x : List Input) : (s.setInputs x).caller = s.caller := rfl
@[simp] theorem setInputs_waiting (s : State) (x : List Input) : (s.setInputs x).waiting = s.waiting := rfl
@[simp] theorem setInputs_sinkIn (s : State) (x : List Input) : (s.setInputs x).sinkIn = s.sinkIn := rfl
@[simp] theorem setInputs_srcIn (s : State) (x : List Input) : (s.setInputs x).srcIn = s.srcIn := rfl
@[simp] theorem setInputs_trace (s : State) (x : List Input) : (s.setInputs x).trace = s.trace := rfl
@[simp] theorem setInputs_slotAt (s : State) (x : List Input) (a' : UnitIdx) : (s.setInputs x).slotAt a' = s.slotAt a' := rfl
@[simp] theorem setInputs_encAt (s : State) (x : List Input) (e' : UnitIdx) : (s.setInputs x).encAt e' = s.encAt e' := rfl
@[simp] theorem setInputs_decAt (s : State) (x : List Input) (d' : UnitIdx) : (s.setInputs x).decAt d' = s.decAt d' := rfl
@[simp] theorem setInputs_sinkAt (s : State) (x : List Input) (e' : UnitIdx) : (s.setInputs x).sinkAt e' = s.sinkAt e' := rfl
@[simp] theorem setInputs_srcAt (s : State) (x : List Input) (d' : UnitIdx) : (s.setInputs x).srcAt d' = s.srcAt d' := rfl
@[simp] theorem setInputs_tokens (s : State) (x : List Input) (a' : UnitIdx) : (s.setInputs x).tokens a' = s.tokens a' := rfl
@[simp] theorem setInputs_inputs (s : State) (x : List Input) : (s.setInputs x).inputs = x := rfl

/-! ## `State.setWaiting` -/

@[simp] theorem setWaiting_halted (s : State) (x : List (Nat × Command)) : (s.setWaiting x).halted = s.halted := rfl
@[simp] theorem setWaiting_alpha (s : State) (x : List (Nat × Command)) : (s.setWaiting x).alpha = s.alpha := rfl
@[simp] theorem setWaiting_enc (s : State) (x : List (Nat × Command)) : (s.setWaiting x).enc = s.enc := rfl
@[simp] theorem setWaiting_dec (s : State) (x : List (Nat × Command)) : (s.setWaiting x).dec = s.dec := rfl
@[simp] theorem setWaiting_params (s : State) (x : List (Nat × Command)) : (s.setWaiting x).params = s.params := rfl
@[simp] theorem setWaiting_caller (s : State) (x : List (Nat × Command)) : (s.setWaiting x).caller = s.caller := rfl
@[simp] theorem setWaiting_inputs (s : State) (x : List (Nat × Command)) : (s.setWaiting x).inputs = s.inputs := rfl
@[simp] theorem setWaiting_sinkIn (s : State) (x : List (Nat × Command)) : (s.setWaiting x).sinkIn = s.sinkIn := rfl
@[simp] theorem setWaiting_srcIn (s : State) (x : List (Nat × Command)) : (s.setWaiting x).srcIn = s.srcIn := rfl
@[simp] theorem setWaiting_trace (s : State) (x : List (Nat × Command)) : (s.setWaiting x).trace = s.trace := rfl
@[simp] theorem setWaiting_slotAt (s : State) (x : List (Nat × Command)) (a' : UnitIdx) : (s.setWaiting x).slotAt a' = s.slotAt a' := rfl
@[simp] theorem setWaiting_encAt (s : State) (x : List (Nat × Command)) (e' : UnitIdx) : (s.setWaiting x).encAt e' = s.encAt e' := rfl
@[simp] theorem setWaiting_decAt (s : State) (x : List (Nat × Command)) (d' : UnitIdx) : (s.setWaiting x).decAt d' = s.decAt d' := rfl
@[simp] theorem setWaiting_sinkAt (s : State) (x : List (Nat × Command)) (e' : UnitIdx) : (s.setWaiting x).sinkAt e' = s.sinkAt e' := rfl
@[simp] theorem setWaiting_srcAt (s : State) (x : List (Nat × Command)) (d' : UnitIdx) : (s.setWaiting x).srcAt d' = s.srcAt d' := rfl
@[simp] theorem setWaiting_tokens (s : State) (x : List (Nat × Command)) (a' : UnitIdx) : (s.setWaiting x).tokens a' = s.tokens a' := rfl
@[simp] theorem setWaiting_waiting (s : State) (x : List (Nat × Command)) : (s.setWaiting x).waiting = x := rfl

/-! ## Locks and ranges -/

@[simp] theorem setLock_halted (s : State) (b : Bool) (t : Target) : (s.setLock b t).halted = s.halted := by cases t <;> rfl
@[simp] theorem setLock_alpha (s : State) (b : Bool) (t : Target) : (s.setLock b t).alpha = s.alpha := by cases t <;> rfl
@[simp] theorem setLock_params (s : State) (b : Bool) (t : Target) : (s.setLock b t).params = s.params := by cases t <;> rfl
@[simp] theorem setLock_caller (s : State) (b : Bool) (t : Target) : (s.setLock b t).caller = s.caller := by cases t <;> rfl
@[simp] theorem setLock_inputs (s : State) (b : Bool) (t : Target) : (s.setLock b t).inputs = s.inputs := by cases t <;> rfl
@[simp] theorem setLock_waiting (s : State) (b : Bool) (t : Target) : (s.setLock b t).waiting = s.waiting := by cases t <;> rfl
@[simp] theorem setLock_sinkIn (s : State) (b : Bool) (t : Target) : (s.setLock b t).sinkIn = s.sinkIn := by cases t <;> rfl
@[simp] theorem setLock_srcIn (s : State) (b : Bool) (t : Target) : (s.setLock b t).srcIn = s.srcIn := by cases t <;> rfl
@[simp] theorem setLock_trace (s : State) (b : Bool) (t : Target) : (s.setLock b t).trace = s.trace := by cases t <;> rfl
@[simp] theorem setLock_slotAt (s : State) (b : Bool) (t : Target) (a : UnitIdx) : (s.setLock b t).slotAt a = s.slotAt a := by
  cases t <;> rfl
@[simp] theorem setLock_tokens (s : State) (b : Bool) (t : Target) (a : UnitIdx) : (s.setLock b t).tokens a = s.tokens a := by
  cases t <;> rfl
@[simp] theorem setLock_sinkAt (s : State) (b : Bool) (t : Target) (e : UnitIdx) : (s.setLock b t).sinkAt e = s.sinkAt e := by
  cases t <;> rfl
@[simp] theorem setLock_srcAt (s : State) (b : Bool) (t : Target) (d : UnitIdx) : (s.setLock b t).srcAt d = s.srcAt d := by
  cases t <;> rfl
@[simp] theorem setLock_enc_bound (s : State) (b : Bool) (t : Target) (e : UnitIdx) :
    ((s.setLock b t).encAt e).bound = (s.encAt e).bound := by
  cases t <;> simp [State.setLock, setEnc_encAt]
  split <;> simp_all
@[simp] theorem setLock_enc_asel (s : State) (b : Bool) (t : Target) (e : UnitIdx) :
    ((s.setLock b t).encAt e).asel = (s.encAt e).asel := by
  cases t <;> simp [State.setLock, setEnc_encAt]
  split <;> simp_all
@[simp] theorem setLock_enc_hwm (s : State) (b : Bool) (t : Target) (e : UnitIdx) :
    ((s.setLock b t).encAt e).hwm = (s.encAt e).hwm := by
  cases t <;> simp [State.setLock, setEnc_encAt]
  split <;> simp_all
@[simp] theorem setLock_enc_path (s : State) (b : Bool) (t : Target) (e : UnitIdx) :
    ((s.setLock b t).encAt e).path = (s.encAt e).path := by
  cases t <;> simp [State.setLock, setEnc_encAt]
  split <;> simp_all
@[simp] theorem setLock_enc_job (s : State) (b : Bool) (t : Target) (e : UnitIdx) :
    ((s.setLock b t).encAt e).job = (s.encAt e).job := by
  cases t <;> simp [State.setLock, setEnc_encAt]
  split <;> simp_all
@[simp] theorem setLock_dec_bound (s : State) (b : Bool) (t : Target) (d : UnitIdx) :
    ((s.setLock b t).decAt d).bound = (s.decAt d).bound := by
  cases t <;> simp [State.setLock, setDec_decAt]
  split <;> simp_all
@[simp] theorem setLock_dec_asel (s : State) (b : Bool) (t : Target) (d : UnitIdx) :
    ((s.setLock b t).decAt d).asel = (s.decAt d).asel := by
  cases t <;> simp [State.setLock, setDec_decAt]
  split <;> simp_all
@[simp] theorem setLock_dec_phase (s : State) (b : Bool) (t : Target) (d : UnitIdx) :
    ((s.setLock b t).decAt d).phase = (s.decAt d).phase := by
  cases t <;> simp [State.setLock, setDec_decAt]
  split <;> simp_all
@[simp] theorem setLock_dec_leftLen (s : State) (b : Bool) (t : Target) (d : UnitIdx) :
    ((s.setLock b t).decAt d).leftLen = (s.decAt d).leftLen := by
  cases t <;> simp [State.setLock, setDec_decAt]
  split <;> simp_all
@[simp] theorem setLock_dec_left (s : State) (b : Bool) (t : Target) (d : UnitIdx) :
    ((s.setLock b t).decAt d).left = (s.decAt d).left := by
  cases t <;> simp [State.setLock, setDec_decAt]
  split <;> simp_all
@[simp] theorem setLock_dec_bad (s : State) (b : Bool) (t : Target) (d : UnitIdx) :
    ((s.setLock b t).decAt d).bad = (s.decAt d).bad := by
  cases t <;> simp [State.setLock, setDec_decAt]
  split <;> simp_all
@[simp] theorem setLock_dec_path (s : State) (b : Bool) (t : Target) (d : UnitIdx) :
    ((s.setLock b t).decAt d).path = (s.decAt d).path := by
  cases t <;> simp [State.setLock, setDec_decAt]
  split <;> simp_all
@[simp] theorem setLock_dec_job (s : State) (b : Bool) (t : Target) (d : UnitIdx) :
    ((s.setLock b t).decAt d).job = (s.decAt d).job := by
  cases t <;> simp [State.setLock, setDec_decAt]
  split <;> simp_all
@[simp] theorem setLock_dec_leftover (s : State) (b : Bool) (t : Target) (d : UnitIdx) :
    ((s.setLock b t).decAt d).leftover = (s.decAt d).leftover := by
  cases t <;> simp [State.setLock, setDec_decAt, Decoder.leftover]
  split <;> simp_all

@[simp] theorem setLock_alpha_self (s : State) (b : Bool) (a : UnitIdx) : s.setLock b (.alpha a) = s := rfl

theorem setLock_enc (s : State) (b : Bool) (e : UnitIdx) :
    s.setLock b (.enc e) = s.setEnc e { s.encAt e with lock := b } := rfl

theorem setLock_dec (s : State) (b : Bool) (d : UnitIdx) :
    s.setLock b (.dec d) = s.setDec d { s.decAt d with lock := b } := rfl

@[simp] theorem setLock_setLock (s : State) (b c : Bool) (t : Target) : (s.setLock b t).setLock c t = s.setLock c t := by
  cases t <;> simp [State.setLock]

/-- Writing back the value a lock has changes nothing. -/
theorem setLock_same {s : State} {b : Bool} {t : Target} (h : ∀ a, t ≠ .alpha a → s.locked t = b) :
    s.setLock b t = s := by
  cases t with
  | alpha a => rfl
  | enc e =>
    have := h e (by simp)
    rw [setLock_enc, ← this]; exact setEnc_self s e
  | dec d =>
    have := h d (by simp)
    rw [setLock_dec, ← this]; exact setDec_self s d

@[simp] theorem heldBack_alpha (s : State) (a : UnitIdx) : s.heldBack (.alpha a) = s.halted := by
  simp [State.heldBack, State.locked]

end Sys2Proof.Machine
end

