-- ==== Sys2Proof/Laws/Coding.lean ====
section
/-! SUPPORT. The small lemmas of the data encoding: tokens as bytes, chunks of whole tokens, lookup, one group, and what
`Dec` does with a group in front. -/

namespace Sys2Proof.Machine

/-! ## Tokens and chunks -/

@[simp] theorem bytes_length (w : Token) : w.bytes.length = 4 := rfl

theorem bytes_inj {u w : Token} (h : u.bytes = w.bytes) : u = w := by
  cases u; cases w; simpa [Token.bytes] using h

@[simp] theorem ofBytes_bytes_append (w : Token) (l : List Byte) : Token.ofBytes (w.bytes ++ l) = w := rfl

@[simp] theorem ofBytes_bytes (w : Token) : Token.ofBytes w.bytes = w := rfl

/-- A list of at least 4 bytes begins with the bytes of the token it spells. -/
theorem bytes_ofBytes {l : List Byte} (h : 4 ≤ l.length) : (Token.ofBytes l).bytes = l.take 4 := by
  match l, h with
  | a :: b :: c :: d :: l, _ => rfl

@[simp] theorem ofBytes_take_four (l : List Byte) : Token.ofBytes (l.take 4) = Token.ofBytes l := by
  match l with
  | [] => rfl
  | [_] => rfl
  | [_, _] => rfl
  | [_, _, _] => rfl
  | _ :: _ :: _ :: _ :: _ => rfl

theorem chunk_bytes {p : List Byte} {i : Nat} (h : 4 * i + 4 ≤ p.length) :
    (chunk p i).bytes = (p.drop (4 * i)).take 4 :=
  bytes_ofBytes (by simp; omega)

theorem chunk_eq_iff {p : List Byte} {i j : Nat} (hi : 4 * i + 4 ≤ p.length) (hj : 4 * j + 4 ≤ p.length) :
    chunk p i = chunk p j ↔ (p.drop (4 * i)).take 4 = (p.drop (4 * j)).take 4 := by
  rw [← chunk_bytes hi, ← chunk_bytes hj]
  exact ⟨fun h => by rw [h], bytes_inj⟩

/-- The chunks of four tokens in a row are the tokens, whatever follows. -/
theorem chunk_four (w0 w1 w2 w3 : Token) (l : List Byte) :
    let g := w0.bytes ++ w1.bytes ++ w2.bytes ++ w3.bytes ++ l
    chunk g 0 = w0 ∧ chunk g 1 = w1 ∧ chunk g 2 = w2 ∧ chunk g 3 = w3 := by
  exact ⟨rfl, rfl, rfl, rfl⟩

/-- Any 16 bytes are the bytes of four tokens. -/
theorem sixteen_bytes {g : List Byte} (h : g.length = 16) :
    ∃ w0 w1 w2 w3 : Token, g = w0.bytes ++ w1.bytes ++ w2.bytes ++ w3.bytes := by
  match g, h with
  | [a0, a1, a2, a3, b0, b1, b2, b3, c0, c1, c2, c3, d0, d1, d2, d3], _ =>
    exact ⟨⟨a0, a1, a2, a3⟩, ⟨b0, b1, b2, b3⟩, ⟨c0, c1, c2, c3⟩, ⟨d0, d1, d2, d3⟩, rfl⟩

theorem lengthIs_iff {α : Type} (n : Nat) (l : List α) : lengthIs n l = true ↔ l.length = n := by
  induction n generalizing l with
  | zero => cases l <;> simp [lengthIs]
  | succ n ih => cases l <;> simp [lengthIs, ih]

/-! ## Two-bit values -/

/-- Every 2-bit value is 0, 1, 2 or 3. -/
theorem two_bits (v : BitVec 2) : v = 0 ∨ v = 1 ∨ v = 2 ∨ v = 3 := by
  revert v; decide

@[simp] theorem tok_zero (t : Vector Token 4) : tok t 0#2 = t[0] := rfl
@[simp] theorem tok_one (t : Vector Token 4) : tok t 1#2 = t[1] := rfl
@[simp] theorem tok_two (t : Vector Token 4) : tok t 2#2 = t[2] := rfl
@[simp] theorem tok_three (t : Vector Token 4) : tok t 3#2 = t[3] := rfl

/-! ## Lookup -/

/-- What `val` finds is a token's value. -/
theorem tok_of_val {t : Vector Token 4} {w : Token} {v : BitVec 2} (h : val t w = some v) : tok t v = w := by
  unfold val at h
  split at h
  · next q => cases h; exact q
  · split at h
    · next q => cases h; exact q
    · split at h
      · next q => cases h; exact q
      · split at h
        · next q => cases h; exact q
        · cases h

/-- `val` finds nothing exactly if no token matches. -/
theorem val_none_iff (t : Vector Token 4) (w : Token) : val t w = none ↔ ∀ v, tok t v ≠ w := by
  constructor
  · intro h v q
    unfold val at h
    split at h
    · cases h
    next h0 =>
    split at h
    · cases h
    next h1 =>
    split at h
    · cases h
    next h2 =>
    split at h
    · cases h
    next h3 =>
    rcases two_bits v with rfl | rfl | rfl | rfl
    exacts [h0 q, h1 q, h2 q, h3 q]
  · intro h
    have h0 : ¬t[0] = w := h 0
    have h1 : ¬t[1] = w := h 1
    have h2 : ¬t[2] = w := h 2
    have h3 : ¬t[3] = w := h 3
    simp [val, h0, h1, h2, h3]

/-- In a valid alphabet `val` finds the value of a token. -/
theorem val_of_tok {t : Vector Token 4} (hd : Distinct t) {w : Token} {v : BitVec 2} (h : tok t v = w) :
    val t w = some v := by
  cases q : val t w with
  | none => exact absurd h ((val_none_iff t w).1 q v)
  | some u => rw [hd u v ((tok_of_val q).trans h.symm)]

/-- The duplicate test is the negation of distinctness. -/
theorem hasDuplicate_false_iff (t : Vector Token 4) : hasDuplicate t = false ↔ Distinct t := by
  constructor
  · intro h i j q
    simp only [hasDuplicate, Bool.or_eq_false_iff, beq_eq_false_iff_ne, ne_eq] at h
    obtain ⟨⟨⟨⟨⟨h01, h02⟩, h03⟩, h12⟩, h13⟩, h23⟩ := h
    rcases two_bits i with rfl | rfl | rfl | rfl <;> rcases two_bits j with rfl | rfl | rfl | rfl <;>
      first | rfl | exact absurd q (by assumption) | exact absurd q.symm (by assumption)
  · intro h
    have ne : ∀ i j : BitVec 2, i ≠ j → tok t i ≠ tok t j := fun i j k q => k (h i j q)
    simp only [hasDuplicate, Bool.or_eq_false_iff, beq_eq_false_iff_ne, ne_eq]
    exact ⟨⟨⟨⟨⟨ne 0 1 (by decide), ne 0 2 (by decide)⟩, ne 0 3 (by decide)⟩, ne 1 2 (by decide)⟩,
      ne 1 3 (by decide)⟩, ne 2 3 (by decide)⟩

/-! ## One group -/

/-- The group of a byte as four tokens. -/
theorem encByte_tokens (t : Vector Token 4) (b : Byte) :
    encByte t b = (tok t (b.extractLsb' 0 2)).bytes ++ (tok t (b.extractLsb' 2 2)).bytes ++
      (tok t (b.extractLsb' 4 2)).bytes ++ (tok t (b.extractLsb' 6 2)).bytes := by
  have h1 : (b >>> 2).extractLsb' 0 2 = b.extractLsb' 2 2 := by revert b; decide
  have h2 : (b >>> 4).extractLsb' 0 2 = b.extractLsb' 4 2 := by revert b; decide
  have h3 : (b >>> 6).extractLsb' 0 2 = b.extractLsb' 6 2 := by revert b; decide
  simp [encByte, encRounds, h1, h2, h3, List.append_assoc]

@[simp] theorem encByte_length (t : Vector Token 4) (b : Byte) : (encByte t b).length = 16 := by
  rw [encByte_tokens]; rfl

@[simp] theorem encBytes_nil (t : Vector Token 4) : encBytes t [] = [] := rfl

@[simp] theorem encBytes_cons (t : Vector Token 4) (b : Byte) (bs : List Byte) :
    encBytes t (b :: bs) = encByte t b ++ encBytes t bs := rfl

@[simp] theorem encBytes_append (t : Vector Token 4) (bs cs : List Byte) :
    encBytes t (bs ++ cs) = encBytes t bs ++ encBytes t cs := by
  simp [encBytes]

@[simp] theorem encBytes_length (t : Vector Token 4) (bs : List Byte) :
    (encBytes t bs).length = 16 * bs.length := by
  induction bs with
  | nil => rfl
  | cons b bs ih => simp [ih, Nat.mul_add, Nat.add_comm]

/-- A group given as its four tokens. -/
theorem decGroup_tokens (t : Vector Token 4) (w0 w1 w2 w3 : Token) (l : List Byte) :
    decGroup t (w0.bytes ++ w1.bytes ++ w2.bytes ++ w3.bytes ++ l) = decTokens t [w0, w1, w2, w3] 0 := rfl

/-- A group is read from its first 16 bytes. -/
theorem decGroup_append {t : Vector Token 4} {g : List Byte} (h : g.length = 16) (l : List Byte) :
    decGroup t (g ++ l) = decGroup t g := by
  obtain ⟨w0, w1, w2, w3, rfl⟩ := sixteen_bytes h
  rw [decGroup_tokens, ← decGroup_tokens t w0 w1 w2 w3 [], List.append_nil]

/-! ## Sequences of groups -/

@[simp] theorem decBytes_nil (t : Vector Token 4) : decBytes t [] = ([], none) := rfl

/-- `Dec` on fewer than 16 bytes decodes nothing. -/
theorem decBytes_short {t : Vector Token 4} {bs : List Byte} (h : bs.length < 16) : decBytes t bs = ([], none) := by
  unfold decBytes
  rw [Nat.div_eq_of_lt h]; rfl

/-- `Dec` with a whole group in front. -/
theorem decBytes_group (t : Vector Token 4) {g : List Byte} (h : g.length = 16) (l : List Byte) :
    decBytes t (g ++ l) =
      match decGroup t g with
      | .error w => ([], some w)
      | .ok b => (b :: (decBytes t l).1, (decBytes t l).2) := by
  have hl : (g ++ l).length / 16 = l.length / 16 + 1 := by rw [List.length_append, h]; omega
  unfold decBytes
  rw [hl]
  show (match decGroup t ((g ++ l).take 16) with
    | .error w => ([], some w)
    | .ok b => (b :: (decGroups t (l.length / 16) ((g ++ l).drop 16)).1,
        (decGroups t (l.length / 16) ((g ++ l).drop 16)).2)) = _
  rw [← h, List.take_left, List.drop_left]

/-- `Dec` of two sequences of whole groups, the first without a bad token. -/
theorem decBytes_append {t : Vector Token 4} {e : List Byte} (he : e.length % 16 = 0) {out : List Byte}
    (h : decBytes t e = (out, none)) (l : List Byte) :
    decBytes t (e ++ l) = (out ++ (decBytes t l).1, (decBytes t l).2) := by
  induction out generalizing e with
  | nil =>
    have : e = [] := by
      by_contra hne
      have hlen : 16 ≤ e.length := by
        have := List.length_pos_of_ne_nil hne
        omega
      obtain ⟨g, l', rfl, hg⟩ : ∃ g l', e = g ++ l' ∧ g.length = 16 :=
        ⟨e.take 16, e.drop 16, (List.take_append_drop 16 e).symm, by simp; omega⟩
      rw [decBytes_group t hg] at h
      split at h <;> simp at h
    subst this; simp
  | cons b out ih =>
    have hlen : 16 ≤ e.length := by
      by_contra hlt
      rw [decBytes_short (by omega)] at h
      simp at h
    obtain ⟨g, l', rfl, hg⟩ : ∃ g l', e = g ++ l' ∧ g.length = 16 :=
      ⟨e.take 16, e.drop 16, (List.take_append_drop 16 e).symm, by simp; omega⟩
    rw [decBytes_group t hg] at h
    rw [List.append_assoc, decBytes_group t hg]
    split at h
    · simp at h
    · simp only [Prod.mk.injEq, List.cons.injEq] at h
      obtain ⟨⟨rfl, h1⟩, h2⟩ := h
      rw [ih (e := l') (by simp [hg] at he; omega) (Prod.ext h1 h2)]
      rfl

/-- `Dec` decodes one byte for each group before the first bad one. -/
theorem decBytes_length_le (t : Vector Token 4) (bs : List Byte) :
    16 * (decBytes t bs).1.length ≤ bs.length := by
  suffices h : ∀ n bs, 16 * n ≤ bs.length → 16 * (decGroups t n bs).1.length ≤ 16 * n by
    have := h (bs.length / 16) bs (by omega)
    unfold decBytes; omega
  intro n
  induction n with
  | zero => intro bs _; simp [decGroups]
  | succ n ih =>
    intro bs hb
    unfold decGroups
    split
    · simp
    · have := ih (bs.drop 16) (by simp; omega)
      simp; omega

/-- Without a bad token `Dec` decodes one byte for each whole group. -/
theorem decBytes_length {t : Vector Token 4} {bs out : List Byte} (h : decBytes t bs = (out, none)) :
    out.length = bs.length / 16 := by
  suffices hs : ∀ n bs out, decGroups t n bs = (out, none) → out.length = n by
    exact hs _ _ _ h
  intro n
  induction n with
  | zero => intro bs out q; simp [decGroups] at q; simp [← q]
  | succ n ih =>
    intro bs out q
    unfold decGroups at q
    split at q
    · simp at q
    · simp only [Prod.mk.injEq] at q
      rw [← q.1, List.length_cons, ih _ _ (Prod.ext rfl q.2)]

end Sys2Proof.Machine
end

