-- ==== Sys2Proof/Laws/Decode.lean ====
section
/-! SUPPORT. The fields of a command word put together and taken apart, and what a complete command is. -/

namespace Sys2Proof

@[simp] theorem opField_mkWord (op : BitVec 4) (u : UnitIdx) (arg : Arg) : opField (mkWord op u arg) = op := by
  apply BitVec.eq_of_getLsbD_eq
  intro i hi
  simp only [opField, mkWord, BitVec.getLsbD_extractLsb', BitVec.getLsbD_append]
  simp [hi, show ¬ 28 + i < 24 by omega, show ¬ 28 + i - 24 < 4 by omega, show 28 + i - 24 - 4 = i by omega]

@[simp] theorem unitField_mkWord (op : BitVec 4) (u : UnitIdx) (arg : Arg) : unitField (mkWord op u arg) = u := by
  apply BitVec.eq_of_getLsbD_eq
  intro i hi
  simp only [unitField, mkWord, BitVec.getLsbD_extractLsb', BitVec.getLsbD_append]
  simp [hi]

@[simp] theorem argField_mkWord (op : BitVec 4) (u : UnitIdx) (arg : Arg) : argField (mkWord op u arg) = arg := by
  apply BitVec.eq_of_getLsbD_eq
  intro i hi
  simp only [argField, mkWord, BitVec.getLsbD_extractLsb', BitVec.getLsbD_append]
  simp [hi]

/-- A command word is its three fields. -/
theorem mkWord_fields (cw : Word32) : mkWord (opField cw) (unitField cw) (argField cw) = cw := by
  apply BitVec.eq_of_getLsbD_eq
  intro i hi
  simp only [mkWord, opField, unitField, argField, BitVec.getLsbD_append, BitVec.getLsbD_extractLsb']
  split
  · simp_all
  · split
    · have : 24 + (i - 24) = i := by omega
      simp_all
    · have h1 : 28 + (i - 24 - 4) = i := by omega
      have h2 : i - 24 - 4 < 4 := by omega
      simp [h1, h2]

/-- The length of a payload that fits is the value of its `ARG` field. -/
theorem lengthArg_toNat {p : List Byte} (h : PayloadFits p) : (lengthArg p).toNat = p.length := by
  have : p.length ≤ 16777215 := h
  simp [lengthArg]; omega

/-- Whatever the decoder accepts is well formed: a payload is as long as `ARG` says, so its length fits (R105, R107). -/
theorem decode_wellFormed {c : Command} {i : Instr} (h : decode c = .ok i) : i.WellFormed := by
  unfold decode at h
  split at h
  case isFalse => cases h
  case isTrue hc =>
  simp only [Command.complete, Bool.and_eq_true, beq_iff_eq] at hc
  have hp : PayloadFits c.payload := by
    have harg := (argField c.cw).isLt
    have : payloadLength c.cw ≤ (argField c.cw).toNat := by unfold payloadLength; split <;> omega
    show c.payload.length ≤ 16777215
    omega
  unfold decodeFields at h
  split at h
  case h_3 | h_4 | h_5 | h_7 => split at h <;> cases h; trivial
  all_goals cases h
  all_goals first | exact hp | trivial

/-- The opcode of an instruction (R106). -/
def opcode : Instr → BitVec 4
  | .alphaLoad _ _ => 0x1
  | .alphaMust _ _ => 0x2
  | .alphaEncv _ _ => 0x3
  | .alphaDect _ _ => 0x4
  | .encOpen _ _ => 0x5
  | .encWrite _ _ => 0x6
  | .decOpen _ _ => 0x7
  | .decRead _ _ => 0x8
  | .decInto _ _ => 0x9
  | .osEncode _ _ _ => 0xA
  | .osDecode _ _ _ => 0xB

end Sys2Proof
end

