-- ==== Sys2Proof/Laws/PerInstr.lean ====
section
/-! SUPPORT. The family `Spelling`, one lemma per constructor of `Instr`: the word of an instruction carries its opcode,
and a well-formed instruction is spelled by a complete command (R105, R106, R108). -/

namespace Sys2Proof.Laws.Spelling

/-- The word carries the opcode, and the triple is a command. -/
def Statement (i : Instr) : Prop :=
  opField (encode i).cw = opcode i ∧ (i.WellFormed → (encode i).complete = true)

theorem alphaLoad (slot : UnitIdx) (p : List Byte) : Statement (.alphaLoad slot p) :=
  ⟨by simp [encode, opcode], fun h => by
    simp [encode, Command.complete, isLong, payloadLength, lengthArg_toNat h]⟩

theorem alphaMust (slot : UnitIdx) (p : List Byte) : Statement (.alphaMust slot p) :=
  ⟨by simp [encode, opcode], fun h => by
    simp [encode, Command.complete, isLong, payloadLength, lengthArg_toNat h]⟩

theorem alphaEncv (slot : UnitIdx) (v : BitVec 2) : Statement (.alphaEncv slot v) :=
  ⟨by simp [encode, opcode], fun _ => by simp [encode, Command.complete, isLong, payloadLength]⟩

theorem alphaDect (slot : UnitIdx) (w : Token) : Statement (.alphaDect slot w) :=
  ⟨by simp [encode, opcode], fun _ => by simp [encode, Command.complete, isLong, payloadLength]⟩

theorem encOpen (e slot : UnitIdx) : Statement (.encOpen e slot) :=
  ⟨by simp [encode, opcode], fun _ => by simp [encode, Command.complete, isLong, payloadLength]⟩

theorem encWrite (e : UnitIdx) (p : List Byte) : Statement (.encWrite e p) :=
  ⟨by simp [encode, opcode], fun h => by
    simp [encode, Command.complete, isLong, payloadLength, lengthArg_toNat h]⟩

theorem decOpen (d slot : UnitIdx) : Statement (.decOpen d slot) :=
  ⟨by simp [encode, opcode], fun _ => by simp [encode, Command.complete, isLong, payloadLength]⟩

theorem decRead (d : UnitIdx) (cap : Arg) : Statement (.decRead d cap) :=
  ⟨by simp [encode, opcode], fun _ => by simp [encode, Command.complete, isLong, payloadLength]⟩

theorem decInto (d : UnitIdx) (size : Arg) : Statement (.decInto d size) :=
  ⟨by simp [encode, opcode], fun _ => by simp [encode, Command.complete, isLong, payloadLength]⟩

theorem osEncode (slot : UnitIdx) (p : List Byte) (dcap : Word32) : Statement (.osEncode slot p dcap) :=
  ⟨by simp [encode, opcode], fun h => by
    simp [encode, Command.complete, isLong, payloadLength, lengthArg_toNat h]⟩

theorem osDecode (slot : UnitIdx) (p : List Byte) (dcap : Word32) : Statement (.osDecode slot p dcap) :=
  ⟨by simp [encode, opcode], fun h => by
    simp [encode, Command.complete, isLong, payloadLength, lengthArg_toNat h]⟩

end Sys2Proof.Laws.Spelling
end

