-- ==== Sys2Proof/Laws/Ops.lean ====
section
/-! SUPPORT. One lemma for each shared operation that says all it can do: the prologue, ending a command, filling the
encoder's scratch, and the leftover registers. -/

namespace Sys2Proof.Machine

/-! ## The prologue and the end of a command -/

/-- Everything the prologue can do: the command waits, it runs with its lock taken, or it is refused. -/
theorem prologue_cases (i : Instr) (s : State) (body : State → Answer) :
    (s.heldBack (targetOf i) = true ∧ prologue i s body = .next (s.hold (encode i))) ∨
    (s.heldBack (targetOf i) = false ∧ s.inRange (targetOf i) = true ∧
      prologue i s body = body (s.setLock true (targetOf i))) ∨
    (s.heldBack (targetOf i) = false ∧ s.inRange (targetOf i) = false ∧
      prologue i s body = .next (s.emit (.result s.caller (some i) refusedResult))) := by
  unfold prologue
  cases h : s.heldBack (targetOf i) <;> cases h' : s.inRange (targetOf i) <;> simp

theorem prologue_held {i : Instr} {s : State} (h : s.heldBack (targetOf i) = true) (body : State → Answer) :
    prologue i s body = .next (s.hold (encode i)) := by
  simp [prologue, h]

theorem prologue_slot {i : Instr} {s : State} {a : UnitIdx} (ht : targetOf i = .alpha a) (h : SlotReady s a)
    (body : State → Answer) : prologue i s body = body s := by
  simp [prologue, ht, h.running, State.inRange, h.inRange]

theorem prologue_enc {i : Instr} {s : State} {e : UnitIdx} (ht : targetOf i = .enc e) (h : EncReady s e)
    (body : State → Answer) : prologue i s body = body (s.setLock true (.enc e)) := by
  simp [prologue, ht, State.heldBack, State.locked, h.running, h.free, State.inRange, h.inRange]

theorem prologue_dec {i : Instr} {s : State} {d : UnitIdx} (ht : targetOf i = .dec d) (h : DecReady s d)
    (body : State → Answer) : prologue i s body = body (s.setLock true (.dec d)) := by
  simp [prologue, ht, State.heldBack, State.locked, h.running, h.free, State.inRange, h.inRange]

theorem finish_slot {i : Instr} {a : UnitIdx} (ht : targetOf i = .alpha a) (s : State) (st : Status) (n : Nat)
    (info : Word32) (data : List Byte) :
    finish i s st n info data = .next (s.emit (.result s.caller (some i) (mkResult st n info data))) := by
  simp [finish, ht]

/-- A command on an encoder that writes no register of it leaves the instance as it found it. -/
theorem finish_enc {i : Instr} {s : State} {e : UnitIdx} (ht : targetOf i = .enc e) (h : EncReady s e)
    (st : Status) (n : Nat) (info : Word32) (data : List Byte) :
    finish i (s.setLock true (.enc e)) st n info data =
      .next (s.emit (.result s.caller (some i) (mkResult st n info data))) := by
  have : s.setLock false (.enc e) = s := setLock_same fun _ _ => h.free
  simp [finish, ht, this]

/-- A command on a decoder that writes no register of it leaves the instance as it found it. -/
theorem finish_dec {i : Instr} {s : State} {d : UnitIdx} (ht : targetOf i = .dec d) (h : DecReady s d)
    (st : Status) (n : Nat) (info : Word32) (data : List Byte) :
    finish i (s.setLock true (.dec d)) st n info data =
      .next (s.emit (.result s.caller (some i) (mkResult st n info data))) := by
  have : s.setLock false (.dec d) = s := setLock_same fun _ _ => h.free
  simp [finish, ht, this]

/-- Every command starts with the prologue (R130). -/
theorem exec_prologue (i : Instr) (s : State) : ∃ body, exec i s = prologue i s body := by
  cases i <;>
    simp only [exec, execAlphaLoad, execAlphaMust, execAlphaEncv, execAlphaDect, execEncOpen, execEncWrite,
      execDecOpen, execDecRead, execDecInto, execOsEncode, execOsDecode] <;>
    exact ⟨_, rfl⟩

/-! ## The encoder's scratch -/

/-- The encode loop appends the encoding of the payload to the scratch (R153). -/
theorem encodePayload_escr (t : Vector Token 4) (path : EncPath) (p : List Byte) :
    (encodePayload t path p).escr = path.escr ++ encBytes t p := by
  induction p generalizing path with
  | nil => simp [encodePayload]
  | cons b bs ih => simp [encodePayload, ih, encByte]

/-- `EHWM` is raised to the maximum (R158). -/
theorem raiseHwm_toNat (hwm : BitVec 28) {n : Nat} (h : n ≤ Config.lenMax) :
    (raiseHwm hwm n).toNat = max hwm.toNat (16 * n) := by
  have : n ≤ 16777215 := h
  unfold raiseHwm
  split
  · simp; omega
  · omega

/-! ## The leftover registers -/

/-- What is written to the leftover registers is what they hold (R178). -/
theorem leftover_setLeftover (D : Decoder) {tail : List Byte} (h : tail.length ≤ 15) :
    (D.setLeftover tail).leftover = tail := by
  apply List.ext_getElem
  · simp [Decoder.leftover, Decoder.setLeftover]; omega
  · intro i h1 h2
    simp [Decoder.leftover, Decoder.setLeftover, List.getElem_take, h2]

theorem leftLen_setLeftover (D : Decoder) {tail : List Byte} (h : tail.length ≤ 15) :
    (D.setLeftover tail).leftLen.toNat = tail.length := by
  simp [Decoder.setLeftover]; omega

theorem leftover_length (D : Decoder) : D.leftover.length = D.leftLen.toNat := by
  have := D.leftLen.isLt
  simp [Decoder.leftover]; omega

@[simp] theorem setLeftover_bound (D : Decoder) (l : List Byte) : (D.setLeftover l).bound = D.bound := rfl
@[simp] theorem setLeftover_asel (D : Decoder) (l : List Byte) : (D.setLeftover l).asel = D.asel := rfl
@[simp] theorem setLeftover_lock (D : Decoder) (l : List Byte) : (D.setLeftover l).lock = D.lock := rfl
@[simp] theorem setLeftover_bad (D : Decoder) (l : List Byte) : (D.setLeftover l).bad = D.bad := rfl
@[simp] theorem setLeftover_job (D : Decoder) (l : List Byte) : (D.setLeftover l).job = D.job := rfl

end Sys2Proof.Machine
end

