-- ==== Sys2Proof/Laws/Steps.lean ====
section
/-! SUPPORT. What a meaning and a step can do, said once: `exec_effect` lists every outcome of every command, and
`serveEncoder_effect` and `serveDecoder_effect` every outcome of an instance that goes on with its command. Later proofs
take cases on these and unfold no meaning. -/

namespace Sys2Proof.Machine

/-! ## Commands -/

/-- A result that leaves every register as it was carries no decoded bytes of a stream, answers no write and opens
nothing. -/
def QuietResult (i : Instr) (r : Result) : Prop :=
  (∀ d c, i = .decRead d c ∨ i = .decInto d c → r.data = [] ∧ r.count = 0) ∧
  (∀ e p, i = .encWrite e p → r.status = .refused) ∧
  (∀ e a, i = .encOpen e a ∨ i = .decOpen e a → r.status = .refused)

/-- Everything a command can do from state `s`. -/
inductive Effect (s : State) : Instr → Answer → Prop where
  /-- It is held back and waits. -/
  | held (i : Instr) (h : s.heldBack (targetOf i) = true) : Effect s i (.next (s.hold (encode i)))
  /-- It ends with a result and changes no register. -/
  | quiet (i : Instr) (r : Result) (h : QuietResult i r) (hr : s.heldBack (targetOf i) = false) :
      Effect s i (.next (s.emit (.result s.caller (some i) r)))
  /-- `ALPHA.LOAD` loads an empty slot. -/
  | load (a : UnitIdx) (p : List Byte) (hr : s.halted = false) (he : (s.slotAt a).valid = false)
      (hv : validate p = .ok) :
      Effect s (.alphaLoad a p)
        (.next ((loadSlot a p s).emit (.result s.caller (some (.alphaLoad a p)) ⟨.ok, 0, 0, []⟩)))
  /-- `ALPHA.MUST` loads an empty slot. -/
  | must (a : UnitIdx) (p : List Byte) (hr : s.halted = false) (he : (s.slotAt a).valid = false)
      (hv : validate p = .ok) :
      Effect s (.alphaMust a p)
        (.next ((loadSlot a p s).emit (.result s.caller (some (.alphaMust a p)) ⟨.ok, 0, 0, []⟩)))
  /-- `ALPHA.MUST` halts the engine. -/
  | halt (a : UnitIdx) (p : List Byte) (he : (s.slotAt a).valid = false) (hv : validate p ≠ .ok) :
      Effect s (.alphaMust a p) (.next (s.setHalted true))
  /-- `ENC.OPEN` binds. -/
  | encOpen (e a : UnitIdx) (hr : EncReady s e) (ha : a.toNat < s.params.nAlpha) (hv : (s.slotAt a).valid = true) :
      Effect s (.encOpen e a)
        (.next ((s.setEnc e { s.encAt e with bound := true, asel := a, hwm := 0 }).emit
          (.result s.caller (some (.encOpen e a)) ⟨.ok, 0, 0, []⟩)))
  /-- `DEC.OPEN` binds. -/
  | decOpen (d a : UnitIdx) (hr : DecReady s d) (ha : a.toNat < s.params.nAlpha) (hv : (s.slotAt a).valid = true) :
      Effect s (.decOpen d a)
        (.next ((s.setDec d { s.decAt d with bound := true, asel := a, leftLen := 0, phase := .idle }).emit
          (.result s.caller (some (.decOpen d a)) ⟨.ok, 0, 0, []⟩)))
  /-- `ENC.WRITE` of no bytes. -/
  | writeNone (e : UnitIdx) (hr : EncReady s e) (hb : (s.encAt e).bound = true) :
      Effect s (.encWrite e [])
        (.next (endWrite e ⟨s.caller, []⟩ .ok 0 0 (startWrite e [] (s.setLock true (.enc e)))))
  /-- `ENC.WRITE` goes to its sink. -/
  | write (e : UnitIdx) (p : List Byte) (hr : EncReady s e) (hb : (s.encAt e).bound = true) (hp : p ≠ [])
      (x : Answer) (hx : serveEncoder e (startWrite e p (s.setLock true (.enc e))) = x) : Effect s (.encWrite e p) x
  /-- `DEC.READ` goes to its source. -/
  | read (d : UnitIdx) (c : Arg) (hr : DecReady s d) (hb : (s.decAt d).bound = true)
      (hp : (s.decAt d).phase ≠ .fault) (hc : c ≠ 0)
      (x : Answer) (hx : serveDecoder d (startJob d false c (s.setLock true (.dec d))) = x) : Effect s (.decRead d c) x
  /-- `DEC.INTO` makes its first inner read. -/
  | into (d : UnitIdx) (c : Arg) (hr : DecReady s d) (hb : (s.decAt d).bound = true)
      (hp : (s.decAt d).phase ≠ .fault) (hc : c ≠ 0)
      (x : Answer) (hx : serveDecoder d (startJob d true c (s.setLock true (.dec d))) = x) : Effect s (.decInto d c) x

/-- A command that ends without touching its registers leaves its lock as it found it. -/
theorem finish_quiet {i : Instr} {s : State} (h : s.heldBack (targetOf i) = false)
    (hr : s.inRange (targetOf i) = true) (st : Status) (n : Nat) (info : Word32) (data : List Byte) :
    finish i (s.setLock true (targetOf i)) st n info data =
      .next (s.emit (.result s.caller (some i) (mkResult st n info data))) := by
  have hl : s.locked (targetOf i) = false := by
    simp only [State.heldBack, hr, Bool.true_and, Bool.or_eq_false_iff] at h
    exact h.2
  have : s.setLock false (targetOf i) = s := setLock_same fun _ _ => hl
  simp [finish, this]

theorem quietResult_refused (i : Instr) : QuietResult i (mkResult .refused 0 0 []) :=
  ⟨fun _ _ _ => ⟨rfl, rfl⟩, fun _ _ _ => rfl, fun _ _ _ => rfl⟩

/-- Every command does one of the things that `Effect` lists. -/
theorem exec_effect (i : Instr) (s : State) : Effect s i (exec i s) := by
  have pro : ∀ body : State → Answer,
      (s.heldBack (targetOf i) = false → s.inRange (targetOf i) = true →
        Effect s i (body (s.setLock true (targetOf i)))) → Effect s i (prologue i s body) := by
    intro body hb
    rcases prologue_cases i s body with ⟨h, q⟩ | ⟨h, hr, q⟩ | ⟨h, hr, q⟩ <;> rw [q]
    · exact .held i h
    · exact hb h hr
    · exact .quiet i _ (quietResult_refused i) h
  have quiet : ∀ (st : Status) (n : Nat) (info : Word32) (data : List Byte),
      QuietResult i (mkResult st n info data) →
      s.heldBack (targetOf i) = false → s.inRange (targetOf i) = true →
      Effect s i (finish i (s.setLock true (targetOf i)) st n info data) := by
    intro st n info data q h hr
    rw [finish_quiet h hr]; exact .quiet i _ q h
  have refused : s.heldBack (targetOf i) = false → s.inRange (targetOf i) = true →
      Effect s i (refuse i (s.setLock true (targetOf i))) :=
    quiet _ _ _ _ (quietResult_refused i)
  have encReady : ∀ e, targetOf i = .enc e → s.heldBack (targetOf i) = false →
      s.inRange (targetOf i) = true → EncReady s e := by
    intro e ht h hr
    rw [ht] at h hr
    simp only [State.heldBack, hr, Bool.true_and, Bool.or_eq_false_iff, State.locked] at h
    exact ⟨h.1, by simpa [State.inRange] using hr, h.2⟩
  have decReady : ∀ d, targetOf i = .dec d → s.heldBack (targetOf i) = false →
      s.inRange (targetOf i) = true → DecReady s d := by
    intro d ht h hr
    rw [ht] at h hr
    simp only [State.heldBack, hr, Bool.true_and, Bool.or_eq_false_iff, State.locked] at h
    exact ⟨h.1, by simpa [State.inRange] using hr, h.2⟩
  cases i with
  | alphaLoad a p =>
    simp only [exec, execAlphaLoad]
    refine pro _ fun h hr => ?_
    simp only [setLock_slotAt]
    split
    · exact refused h hr
    · next he =>
      split
      · exact quiet _ _ _ _ ⟨by simp, by simp, by simp⟩ h hr
      · exact quiet _ _ _ _ ⟨by simp, by simp, by simp⟩ h hr
      · next hv => exact .load a p (by simpa [targetOf] using h) (by simpa using he) hv
  | alphaMust a p =>
    simp only [exec, execAlphaMust]
    refine pro _ fun h hr => ?_
    simp only [setLock_slotAt]
    split
    · exact refused h hr
    · next he =>
      split
      · next hv => exact .halt a p (by simpa using he) (by simp [hv])
      · next hv => exact .halt a p (by simpa using he) (by simp [hv])
      · next hv => exact .must a p (by simpa [targetOf] using h) (by simpa using he) hv
  | alphaEncv a v =>
    simp only [exec, execAlphaEncv]
    refine pro _ fun h hr => ?_
    split
    · exact quiet _ _ _ _ ⟨by simp, by simp, by simp⟩ h hr
    · exact refused h hr
  | alphaDect a w =>
    simp only [exec, execAlphaDect]
    refine pro _ fun h hr => ?_
    split
    · split <;> exact quiet _ _ _ _ ⟨by simp, by simp, by simp⟩ h hr
    · exact refused h hr
  | encOpen e a =>
    simp only [exec, execEncOpen]
    refine pro _ fun h hr => ?_
    split
    · next hv =>
      simp only [State.slotInRange, setLock_params, setLock_slotAt, Bool.and_eq_true, decide_eq_true_eq] at hv
      have hl := encReady e rfl h hr
      have : finish (.encOpen e a) ((s.setLock true (.enc e)).setEnc e
          { (s.setLock true (.enc e)).encAt e with bound := true, asel := a, hwm := 0 }) .ok 0 0 [] =
          .next ((s.setEnc e { s.encAt e with bound := true, asel := a, hwm := 0 }).emit
            (.result s.caller (some (.encOpen e a)) ⟨.ok, 0, 0, []⟩)) := by
        simp [finish, targetOf, setLock_enc, mkResult, hl.free]
      simp only [targetOf]
      rw [this]
      exact .encOpen e a hl hv.1 hv.2
    · exact refused h hr
  | encWrite e p =>
    simp only [exec, execEncWrite]
    refine pro _ fun h hr => ?_
    simp only [targetOf, setLock_enc_bound]
    split
    · next hb =>
      split
      · next hp =>
        have : p = [] := by simpa using hp
        subst this
        rw [setLock_caller]
        exact .writeNone e (encReady e rfl h hr) hb
      · next hp => exact .write e p (encReady e rfl h hr) hb (by simpa using hp) _ rfl
    · exact refused h hr
  | decOpen d a =>
    simp only [exec, execDecOpen]
    refine pro _ fun h hr => ?_
    split
    · next hv =>
      simp only [State.slotInRange, setLock_params, setLock_slotAt, Bool.and_eq_true, decide_eq_true_eq] at hv
      have hl := decReady d rfl h hr
      have : finish (.decOpen d a) ((s.setLock true (.dec d)).setDec d
          { (s.setLock true (.dec d)).decAt d with bound := true, asel := a, leftLen := 0, phase := .idle }) .ok 0 0 [] =
          .next ((s.setDec d { s.decAt d with bound := true, asel := a, leftLen := 0, phase := .idle }).emit
            (.result s.caller (some (.decOpen d a)) ⟨.ok, 0, 0, []⟩)) := by
        simp [finish, targetOf, setLock_dec, mkResult, hl.free]
      simp only [targetOf]
      rw [this]
      exact .decOpen d a hl hv.1 hv.2
    · exact refused h hr
  | decRead d c =>
    simp only [exec, execDecRead]
    refine pro _ fun h hr => ?_
    simp only [targetOf, setLock_dec_bound, setLock_dec_phase, setLock_dec_bad]
    split
    · next hb =>
      split
      · exact quiet _ _ _ _ ⟨fun _ _ _ => ⟨rfl, rfl⟩, by simp, by simp⟩ h hr
      · next hp =>
        split
        · exact quiet _ _ _ _ ⟨fun _ _ _ => ⟨rfl, rfl⟩, by simp, by simp⟩ h hr
        · next hc => exact .read d c (decReady d rfl h hr) hb hp hc _ rfl
    · exact refused h hr
  | decInto d c =>
    simp only [exec, execDecInto]
    refine pro _ fun h hr => ?_
    simp only [targetOf, setLock_dec_bound, setLock_dec_phase, setLock_dec_bad]
    split
    · next hb =>
      split
      · exact quiet _ _ _ _ ⟨fun _ _ _ => ⟨rfl, rfl⟩, by simp, by simp⟩ h hr
      · next hc =>
        split
        · exact quiet _ _ _ _ ⟨fun _ _ _ => ⟨rfl, rfl⟩, by simp, by simp⟩ h hr
        · next hp => exact .into d c (decReady d rfl h hr) hb hp hc _ rfl
    · exact refused h hr
  | osEncode a p cap =>
    simp only [exec, execOsEncode]
    refine pro _ fun h hr => ?_
    split
    · split <;> exact quiet _ _ _ _ ⟨by simp, by simp, by simp⟩ h hr
    · exact refused h hr
  | osDecode a p cap =>
    simp only [exec, execOsDecode]
    refine pro _ fun h hr => ?_
    split
    · split
      · exact quiet _ _ _ _ ⟨by simp, by simp, by simp⟩ h hr
      · split
        · exact quiet _ _ _ _ ⟨by simp, by simp, by simp⟩ h hr
        · split <;> exact quiet _ _ _ _ ⟨by simp, by simp, by simp⟩ h hr
    · exact refused h hr

/-! ## An instance that goes on -/

/-- Everything `serveEncoder` can do. -/
theorem serveEncoder_effect (e : UnitIdx) (s : State) :
    serveEncoder e s = .next s ∨ serveEncoder e s = .refused .sinkBrokeDuty ∨
    ∃ j a rest, (s.encAt e).job = some j ∧ s.sinkAt e = a :: rest ∧
      sinkDuty (s.encAt e).path.escr.length a = true ∧
      serveEncoder e s =
        .next (sinkAnswered e j a ((s.setSink e rest).emit (.sinkWrite e (s.encAt e).path.escr a))) := by
  unfold serveEncoder
  split
  · exact .inl rfl
  · next j hj =>
    split
    · exact .inl rfl
    · next a rest hs =>
      split
      · next hd => exact .inr (.inr ⟨j, a, rest, hj, hs, hd, rfl⟩)
      · exact .inr (.inl rfl)

/-- Everything `serveDecoder` can do. -/
theorem serveDecoder_effect (d : UnitIdx) (s : State) :
    ((s.decAt d).job = none ∧ serveDecoder d s = .next s) ∨
    (∃ j, (s.decAt d).job = some j ∧ s.srcAt d = [] ∧ serveDecoder d s = .next (beginFill d s)) ∨
    serveDecoder d s = .refused .sourceBrokeDuty ∨
    ∃ j a rest, (s.decAt d).job = some j ∧ s.srcAt d = a :: rest ∧
      a.bytes.length ≤ request j.capacity (s.decAt d).leftLen.toNat ∧
      serveDecoder d s = .next (sourceAnswered d j a (((beginFill d s).setSrc d rest).emit
        (.srcRead d (request j.capacity (s.decAt d).leftLen.toNat) a))) := by
  unfold serveDecoder
  split
  · next hj => exact .inl ⟨hj, rfl⟩
  · next j hj =>
    split
    · next hs => exact .inr (.inl ⟨j, hj, hs, rfl⟩)
    · next a rest hs =>
      dsimp only
      split
      · next hl => exact .inr (.inr (.inr ⟨j, a, rest, hj, hs, hl, rfl⟩))
      · exact .inr (.inr (.inl rfl))

/-- The step that serves an encoder of a running engine. -/
theorem step_serveEnc {s : State} {e : UnitIdx} {tl : List Input} (hi : s.inputs = .serveEnc e :: tl)
    (hr : s.halted = false) : step s = serveEncoder e (s.setInputs tl) := by
  simp [step, hi, takeInput, unlessHalted, hr]

/-- The step that serves a decoder of a running engine. -/
theorem step_serveDec {s : State} {d : UnitIdx} {tl : List Input} (hi : s.inputs = .serveDec d :: tl)
    (hr : s.halted = false) : step s = serveDecoder d (s.setInputs tl) := by
  simp [step, hi, takeInput, unlessHalted, hr]

/-! ## Starting a command that uses a port -/

theorem exec_write {s : State} {e : UnitIdx} {p : List Byte} (hr : EncReady s e) (hb : (s.encAt e).bound = true)
    (hp : p ≠ []) :
    exec (.encWrite e p) s = serveEncoder e (startWrite e p (s.setLock true (.enc e))) := by
  simp [exec, execEncWrite, prologue_enc (i := .encWrite e p) rfl hr, hb, hp]

theorem exec_read {s : State} {d : UnitIdx} {c : Arg} (hr : DecReady s d) (hb : (s.decAt d).bound = true)
    (hp : (s.decAt d).phase ≠ .fault) (hc : c ≠ 0) :
    exec (.decRead d c) s = serveDecoder d (startJob d false c (s.setLock true (.dec d))) := by
  have hc : ¬c = 0#24 := hc
  simp [exec, execDecRead, prologue_dec (i := .decRead d c) rfl hr, hb, hp, hc]

theorem exec_into {s : State} {d : UnitIdx} {c : Arg} (hr : DecReady s d) (hb : (s.decAt d).bound = true)
    (hp : (s.decAt d).phase ≠ .fault) (hc : c ≠ 0) :
    exec (.decInto d c) s = serveDecoder d (startJob d true c (s.setLock true (.dec d))) := by
  have hc : ¬c = 0#24 := hc
  simp [exec, execDecInto, prologue_dec (i := .decInto d c) rfl hr, hb, hp, hc]

/-- The encoder that a write has started. -/
theorem startWrite_state (s : State) (e : UnitIdx) (p : List Byte) :
    startWrite e p (s.setLock true (.enc e)) =
      s.setEnc e
        { s.encAt e with
          lock := true
          path := encodePayload (s.tokens (s.encAt e).asel) ⟨(s.encAt e).path.ecur, []⟩ p
          hwm := raiseHwm (s.encAt e).hwm p.length
          job := some ⟨s.caller, p⟩ } := by
  simp [startWrite, setLock_enc]

/-- The decoder that a read has started. -/
theorem startJob_state (s : State) (d : UnitIdx) (into : Bool) (c : Arg) :
    startJob d into c (s.setLock true (.dec d)) =
      s.setDec d { s.decAt d with lock := true, job := some ⟨s.caller, into, c, []⟩ } := by
  simp [startJob, setLock_dec]

/-! ## Frames -/

@[simp] theorem leftover_lock_job (D : Decoder) (lock : Bool) (job : Option DecJob) :
    ({ D with lock := lock, job := job } : Decoder).leftover = D.leftover := rfl

theorem OnlyEncoder.trans {e : UnitIdx} {s t u : State} (h : OnlyEncoder e s t) (k : OnlyEncoder e t u) :
    OnlyEncoder e s u :=
  ⟨k.halted.trans h.halted, k.alpha.trans h.alpha, fun e' q => (k.enc e' q).trans (h.enc e' q), k.dec.trans h.dec,
    k.params.trans h.params, k.caller.trans h.caller, k.inputs.trans h.inputs,
    fun e' q => (k.sink e' q).trans (h.sink e' q), k.src.trans h.src⟩

theorem OnlyDecoder.trans {d : UnitIdx} {s t u : State} (h : OnlyDecoder d s t) (k : OnlyDecoder d t u) :
    OnlyDecoder d s u :=
  ⟨k.halted.trans h.halted, k.alpha.trans h.alpha, k.enc.trans h.enc, fun d' q => (k.dec d' q).trans (h.dec d' q),
    k.params.trans h.params, k.caller.trans h.caller, k.inputs.trans h.inputs, k.sink.trans h.sink,
    fun d' q => (k.src d' q).trans (h.src d' q)⟩

theorem OnlyEncoder.decAt {e : UnitIdx} {s t : State} (h : OnlyEncoder e s t) (d : UnitIdx) :
    t.decAt d = s.decAt d := by
  simp [State.decAt, h.dec]

theorem OnlyEncoder.slotAt {e : UnitIdx} {s t : State} (h : OnlyEncoder e s t) (a : UnitIdx) :
    t.slotAt a = s.slotAt a := by
  simp [State.slotAt, h.alpha]

theorem OnlyEncoder.tokens {e : UnitIdx} {s t : State} (h : OnlyEncoder e s t) (a : UnitIdx) :
    t.tokens a = s.tokens a := by
  simp [State.tokens, h.slotAt a]

theorem OnlyDecoder.encAt {d : UnitIdx} {s t : State} (h : OnlyDecoder d s t) (e : UnitIdx) :
    t.encAt e = s.encAt e := by
  simp [State.encAt, h.enc]

theorem OnlyDecoder.slotAt {d : UnitIdx} {s t : State} (h : OnlyDecoder d s t) (a : UnitIdx) :
    t.slotAt a = s.slotAt a := by
  simp [State.slotAt, h.alpha]

theorem OnlyDecoder.tokens {d : UnitIdx} {s t : State} (h : OnlyDecoder d s t) (a : UnitIdx) :
    t.tokens a = s.tokens a := by
  simp [State.tokens, h.slotAt a]

theorem onlyEncoder_setEnc (s : State) (e : UnitIdx) (x : Encoder) : OnlyEncoder e s (s.setEnc e x) :=
  ⟨rfl, rfl, fun e' q => setEnc_encAt_ne s e x e' q, rfl, rfl, rfl, rfl, fun _ _ => rfl, rfl⟩

theorem onlyEncoder_setSink (s : State) (e : UnitIdx) (x : List SinkAnswer) : OnlyEncoder e s (s.setSink e x) :=
  ⟨rfl, rfl, fun _ _ => rfl, rfl, rfl, rfl, rfl, fun e' q => setSink_sinkAt_ne s e x e' q, rfl⟩

theorem onlyEncoder_emit (s : State) (e : UnitIdx) (o : Output) : OnlyEncoder e s (s.emit o) :=
  ⟨rfl, rfl, fun _ _ => rfl, rfl, rfl, rfl, rfl, fun _ _ => rfl, rfl⟩

theorem onlyEncoder_hold (s : State) (e : UnitIdx) (c : Command) : OnlyEncoder e s (s.hold c) :=
  ⟨rfl, rfl, fun _ _ => rfl, rfl, rfl, rfl, rfl, fun _ _ => rfl, rfl⟩

theorem onlyDecoder_setDec (s : State) (d : UnitIdx) (x : Decoder) : OnlyDecoder d s (s.setDec d x) :=
  ⟨rfl, rfl, rfl, fun d' q => setDec_decAt_ne s d x d' q, rfl, rfl, rfl, rfl, fun _ _ => rfl⟩

theorem onlyDecoder_setSrc (s : State) (d : UnitIdx) (x : List SrcAnswer) : OnlyDecoder d s (s.setSrc d x) :=
  ⟨rfl, rfl, rfl, fun _ _ => rfl, rfl, rfl, rfl, rfl, fun d' q => setSrc_srcAt_ne s d x d' q⟩

theorem onlyDecoder_emit (s : State) (d : UnitIdx) (o : Output) : OnlyDecoder d s (s.emit o) :=
  ⟨rfl, rfl, rfl, fun _ _ => rfl, rfl, rfl, rfl, rfl, fun _ _ => rfl⟩

theorem onlyDecoder_hold (s : State) (d : UnitIdx) (c : Command) : OnlyDecoder d s (s.hold c) :=
  ⟨rfl, rfl, rfl, fun _ _ => rfl, rfl, rfl, rfl, rfl, fun _ _ => rfl⟩

/-! ## The end of a port access -/

/-- A write that its sink has answered ends: which result, and the encoder that is left. -/
theorem sinkAnswered_state (e : UnitIdx) (j : EncJob) (a : SinkAnswer) (s : State) :
    ∃ st n info, sinkAnswered e j a s = endWrite e j st n info s ∧
      (a.err = none ∧ st = .ok ∧ n = j.payload.length ∧ info = 0 ∨
        ∃ c, a.err = some c ∧ st = .sinkError ∧ n = a.accepted / 16 ∧ info = c) := by
  unfold sinkAnswered
  split
  · next h => exact ⟨_, _, _, rfl, .inl ⟨h, rfl, rfl, rfl⟩⟩
  · next c h => exact ⟨_, _, _, rfl, .inr ⟨c, h, rfl, rfl, rfl⟩⟩

/-- The state between the source's answer and the end of the read: the read is recorded, the answer consumed, and the
decoder in `FAULT` at the bad token, or in `IDLE` with the new leftover. -/
structure ReadDone (s : State) (d : UnitIdx) (j : DecJob) (a : SrcAnswer) (rest : List SrcAnswer)
    (bad : Option Token) (m : State) : Prop where
  only : OnlyDecoder d s m
  waiting : m.waiting = s.waiting
  src : m.srcAt d = rest
  trace : m.trace = .srcRead d (16 * j.capacity - (s.decAt d).leftLen.toNat) a :: s.trace
  bound : (m.decAt d).bound = (s.decAt d).bound
  asel : (m.decAt d).asel = (s.decAt d).asel
  lock : (m.decAt d).lock = (s.decAt d).lock
  job : (m.decAt d).job = (s.decAt d).job
  faulted : ∀ w, bad = some w →
    (m.decAt d).phase = .fault ∧ (m.decAt d).bad = w ∧ (m.decAt d).leftLen = 0 ∧ (m.decAt d).left = (s.decAt d).left
  carried : bad = none →
    (m.decAt d).phase = .idle ∧ (m.decAt d).bad = (s.decAt d).bad ∧
      (m.decAt d).leftover = ((s.decAt d).leftover ++ a.bytes).drop
        (16 * (((s.decAt d).leftover ++ a.bytes).length / 16))

/-- One read that its source answers: what it decodes decides how it ends. -/
theorem serveDecoder_answered {s : State} {d : UnitIdx} {j : DecJob} {a : SrcAnswer} {rest : List SrcAnswer}
    (hj : (s.decAt d).job = some j) (hs : s.srcAt d = a :: rest)
    (hl : a.bytes.length ≤ 16 * j.capacity - (s.decAt d).leftLen.toNat) {out : List Byte} {bad : Option Token}
    (hd : decBytes (s.tokens (s.decAt d).asel)
      (((s.decAt d).leftover ++ a.bytes).take (16 * (((s.decAt d).leftover ++ a.bytes).length / 16))) = (out, bad)) :
    ∃ m st info, serveDecoder d s = .next (endRead d j st info out m) ∧ ReadDone s d j a rest bad m ∧
      (∀ w, bad = some w → st = .invalidWord ∧ info = pack4 w) ∧
      (bad = none → st = a.st.status ∧ info = a.st.info) := by
  have htail : (((s.decAt d).leftover ++ a.bytes).drop
      (16 * (((s.decAt d).leftover ++ a.bytes).length / 16))).length ≤ 15 := by
    rw [List.length_drop]; omega
  have hscr : serveDecoder d s = .next (sourceAnswered d j a (((beginFill d s).setSrc d rest).emit
      (.srcRead d (16 * j.capacity - (s.decAt d).leftLen.toNat) a))) := by
    simp [serveDecoder, hj, hs, request, hl]
  cases bad with
  | some w =>
    refine ⟨enterFault d w (((beginFill d s).setSrc d rest).emit
      (.srcRead d (16 * j.capacity - (s.decAt d).leftLen.toNat) a)), .invalidWord, pack4 w, ?_,
      ⟨?_, ?_, ?_, ?_, ?_, ?_, ?_, ?_, ?_, ?_⟩, by simp, by simp⟩
    · rw [hscr]; simp [sourceAnswered, beginFill, -List.length_append, hd]
    · exact (((onlyDecoder_setDec _ _ _).trans (onlyDecoder_setSrc _ _ _)).trans (onlyDecoder_emit _ _ _)).trans
        (onlyDecoder_setDec _ _ _)
    · simp [enterFault, beginFill]
    · simp [enterFault]
    · simp [enterFault, beginFill]
    · simp [enterFault, beginFill]
    · simp [enterFault, beginFill]
    · simp [enterFault, beginFill]
    · simp [enterFault, beginFill]
    · intro w' h; cases h; simp [enterFault, beginFill]
    · intro h; cases h
  | none =>
    refine ⟨carryTail d (((s.decAt d).leftover ++ a.bytes).drop
        (16 * (((s.decAt d).leftover ++ a.bytes).length / 16)))
      (((beginFill d s).setSrc d rest).emit
        (.srcRead d (16 * j.capacity - (s.decAt d).leftLen.toNat) a)), a.st.status, a.st.info, ?_,
      ⟨?_, ?_, ?_, ?_, ?_, ?_, ?_, ?_, ?_, ?_⟩, by simp, by simp⟩
    · rw [hscr]; simp [sourceAnswered, beginFill, -List.length_append, hd]
    · exact (((onlyDecoder_setDec _ _ _).trans (onlyDecoder_setSrc _ _ _)).trans (onlyDecoder_emit _ _ _)).trans
        (onlyDecoder_setDec _ _ _)
    · simp [carryTail, beginFill]
    · simp [carryTail]
    · simp [carryTail, beginFill]
    · simp [carryTail, beginFill]
    · simp [carryTail, beginFill]
    · simp [carryTail, beginFill]
    · simp [carryTail, beginFill]
    · intro w' h; cases h
    · intro _
      refine ⟨by simp [carryTail], by simp [carryTail, beginFill], ?_⟩
      simp only [carryTail, setDec_decAt_self]
      exact leftover_setLeftover _ htail

/-- The end of a command frees the lock and leaves the rest of the decoder. -/
@[simp] theorem endJob_decAt (d : UnitIdx) (j : DecJob) (st : Status) (info : Word32) (data : List Byte) (s : State) :
    (endJob d j st info data s).decAt d = { s.decAt d with lock := false, job := none } := by
  simp [endJob]

theorem endJob_only (d : UnitIdx) (j : DecJob) (st : Status) (info : Word32) (data : List Byte) (s : State) :
    OnlyDecoder d s (endJob d j st info data s) :=
  (onlyDecoder_setDec _ _ _).trans (onlyDecoder_emit _ _ _)

/-- How one read of a `DEC.INTO` ends the command, or goes on (R186). -/
theorem endRead_into {d : UnitIdx} {j : DecJob} (hi : j.into = true) (st : Status) (info : Word32)
    (data : List Byte) (s : State) :
    (st = .ok ∧ (j.out ++ data).length < j.cap.toNat ∧
      endRead d j st info data s = s.setDec d { s.decAt d with job := some { j with out := j.out ++ data } }) ∨
    (st = .ok ∧ j.cap.toNat ≤ (j.out ++ data).length ∧
      endRead d j st info data s = endJob d j .ok 0 (j.out ++ data) s) ∨
    (st = .endOfStream ∧ endRead d j st info data s = endJob d j .ok 0 (j.out ++ data) s) ∨
    (st ≠ .ok ∧ st ≠ .endOfStream ∧ endRead d j st info data s = endJob d j st info (j.out ++ data) s) := by
  unfold endRead
  rw [if_pos hi]
  dsimp only
  split
  · split
    · next h => exact .inl ⟨rfl, h, rfl⟩
    · next h => exact .inr (.inl ⟨rfl, Nat.not_lt.1 h, rfl⟩)
  · exact .inr (.inr (.inl ⟨rfl, rfl⟩))
  · next h1 h2 => exact .inr (.inr (.inr ⟨h1, h2, rfl⟩))

theorem endRead_read {d : UnitIdx} {j : DecJob} (hi : j.into = false) (st : Status) (info : Word32)
    (data : List Byte) (s : State) : endRead d j st info data s = endJob d j st info data s := by
  simp [endRead, hi]

/-- The end of a read, whatever the command: its lock and its job change, nothing else of the decoder; the record grows
by at most one result, of that command, to the caller that issued it. -/
theorem endRead_frame (d : UnitIdx) (j : DecJob) (st : Status) (info : Word32) (data : List Byte) (s : State) :
    ∃ lock job, (endRead d j st info data s).decAt d = { s.decAt d with lock := lock, job := job } ∧
      OnlyDecoder d s (endRead d j st info data s) ∧ (endRead d j st info data s).waiting = s.waiting ∧
      (endRead d j st info data s).srcIn = s.srcIn ∧
      (lock = (s.decAt d).lock ∧ (∃ j', job = some j') ∧ (endRead d j st info data s).trace = s.trace ∨
        lock = false ∧ job = none ∧
          ∃ r, (endRead d j st info data s).trace = .result j.caller (some (j.instr d)) r :: s.trace) := by
  have go : ∀ jb : DecJob, ∃ lock job,
      (s.setDec d { s.decAt d with job := some jb }).decAt d = { s.decAt d with lock := lock, job := job } ∧
      OnlyDecoder d s (s.setDec d { s.decAt d with job := some jb }) ∧
      (s.setDec d { s.decAt d with job := some jb }).waiting = s.waiting ∧
      (s.setDec d { s.decAt d with job := some jb }).srcIn = s.srcIn ∧
      (lock = (s.decAt d).lock ∧ (∃ j', job = some j') ∧
          (s.setDec d { s.decAt d with job := some jb }).trace = s.trace ∨
        lock = false ∧ job = none ∧
          ∃ r, (s.setDec d { s.decAt d with job := some jb }).trace =
            .result j.caller (some (j.instr d)) r :: s.trace) := fun jb =>
    ⟨(s.decAt d).lock, some jb, by simp, onlyDecoder_setDec _ _ _, rfl, rfl, .inl ⟨rfl, ⟨jb, rfl⟩, rfl⟩⟩
  have stop : ∀ st info data, ∃ lock job,
      (endJob d j st info data s).decAt d = { s.decAt d with lock := lock, job := job } ∧
      OnlyDecoder d s (endJob d j st info data s) ∧ (endJob d j st info data s).waiting = s.waiting ∧
      (endJob d j st info data s).srcIn = s.srcIn ∧
      (lock = (s.decAt d).lock ∧ (∃ j', job = some j') ∧ (endJob d j st info data s).trace = s.trace ∨
        lock = false ∧ job = none ∧
          ∃ r, (endJob d j st info data s).trace = .result j.caller (some (j.instr d)) r :: s.trace) :=
    fun st info data =>
      ⟨false, none, by simp [endJob], (onlyDecoder_setDec _ _ _).trans (onlyDecoder_emit _ _ _), rfl, rfl,
        .inr ⟨rfl, rfl, _, rfl⟩⟩
  cases hi : j.into with
  | false => rw [endRead_read hi]; exact stop _ _ _
  | true =>
    rcases endRead_into hi st info data s with ⟨_, _, h⟩ | ⟨_, _, h⟩ | ⟨_, h⟩ | ⟨_, _, h⟩ <;> rw [h]
    · exact go _
    · exact stop _ _ _
    · exact stop _ _ _
    · exact stop _ _ _

/-! ## What an instance that goes on leaves alone -/

theorem endWrite_only (e : UnitIdx) (j : EncJob) (st : Status) (n : Nat) (info : Word32) (s : State) :
    OnlyEncoder e s (endWrite e j st n info s) :=
  (onlyEncoder_setEnc _ _ _).trans (onlyEncoder_emit _ _ _)

/-- An encoder that goes on touches nothing but itself and its sink. -/
theorem serveEncoder_only {e : UnitIdx} {s t : State} (h : serveEncoder e s = .next t) :
    OnlyEncoder e s t ∧ t.waiting = s.waiting := by
  rcases serveEncoder_effect e s with q | q | ⟨j, a, rest, -, -, -, q⟩ <;> rw [h] at q
  · cases q; exact ⟨⟨rfl, rfl, fun _ _ => rfl, rfl, rfl, rfl, rfl, fun _ _ => rfl, rfl⟩, rfl⟩
  · cases q
  · obtain ⟨st, n, info, q2, -⟩ :=
      sinkAnswered_state e j a ((s.setSink e rest).emit (.sinkWrite e (s.encAt e).path.escr a))
    rw [q2] at q
    cases q
    exact ⟨((onlyEncoder_setSink _ _ _).trans (onlyEncoder_emit _ _ _)).trans (endWrite_only _ _ _ _ _ _), rfl⟩

/-- A decoder that goes on touches nothing but itself and its source. -/
theorem serveDecoder_only {d : UnitIdx} {s t : State} (h : serveDecoder d s = .next t) :
    OnlyDecoder d s t ∧ t.waiting = s.waiting := by
  rcases serveDecoder_effect d s with ⟨-, q⟩ | ⟨j, -, -, q⟩ | q | ⟨j, a, rest, hj, hs, hl, -⟩
  · rw [h] at q; cases q; exact ⟨⟨rfl, rfl, rfl, fun _ _ => rfl, rfl, rfl, rfl, rfl, fun _ _ => rfl⟩, rfl⟩
  · rw [h] at q; cases q; exact ⟨onlyDecoder_setDec _ _ _, rfl⟩
  · rw [h] at q; cases q
  · obtain ⟨m, st, info, he, hm, -, -⟩ := serveDecoder_answered (out := (decBytes _ _).1) (bad := (decBytes _ _).2)
      hj hs hl rfl
    rw [h] at he
    cases he
    obtain ⟨_, _, -, h2, h3, -⟩ := endRead_frame d j st info _ m
    exact ⟨hm.only.trans h2, h3.trans hm.waiting⟩

/-! ## Reset -/

@[simp] theorem reset_slotAt (a : UnitIdx) : State.reset.slotAt a = AlphaSlot.reset := by
  simp [State.slotAt, State.reset]

@[simp] theorem reset_encAt (e : UnitIdx) : State.reset.encAt e = Encoder.reset := by
  simp [State.encAt, State.reset]

@[simp] theorem reset_decAt (d : UnitIdx) : State.reset.decAt d = Decoder.reset := by
  simp [State.decAt, State.reset]

@[simp] theorem resetEngine_slotAt (taken : List Nat) (s : State) (a : UnitIdx) :
    (resetEngine taken s).slotAt a = AlphaSlot.reset := reset_slotAt a

@[simp] theorem resetEngine_encAt (taken : List Nat) (s : State) (e : UnitIdx) :
    (resetEngine taken s).encAt e = Encoder.reset := reset_encAt e

@[simp] theorem resetEngine_decAt (taken : List Nat) (s : State) (d : UnitIdx) :
    (resetEngine taken s).decAt d = Decoder.reset := reset_decAt d

@[simp] theorem resetEngine_halted (taken : List Nat) (s : State) : (resetEngine taken s).halted = false := rfl
@[simp] theorem resetEngine_waiting (taken : List Nat) (s : State) : (resetEngine taken s).waiting = [] := rfl
@[simp] theorem resetEngine_params (taken : List Nat) (s : State) : (resetEngine taken s).params = s.params := rfl
@[simp] theorem resetEngine_inputs (taken : List Nat) (s : State) : (resetEngine taken s).inputs = s.inputs := rfl
@[simp] theorem resetEngine_trace (taken : List Nat) (s : State) :
    (resetEngine taken s).trace = .reset :: (cutWrites s taken ++ s.trace) := rfl

/-! ## Steps -/

/-- Two states with the same registers, counts and record: they may differ in what the environment holds. -/
structure SameEngine (s u : State) : Prop where
  halted : u.halted = s.halted
  alpha : u.alpha = s.alpha
  enc : u.enc = s.enc
  dec : u.dec = s.dec
  params : u.params = s.params
  trace : u.trace = s.trace

theorem SameEngine.encAt {s u : State} (h : SameEngine s u) (e : UnitIdx) : u.encAt e = s.encAt e := by
  simp [State.encAt, h.enc]

theorem SameEngine.decAt {s u : State} (h : SameEngine s u) (d : UnitIdx) : u.decAt d = s.decAt d := by
  simp [State.decAt, h.dec]

theorem SameEngine.slotAt {s u : State} (h : SameEngine s u) (a : UnitIdx) : u.slotAt a = s.slotAt a := by
  simp [State.slotAt, h.alpha]

theorem SameEngine.tokens {s u : State} (h : SameEngine s u) (a : UnitIdx) : u.tokens a = s.tokens a := by
  simp [State.tokens, h.slotAt a]

/-- Everything a step that answers a next state can be. -/
inductive StepCase (s s' : State) : Prop where
  /-- Only the environment moved. -/
  | env (h : SameEngine s s')
  /-- A command that is an instruction was taken up. -/
  | command (i : Instr) (u : State) (h : SameEngine s u) (hw : i.WellFormed) (hx : exec i u = .next s')
  /-- A command whose word spells no instruction was refused. -/
  | badWord (u : State) (h : SameEngine s u) (hr : s.halted = false) (hs : s' = u.emit (.result u.caller none refusedResult))
  /-- An encoder went on with its write. -/
  | serveEnc (e : UnitIdx) (u : State) (h : SameEngine s u) (hr : s.halted = false)
      (hx : serveEncoder e u = .next s')
  /-- A decoder went on with its command. -/
  | serveDec (d : UnitIdx) (u : State) (h : SameEngine s u) (hr : s.halted = false)
      (hx : serveDecoder d u = .next s')
  /-- The engine was reset. -/
  | reset (taken : List Nat) (rest : List Input) (hin : s.inputs = .reset taken :: rest)
      (hs : s' = resetEngine taken (s.setInputs rest))

/-- Taking up a command: an instruction, or a word that is refused or waits. -/
theorem runCommand_cases {c : Command} {s u s' : State} (hu : SameEngine s u) (h : runCommand c u = .next s') :
    StepCase s s' := by
  have word : refuseWord c u = .next s' → StepCase s s' := by
    intro h
    unfold refuseWord at h
    split at h
    · cases h; exact .env ⟨hu.halted, hu.alpha, hu.enc, hu.dec, hu.params, hu.trace⟩
    · next hn =>
      cases h
      refine .badWord u hu ?_ rfl
      rw [← hu.halted]
      simp_all
  unfold runCommand at h
  split at h
  · next i hd => exact .command i u hu (decode_wellFormed hd) h
  · cases h
  · exact word h
  · exact word h

/-- Everything a step can be. -/
theorem step_cases {s s' : State} (h : step s = .next s') : StepCase s s' := by
  unfold step at h
  split at h
  · unfold idle at h
    split at h
    · cases h
    · cases h; exact .env ⟨rfl, rfl, rfl, rfl, rfl, rfl⟩
  · next x rest hin =>
    cases x with
    | present caller c =>
      exact runCommand_cases (u := (s.setInputs rest).setCaller caller) ⟨rfl, rfl, rfl, rfl, rfl, rfl⟩ h
    | accept k =>
      simp only [takeInput] at h
      split at h
      · cases h; exact .env ⟨rfl, rfl, rfl, rfl, rfl, rfl⟩
      · next caller c _ =>
        exact runCommand_cases
          (u := ((s.setInputs rest).setCaller caller).setWaiting ((s.setInputs rest).waiting.eraseIdx k))
          ⟨rfl, rfl, rfl, rfl, rfl, rfl⟩ h
    | serveEnc e =>
      simp only [takeInput, unlessHalted] at h
      split at h
      · cases h; exact .env ⟨rfl, rfl, rfl, rfl, rfl, rfl⟩
      · next hh =>
        exact .serveEnc e (s.setInputs rest) ⟨rfl, rfl, rfl, rfl, rfl, rfl⟩ (by simpa using hh) h
    | serveDec d =>
      simp only [takeInput, unlessHalted] at h
      split at h
      · cases h; exact .env ⟨rfl, rfl, rfl, rfl, rfl, rfl⟩
      · next hh =>
        exact .serveDec d (s.setInputs rest) ⟨rfl, rfl, rfl, rfl, rfl, rfl⟩ (by simpa using hh) h
    | sinkReady e a => cases h; exact .env ⟨rfl, rfl, rfl, rfl, rfl, rfl⟩
    | sourceReady d a => cases h; exact .env ⟨rfl, rfl, rfl, rfl, rfl, rfl⟩
    | reset taken => cases h; exact .reset taken rest hin rfl

end Sys2Proof.Machine
end

