-- ==== Sys2Proof/Tests/Slice0.lean ====
section
/-! SUPPORT. The model's own tests: the checks of `WellFormed`, words decoded, single commands against the vectors of
spec/95_test_vectors.md (named in each comment), and, for every statement that has hypotheses, a state and operands that
meet them all. Byte values of quoted strings are ASCII codes (K3). -/

namespace Sys2Proof.Tests

open Sys2Proof Sys2Proof.Machine

/-! ## Data -/

/-- `ABCD` = `"aaaabbbbccccdddd"` (spec/95_test_vectors.md, table of alphabets). -/
def abcd : List Byte :=
  [0x61, 0x61, 0x61, 0x61, 0x62, 0x62, 0x62, 0x62, 0x63, 0x63, 0x63, 0x63, 0x64, 0x64, 0x64, 0x64]

/-- `BOAT` = `"boatfeetbowlsoap"` (the same table). -/
def boat : List Byte :=
  [0x62, 0x6F, 0x61, 0x74, 0x66, 0x65, 0x65, 0x74, 0x62, 0x6F, 0x77, 0x6C, 0x73, 0x6F, 0x61, 0x70]

/-- `"aaaabbbbcccccccc"`, the pair (2, 3) equal (VA10). -/
def dup23 : List Byte :=
  [0x61, 0x61, 0x61, 0x61, 0x62, 0x62, 0x62, 0x62, 0x63, 0x63, 0x63, 0x63, 0x63, 0x63, 0x63, 0x63]

/-- `"bbbbaaaaaaaaaaaa"`, the group of `0x01` with `ABCD` (VS2). -/
def group01 : List Byte :=
  [0x62, 0x62, 0x62, 0x62, 0x61, 0x61, 0x61, 0x61, 0x61, 0x61, 0x61, 0x61, 0x61, 0x61, 0x61, 0x61]

/-- `"ddddccccbbbbaaaa"`, the group of `0x1B` with `ABCD` (section 2.3). -/
def group1B : List Byte :=
  [0x64, 0x64, 0x64, 0x64, 0x63, 0x63, 0x63, 0x63, 0x62, 0x62, 0x62, 0x62, 0x61, 0x61, 0x61, 0x61]

/-- `"bbxb"` and the last 12 bytes of `group1B` (VW1). -/
def groupBad : List Byte :=
  [0x62, 0x62, 0x78, 0x62, 0x63, 0x63, 0x63, 0x63, 0x62, 0x62, 0x62, 0x62, 0x61, 0x61, 0x61, 0x61]

/-- Reset, with slot 0 = `ABCD` and slot 1 = `BOAT` (the start state of sections 2.2 to 2.7). -/
def loaded : State :=
  (State.reset.setSlot 0 ⟨true, specTokens abcd⟩).setSlot 1 ⟨true, specTokens boat⟩

/-- `loaded` with encoder 1, the last there is, bound to slot 0; its sink ready to give the answers `a`. -/
def encOpened (a : List SinkAnswer) : State :=
  (loaded.setEnc 1 { Encoder.reset with bound := true }).setSink 1 a

/-- `loaded` with decoder 1, the last there is, bound to slot 0; its source ready to give the answers `a`. -/
def decOpened (a : List SrcAnswer) : State :=
  (loaded.setDec 1 { Decoder.reset with bound := true }).setSrc 1 a

/-- `decOpened` after `InvalidWord` with `"bbxb"` (VW1). -/
def decFaulted : State :=
  loaded.setDec 1 { Decoder.reset with bound := true, phase := .fault, bad := ⟨0x62, 0x62, 0x78, 0x62⟩ }

/-- The next state's record of the run, newest first, nothing if there is no next state. -/
def traceOf : Answer → List Output
  | .next t => t.trace
  | .fault _ => []
  | .refused _ => []

/-- A property of the next state, false if there is none. -/
def holds (f : State → Bool) : Answer → Bool
  | .next t => f t
  | .fault _ => false
  | .refused _ => false

/-- The answer is the next state `t`, every field of it. -/
def isNext (a : Answer) (t : State) : Bool := holds (fun u => decide (u = t)) a

/-! ## Well-formedness: one ill-formed term for each check -/

/-- A payload one byte longer than `LEN_MAX` (R10) does not fit `ARG`. -/
theorem too_long : ¬PayloadFits (List.replicate 16777216 0) := by
  rw [PayloadFits, List.length_replicate]; decide

/-- The longest payload fits. -/
theorem longest_fits : PayloadFits (List.replicate 16777215 0) := by
  rw [PayloadFits, List.length_replicate]; decide

theorem test_wf_alphaLoad : (Instr.alphaLoad 0 (List.replicate 16777216 0)).wf = false := by
  simp only [Instr.wf, too_long, decide_false]
theorem test_wf_alphaMust : (Instr.alphaMust 0 (List.replicate 16777216 0)).wf = false := by
  simp only [Instr.wf, too_long, decide_false]
theorem test_wf_encWrite : (Instr.encWrite 0 (List.replicate 16777216 0)).wf = false := by
  simp only [Instr.wf, too_long, decide_false]
theorem test_wf_osEncode : (Instr.osEncode 0 (List.replicate 16777216 0) 0).wf = false := by
  simp only [Instr.wf, too_long, decide_false]
theorem test_wf_osDecode : (Instr.osDecode 0 (List.replicate 16777216 0) 0).wf = false := by
  simp only [Instr.wf, too_long, decide_false]
theorem test_wf_longest : (Instr.encWrite 0 (List.replicate 16777215 0)).wf = true := by
  simp only [Instr.wf, longest_fits, decide_true]

/-! ## Decoding: one word for each constructor, `OP[31:28]`, `UNIT[27:24]`, `ARG[23:0]` written out (R103, R106) -/

theorem test_decode_alphaLoad :
    decode ⟨0b0001_1111_000000000000000000000010, none, [7, 8]⟩ = .ok (.alphaLoad 15 [7, 8]) := by decide
theorem test_decode_alphaMust :
    decode ⟨0b0010_0001_000000000000000000000001, none, [9]⟩ = .ok (.alphaMust 1 [9]) := by decide
theorem test_decode_alphaEncv :
    decode ⟨0b0011_0101_000000000000000000000011, none, []⟩ = .ok (.alphaEncv 5 3) := by decide
theorem test_decode_alphaDect :
    decode ⟨0b0100_0001_000000000000000000000100, none, [1, 2, 3, 4]⟩ = .ok (.alphaDect 1 ⟨1, 2, 3, 4⟩) := by decide
theorem test_decode_encOpen :
    decode ⟨0b0101_0001_000000000000000000001000, none, []⟩ = .ok (.encOpen 1 8) := by decide
theorem test_decode_encWrite :
    decode ⟨0b0110_1000_000000000000000000000000, none, []⟩ = .ok (.encWrite 8 []) := by decide
theorem test_decode_decOpen :
    decode ⟨0b0111_0010_000000000000000000001111, none, []⟩ = .ok (.decOpen 2 15) := by decide
theorem test_decode_decRead :
    decode ⟨0b1000_0001_111111111111111111111111, none, []⟩ = .ok (.decRead 1 0xFFFFFF) := by decide
theorem test_decode_decInto :
    decode ⟨0b1001_0000_100000000000000000000000, none, []⟩ = .ok (.decInto 0 0x800000) := by decide
theorem test_decode_osEncode :
    decode ⟨0b1010_0011_000000000000000000000001, some 0x80000001, [5]⟩ = .ok (.osEncode 3 [5] 0x80000001) := by decide
theorem test_decode_osDecode :
    decode ⟨0b1011_0100_000000000000000000000000, some 0, []⟩ = .ok (.osDecode 4 [] 0) := by decide

/-- R114: the five reserved opcodes. -/
theorem test_decode_reserved :
    decode ⟨0x00000000, none, []⟩ = .error .reservedOpcode ∧ decode ⟨0xC0000000, none, []⟩ = .error .reservedOpcode ∧
    decode ⟨0xD0000000, none, []⟩ = .error .reservedOpcode ∧ decode ⟨0xE0000000, none, []⟩ = .error .reservedOpcode ∧
    decode ⟨0xFFFFFFFF, none, []⟩ = .error .reservedOpcode := by decide

/-- R115: the lowest and the highest reserved bit (VL18, VL19, VE3). -/
theorem test_decode_reserved_bits :
    decode ⟨0x30000004, none, []⟩ = .error .reservedBits ∧ decode ⟨0x30800000, none, []⟩ = .error .reservedBits ∧
    decode ⟨0x40000003, none, [1, 2, 3]⟩ = .error .reservedBits ∧
    decode ⟨0x50000010, none, []⟩ = .error .reservedBits ∧ decode ⟨0x70800000, none, []⟩ = .error .reservedBits := by
  decide

/-- U4: a payload or an extension word of another length is no command. -/
theorem test_decode_length :
    decode ⟨0x10000010, none, [1]⟩ = .error .notACommand ∧ decode ⟨0xA0000000, none, []⟩ = .error .notACommand ∧
    decode ⟨0x80000001, some 0, []⟩ = .error .notACommand := by decide

/-- Rows of the opcode table numbered from bit 0 of the first word: the extension word is bits 63:32 (R104). -/
theorem test_decode_table :
    decodeTableWord 32 0x80000003 = some (.decRead 0 3) ∧
    decodeTableWord 64 0x0000001FA0000002 = some (.osEncode 0 [0, 0] 0x1F) ∧ decodeTableWord 32 0xF0000000 = none := by
  decide

/-! ## Packed words -/

/-- VW1: `INFO` for `"bbxb"` is `0x62786262`, and `RW0` is `0x30000000`. -/
theorem test_invalid_word_rw :
    pack4 ⟨0x62, 0x62, 0x78, 0x62⟩ = 0x62786262 ∧
    (mkResult .invalidWord 0 (pack4 ⟨0x62, 0x62, 0x78, 0x62⟩) []).rw0 = 0x30000000 := by decide

/-- VE13: `(SinkError, 1, 0xE0000005)` is `0x80000001`, `0xE0000005`. -/
theorem test_sink_error_rw :
    (mkResult .sinkError 1 0xE0000005 []).rw0 = 0x80000001 ∧ (mkResult .sinkError 1 0xE0000005 []).rw1 = 0xE0000005 := by
  decide

/-! ## Data encoding -/

/-- Section 2.3, rows `0x1B` with `ABCD` and `0x75` with `BOAT` (VS5, index 0). -/
theorem test_enc_byte :
    encByte (specTokens abcd) 0x1B = group1B ∧
    encByte (specTokens boat) 0x75 =
      [0x66, 0x65, 0x65, 0x74, 0x66, 0x65, 0x65, 0x74, 0x73, 0x6F, 0x61, 0x70, 0x66, 0x65, 0x65, 0x74] := by decide

/-- Section 2.3, row `0x1B`; VW10: of two bad tokens the lower index, `"QQQQ"`, is reported. -/
theorem test_dec_group :
    decGroup (specTokens abcd) group1B = .ok 0x1B ∧
    decGroup (specTokens abcd)
      [0x64, 0x64, 0x64, 0x64, 0x51, 0x51, 0x51, 0x51, 0x62, 0x62, 0x62, 0x62, 0x5A, 0x5A, 0x5A, 0x5A] =
      .error ⟨0x51, 0x51, 0x51, 0x51⟩ := by decide

/-- VW8: a bad token in the incomplete tail is not looked at. -/
theorem test_tail_not_looked_at :
    decBytes (specTokens abcd) (group1B ++ [0x61, 0x61, 0x61, 0x61, 0x62, 0x62, 0x62, 0x7A, 0x63, 0x63]) =
      ([0x1B], none) := by decide

/-! ## Single commands -/

/-- VA15. -/
theorem test_alphaLoad_ok :
    isNext (exec (.alphaLoad 0 abcd) State.reset) { State.reset with
      alpha := State.reset.alpha.set 0 ⟨true, #v[⟨0x61, 0x61, 0x61, 0x61⟩, ⟨0x62, 0x62, 0x62, 0x62⟩,
        ⟨0x63, 0x63, 0x63, 0x63⟩, ⟨0x64, 0x64, 0x64, 0x64⟩]⟩
      trace := [.result 0 (some (.alphaLoad 0 abcd)) ⟨.ok, 0, 0, []⟩] } = true := by decide

/-- VA10. -/
theorem test_alphaLoad_duplicate :
    isNext (exec (.alphaLoad 0 dup23) State.reset) { State.reset with
      trace := [.result 0 (some (.alphaLoad 0 dup23)) ⟨.duplicateToken, 0, 0, []⟩] } = true := by decide

/-- VA20: 15 bytes halt the engine, without a result. -/
theorem test_alphaMust_halts :
    isNext (exec (.alphaMust 0 (abcd.take 15)) State.reset) { State.reset with halted := true } = true := by decide

/-- VA21: the refusal comes before the validation. -/
theorem test_alphaMust_refused :
    isNext (exec (.alphaMust 0 dup23) loaded) { loaded with
      trace := [.result 0 (some (.alphaMust 0 dup23)) ⟨.refused, 0, 0, []⟩] } = true := by decide

/-- VL7. -/
theorem test_alphaEncv :
    isNext (exec (.alphaEncv 1 2) loaded) { loaded with
      trace := [.result 0 (some (.alphaEncv 1 2)) ⟨.ok, 4, 0, [0x62, 0x6F, 0x77, 0x6C]⟩] } = true := by decide

/-- VL12. -/
theorem test_alphaDect_found :
    isNext (exec (.alphaDect 1 ⟨0x73, 0x6F, 0x61, 0x70⟩) loaded) { loaded with
      trace := [.result 0 (some (.alphaDect 1 ⟨0x73, 0x6F, 0x61, 0x70⟩)) ⟨.ok, 0, 3, []⟩] } = true := by decide

/-- VL14: `"Feet"`. -/
theorem test_alphaDect_notFound :
    isNext (exec (.alphaDect 1 ⟨0x46, 0x65, 0x65, 0x74⟩) loaded) { loaded with
      trace := [.result 0 (some (.alphaDect 1 ⟨0x46, 0x65, 0x65, 0x74⟩)) ⟨.notFound, 0, 0, []⟩] } = true := by decide

/-- VE5: the slot index of an `OPEN` out of range. -/
theorem test_encOpen_slot_out_of_range :
    isNext (exec (.encOpen 1 2) loaded) { loaded with
      trace := [.result 0 (some (.encOpen 1 2)) ⟨.refused, 0, 0, []⟩] } = true := by decide

/-- VE7: the group of `0x01` is offered, `(OK, 1)` returned, `EHWM` is 16. -/
theorem test_encWrite_ok :
    traceOf (exec (.encWrite 1 [0x01]) (encOpened [⟨16, none⟩])) =
      [.result 0 (some (.encWrite 1 [0x01])) ⟨.ok, 1, 0, []⟩, .sinkWrite 1 group01 ⟨16, none⟩] ∧
    holds (fun t => (t.encAt 1).hwm == 16) (exec (.encWrite 1 [0x01]) (encOpened [⟨16, none⟩])) = true := by decide

/-- VE13: 17 of 48 bytes accepted, `(SinkError, 1, 0xE0000005)`. -/
theorem test_encWrite_sinkError :
    (traceOf (exec (.encWrite 1 [0x1B, 0xE4, 0xFF]) (encOpened [⟨17, some 0xE0000005⟩]))).head? =
      some (.result 0 (some (.encWrite 1 [0x1B, 0xE4, 0xFF])) ⟨.sinkError, 1, 0xE0000005, []⟩) := by decide

/-- VW6: `DEC.OPEN` leaves `FAULT`. -/
theorem test_decOpen_leaves_fault :
    holds (fun t => (t.decAt 1).phase == .idle && (t.decAt 1).leftLen == 0) (exec (.decOpen 1 0) decFaulted) = true := by
  decide

/-- VR5: 5 bytes, `(OK, 0)`, leftover `"ddddc"`; a read of capacity 1 asks for 16 bytes. -/
theorem test_decRead_partial :
    traceOf (exec (.decRead 1 1) (decOpened [⟨group1B.take 5, .none⟩])) =
      [.result 0 (some (.decRead 1 1)) ⟨.ok, 0, 0, []⟩, .srcRead 1 16 ⟨group1B.take 5, .none⟩] ∧
    holds (fun t => (t.decAt 1).leftover == group1B.take 5)
      (exec (.decRead 1 1) (decOpened [⟨group1B.take 5, .none⟩])) = true := by decide

/-- VW1, with capacity 1: the bad token is reported and latched, nothing delivered. -/
theorem test_decRead_invalidWord :
    (traceOf (exec (.decRead 1 1) (decOpened [⟨groupBad, .none⟩]))).head? =
      some (.result 0 (some (.decRead 1 1)) ⟨.invalidWord, 0, 0x62786262, []⟩) ∧
    holds (fun t => (t.decAt 1).phase == .fault && (t.decAt 1).bad == ⟨0x62, 0x62, 0x78, 0x62⟩)
      (exec (.decRead 1 1) (decOpened [⟨groupBad, .none⟩])) = true := by decide

/-- As VI7: a truncated stream ends a `DEC.INTO` with `(OK, 1)`; the bytes after the group stay behind. -/
theorem test_decInto_truncated :
    (traceOf (exec (.decInto 1 8) (decOpened [⟨group1B ++ [0x61, 0x61], .eos⟩]))).head? =
      some (.result 0 (some (.decInto 1 8)) ⟨.ok, 1, 0, [0x1B]⟩) ∧
    holds (fun t => (t.decAt 1).leftover == [0x61, 0x61] && !(t.decAt 1).lock)
      (exec (.decInto 1 8) (decOpened [⟨group1B ++ [0x61, 0x61], .eos⟩])) = true := by decide

/-- As VI1, read 1: the destination is not full, the command goes on with its lock taken and no result. -/
theorem test_decInto_goes_on :
    traceOf (exec (.decInto 1 4) (decOpened [⟨group1B, .none⟩])) = [.srcRead 1 64 ⟨group1B, .none⟩] ∧
    holds (fun t => (t.decAt 1).lock && (t.decAt 1).job == some ⟨0, true, 4, [0x1B]⟩)
      (exec (.decInto 1 4) (decOpened [⟨group1B, .none⟩])) = true := by decide

/-- VO2 for one byte, and VO3: the capacity one byte too small. -/
theorem test_osEncode :
    isNext (exec (.osEncode 0 [0x1B] 16) loaded) { loaded with
      trace := [.result 0 (some (.osEncode 0 [0x1B] 16)) ⟨.ok, 16, 0, group1B⟩] } = true ∧
    isNext (exec (.osEncode 0 [0x1B] 15) loaded) { loaded with
      trace := [.result 0 (some (.osEncode 0 [0x1B] 15)) ⟨.bufferTooSmall, 0, 0, []⟩] } = true := by decide

/-- VO10: both preconditions fail, the length test is first. -/
theorem test_osDecode_length_first :
    isNext (exec (.osDecode 0 (0x61 :: group1B) 0) loaded) { loaded with
      trace := [.result 0 (some (.osDecode 0 (0x61 :: group1B) 0)) ⟨.invalidSourceLength, 0, 0, []⟩] } = true := by decide

/-- As VO11: the byte before the bad group comes with `InvalidWord`. -/
theorem test_osDecode_invalidWord :
    isNext (exec (.osDecode 0 (group1B ++ groupBad) 2) loaded) { loaded with
      trace := [.result 0 (some (.osDecode 0 (group1B ++ groupBad) 2)) ⟨.invalidWord, 1, 0x62786262, [0x1B]⟩] } = true := by
  decide

/-- The very next step after `withFetchWord` runs the command with that word (VL20: slot 0 is empty at reset). -/
theorem test_fetch_word :
    isNext (step (State.reset.withFetchWord 32 0x30000001)) { State.reset with
      trace := [.result 0 (some (.alphaEncv 0 1)) ⟨.refused, 0, 0, []⟩] } = true := by decide

/-! ## Witnesses: states and operands that meet the hypotheses of a statement, clause by clause

A clause over a range is met at a boundary value of it: unit 1, the last there is, and unit 2, the first there is not; a
payload of 15, 16 and 17 bytes; a reserved field with only its lowest or only its highest bit set; capacity 1. -/

/-- The 16-byte specification `abcd` has four distinct chunks. -/
theorem abcd_chunks :
    ∀ i j, i < j → j < 4 → (abcd.drop (4 * i)).take 4 ≠ (abcd.drop (4 * j)).take 4 := by
  intro i j hij hj
  interval_cases j <;> interval_cases i <;> decide

/-- The 16-byte specification `dup23` has two equal chunks. -/
theorem dup23_chunks : ∃ i j, i < j ∧ j < 4 ∧ (dup23.drop (4 * i)).take 4 = (dup23.drop (4 * j)).take 4 :=
  ⟨2, 3, by decide⟩

theorem abcd_distinct : Distinct (specTokens abcd) := (hasDuplicate_false_iff _).1 (by decide)

theorem slot_ready_reset : SlotReady State.reset 1 := ⟨by decide, by decide⟩
theorem slot_ready_loaded : SlotReady loaded 1 := ⟨by decide, by decide⟩
theorem enc_ready_loaded : EncReady loaded 1 := ⟨by decide, by decide, by decide⟩
theorem dec_ready_loaded : DecReady loaded 1 := ⟨by decide, by decide, by decide⟩
theorem enc_ready_opened (a : List SinkAnswer) : EncReady (encOpened a) 1 :=
  ⟨rfl, by show 1 < 2; decide, by simp [encOpened, Encoder.reset]⟩
theorem dec_ready_opened (a : List SrcAnswer) : DecReady (decOpened a) 1 :=
  ⟨rfl, by show 1 < 2; decide, by simp [decOpened, Decoder.reset]⟩
theorem dec_ready_faulted : DecReady decFaulted 1 := ⟨by decide, by decide, by decide⟩

/-- `decOpened` and `encOpened` meet the invariant of the engine, and so does `decFaulted`. -/
theorem inv_of_registers {s : State} (hp : s.params = ⟨2, 2, 2⟩) (ha : s.alpha = loaded.alpha)
    (he : ∀ e, s.encAt e = Encoder.reset ∨ s.encAt e = { Encoder.reset with bound := true })
    (hd : ∀ d, s.decAt d = Decoder.reset ∨ s.decAt d = { Decoder.reset with bound := true } ∨
      s.decAt d = { Decoder.reset with bound := true, phase := .fault, bad := ⟨0x62, 0x62, 0x78, 0x62⟩ }) :
    s.Inv := by
  have hs : ∀ a, s.slotAt a = loaded.slotAt a := fun a => by simp [State.slotAt, ha]
  have h0 : (loaded.slotAt 0).valid = true := by decide
  have hdup : ∀ a : UnitIdx, (loaded.slotAt a).valid = true → hasDuplicate (loaded.tokens a) = false := by decide
  refine ⟨hp ▸ by constructor <;> decide, ?_, ?_, ?_⟩
  · intro a hv
    simp only [State.tokens, hs] at hv ⊢
    exact (hasDuplicate_false_iff _).1 (hdup a hv)
  · intro e
    rcases he e with h | h <;> refine ⟨?_, ?_, ?_, ?_⟩ <;> rw [h] <;> simp [Encoder.reset, hs, hp]
    exact h0
  · intro d
    rcases hd d with h | h | h <;> refine ⟨?_, ?_, ?_, ?_⟩ <;> rw [h] <;> simp [Decoder.reset, hs, hp] <;> exact h0

theorem loaded_enc (e : UnitIdx) : loaded.encAt e = Encoder.reset := by simp [loaded]
theorem loaded_dec (d : UnitIdx) : loaded.decAt d = Decoder.reset := by simp [loaded]

theorem encOpened_enc_ne (a : List SinkAnswer) {e : UnitIdx} (h : e ≠ 1) : (encOpened a).encAt e = Encoder.reset :=
  (setEnc_encAt_ne _ _ _ _ h).trans (loaded_enc e)
theorem decOpened_dec_ne (a : List SrcAnswer) {d : UnitIdx} (h : d ≠ 1) : (decOpened a).decAt d = Decoder.reset :=
  (setDec_decAt_ne _ _ _ _ h).trans (loaded_dec d)
theorem decFaulted_dec_ne {d : UnitIdx} (h : d ≠ 1) : decFaulted.decAt d = Decoder.reset :=
  (setDec_decAt_ne _ _ _ _ h).trans (loaded_dec d)

theorem decOpened_inv (a : List SrcAnswer) : (decOpened a).Inv :=
  inv_of_registers rfl rfl (fun e => .inl (by simp [decOpened, loaded_enc])) fun d => by
    by_cases h : d = 1
    · subst h; simp [decOpened]
    · exact .inl (decOpened_dec_ne a h)

theorem encOpened_inv (a : List SinkAnswer) : (encOpened a).Inv :=
  inv_of_registers rfl rfl (fun e => by
    by_cases h : e = 1
    · subst h; simp [encOpened]
    · exact .inl (encOpened_enc_ne a h)) fun d => .inl (by simp [encOpened, loaded_dec])

theorem decFaulted_inv : decFaulted.Inv :=
  inv_of_registers rfl rfl (fun e => .inl (by simp [decFaulted, loaded_enc])) fun d => by
    by_cases h : d = 1
    · subst h; simp [decFaulted]
    · exact .inl (decFaulted_dec_ne h)

/-! ### Encoding of commands and the step -/

theorem witness_DecodeOfEncode : (Instr.osDecode 15 (List.replicate 16777215 0) 0xFFFFFFFF).WellFormed := longest_fits

theorem witness_EncodeOfDecode : decode ⟨0xB0000001, some 0xFFFFFFFF, [0xFF]⟩ = .ok (.osDecode 0 [0xFF] 0xFFFFFFFF) := by
  decide

theorem witness_ReservedOpcodeRefused :
    ((0x0FFFFFFF : Word32) >>> 28 = 0x0 ∧ (0xC0000000 : Word32) >>> 28 = 0xC ∧ (0xD0000000 : Word32) >>> 28 = 0xD ∧
      (0xE0000000 : Word32) >>> 28 = 0xE ∧ (0xFFFFFFFF : Word32) >>> 28 = 0xF) ∧
    (loaded.setInputs [.present 7 ⟨0xC0000000, none, []⟩]).halted = false := by decide

theorem witness_ReservedBitsRefused_encv :
    (0x30000004 : Word32) >>> 28 = 0x3 ∧ (0x30000004 : Word32).extractLsb' 2 22 ≠ 0 ∧
    (0x30800000 : Word32).extractLsb' 2 22 ≠ 0 ∧ loaded.halted = false := by decide

theorem witness_ReservedBitsRefused_dect :
    (0x40000003 : Word32) >>> 28 = 0x4 ∧ (0x40000003 : Word32).extractLsb' 0 24 ≠ 4 ∧
    [1, 2, 3].length = ((0x40000003 : Word32).extractLsb' 0 24).toNat ∧ (0x40000005 : Word32).extractLsb' 0 24 ≠ 4 ∧
    [1, 2, 3, 4, 5].length = ((0x40000005 : Word32).extractLsb' 0 24).toNat := by decide

theorem witness_ReservedBitsRefused_encOpen :
    (0x51000010 : Word32) >>> 28 = 0x5 ∧ (0x51000010 : Word32).extractLsb' 4 20 ≠ 0 ∧
    (0x51800000 : Word32).extractLsb' 4 20 ≠ 0 ∧
    (loaded.encAt ((0x51000010 : Word32).extractLsb' 24 4)).lock = false := by decide

theorem witness_ReservedBitsRefused_decOpen :
    (0x71000010 : Word32) >>> 28 = 0x7 ∧ (0x71000010 : Word32).extractLsb' 4 20 ≠ 0 ∧
    (0x71800000 : Word32).extractLsb' 4 20 ≠ 0 ∧
    (loaded.decAt ((0x71000010 : Word32).extractLsb' 24 4)).lock = false := by decide

theorem witness_UnitOutOfRangeRefused :
    loaded.halted = false ∧ targetOf (.alphaEncv 2 0) = .alpha 2 ∧ loaded.params.nAlpha ≤ (2 : UnitIdx).toNat ∧
    targetOf (.encWrite 2 []) = .enc 2 ∧ loaded.params.nEnc ≤ (2 : UnitIdx).toNat ∧
    targetOf (.decRead 2 0) = .dec 2 ∧ loaded.params.nDec ≤ (2 : UnitIdx).toNat := by decide

theorem witness_UnitOutOfRangeRefused_open :
    EncReady loaded 1 ∧ DecReady loaded 1 ∧ loaded.params.nAlpha ≤ (2 : UnitIdx).toNat :=
  ⟨enc_ready_loaded, dec_ready_loaded, by decide⟩

theorem witness_WrongLengthHasNoStep :
    ((0x10000010 : Word32) >>> 28 = 0x1 ∧ abcd.tail.length ≠ ((0x10000010 : Word32).extractLsb' 0 24).toNat) ∧
    (¬((0x8FFFFFFF : Word32) >>> 28 = 0x1 ∨ (0x8FFFFFFF : Word32) >>> 28 = 0x2 ∨ (0x8FFFFFFF : Word32) >>> 28 = 0x4 ∨
      (0x8FFFFFFF : Word32) >>> 28 = 0x6 ∨ (0x8FFFFFFF : Word32) >>> 28 = 0xA ∨ (0x8FFFFFFF : Word32) >>> 28 = 0xB) ∧
      ([0] : List Byte) ≠ []) ∧
    ((0xB0000000 : Word32) >>> 28 = 0xA ∨ (0xB0000000 : Word32) >>> 28 = 0xB) ∧
    (¬((0xC0000000 : Word32) >>> 28 = 0xA ∨ (0xC0000000 : Word32) >>> 28 = 0xB) ∧ (some 0 : Option Word32) ≠ none) := by
  decide

theorem witness_StepRunsDecodedCommand :
    (loaded.setInputs [.present 3 ⟨0x31000002, none, []⟩]).inputs = [.present 3 ⟨0x31000002, none, []⟩] ∧
    decode ⟨0x31000002, none, []⟩ = .ok (.alphaEncv 1 2) ∧
    ((loaded.setInputs [.accept 0]).setWaiting [(3, ⟨0x31000002, none, []⟩)]).waiting[0]? =
      some (3, ⟨0x31000002, none, []⟩) ∧
    decodeTableWord 32 0x31000002 = some (.alphaEncv 1 2) := by decide

theorem witness_HeldBackCommandWaits :
    (loaded.setHalted true).halted = true ∧
    (targetOf (.encWrite 1 []) = .enc 1 ∧ (1 : UnitIdx).toNat < loaded.params.nEnc ∧
      ((loaded.setEnc 1 { Encoder.reset with lock := true }).encAt 1).lock = true) ∧
    (targetOf (.decRead 1 0) = .dec 1 ∧ (1 : UnitIdx).toNat < loaded.params.nDec ∧
      ((loaded.setDec 1 { Decoder.reset with lock := true }).decAt 1).lock = true) := by decide

theorem witness_ResultWordLayout : 268435440 < 2 ^ 28 ∧ 2 ^ 28 - 1 < 2 ^ 28 := by decide

/-! ### Data encoding -/

theorem witness_ValidateVerdict_length : (abcd.take 15).length ≠ 16 ∧ (abcd ++ [0]).length ≠ 16 := by decide

theorem witness_ValidateVerdict_duplicate :
    dup23.length = 16 ∧ ∃ i j, i < j ∧ j < 4 ∧ (dup23.drop (4 * i)).take 4 = (dup23.drop (4 * j)).take 4 :=
  ⟨by decide, dup23_chunks⟩

theorem witness_ValidateVerdict_ok :
    abcd.length = 16 ∧ ∀ i j, i < j → j < 4 → (abcd.drop (4 * i)).take 4 ≠ (abcd.drop (4 * j)).take 4 :=
  ⟨by decide, abcd_chunks⟩

theorem witness_TokenLookup : Distinct (specTokens abcd) := abcd_distinct

theorem witness_GroupDecoding :
    val (specTokens abcd) ⟨0x61, 0x61, 0x61, 0x61⟩ = some 0 ∧ val (specTokens abcd) ⟨0x64, 0x64, 0x64, 0x64⟩ = some 3 ∧
    val (specTokens abcd) ⟨0x61, 0x61, 0x61, 0x62⟩ = none ∧
    val (specTokens abcd) ⟨0x61, 0x61, 0x61, 0x61⟩ ≠ none := by decide

theorem witness_SequenceDecoding :
    group1B.length = 16 ∧ ([] : List Byte).length % 16 = 0 ∧ decGroup (specTokens abcd) group1B = .ok 0x1B ∧
    groupBad.length = 16 ∧ decGroup (specTokens abcd) groupBad = .error ⟨0x62, 0x62, 0x78, 0x62⟩ := by decide

theorem witness_CodingLaws :
    Distinct (specTokens abcd) ∧ encBytes (specTokens abcd) [0x1B] = encBytes (specTokens abcd) [0x1B] ∧
    group1B.length % 16 = 0 ∧ decBytes (specTokens abcd) group1B = ([0x1B], none) :=
  ⟨abcd_distinct, by decide, by decide, by decide⟩

theorem witness_CorruptTokenReported :
    Distinct (specTokens abcd) ∧ 0 < 4 ∧ 3 < 4 ∧ val (specTokens abcd) ⟨0x62, 0x62, 0x78, 0x62⟩ = none ∧
    ([] : List Byte).length % 16 = 0 :=
  ⟨abcd_distinct, by decide, by decide, by decide, by decide⟩

/-! ### Alphabet commands -/

theorem witness_AlphaLoadOnEmptySlot :
    SlotReady State.reset 1 ∧ (State.reset.slotAt 1).valid = false ∧ (abcd.take 15).length ≠ 16 ∧
    (abcd ++ [0]).length ≠ 16 ∧ dup23.length = 16 ∧ abcd.length = 16 :=
  ⟨slot_ready_reset, by decide, by decide, by decide, by decide, by decide⟩

theorem witness_AlphaMustOnEmptySlot :
    SlotReady State.reset 1 ∧ (State.reset.slotAt 1).valid = false ∧
    (∃ i j, i < j ∧ j < 4 ∧ (dup23.drop (4 * i)).take 4 = (dup23.drop (4 * j)).take 4) ∧ abcd.length = 16 ∧
    ∀ i j, i < j → j < 4 → (abcd.drop (4 * i)).take 4 ≠ (abcd.drop (4 * j)).take 4 :=
  ⟨slot_ready_reset, by decide, dup23_chunks, by decide, abcd_chunks⟩

theorem witness_ValidSlotNotReloaded : SlotReady loaded 1 ∧ (loaded.slotAt 1).valid = true :=
  ⟨slot_ready_loaded, by decide⟩

theorem witness_AlphaEncvReturnsToken : SlotReady loaded 1 ∧ (loaded.slotAt 1).valid = true :=
  ⟨slot_ready_loaded, by decide⟩

theorem witness_AlphaDectLooksUp :
    SlotReady loaded 1 ∧ (loaded.slotAt 1).valid = true ∧ Distinct (loaded.tokens 1) ∧
    (loaded.slotAt 1).tok[(3 : BitVec 2).toNat] = ⟨0x73, 0x6F, 0x61, 0x70⟩ ∧
    ∀ v : BitVec 2, (loaded.slotAt 1).tok[v.toNat] ≠ ⟨0x46, 0x65, 0x65, 0x74⟩ :=
  ⟨slot_ready_loaded, by decide, (hasDuplicate_false_iff _).1 (by decide), by decide, by decide⟩

theorem witness_EmptySlotOrUnboundRefused :
    SlotReady State.reset 1 ∧ (State.reset.slotAt 1).valid = false ∧ EncReady loaded 1 ∧
    (loaded.slotAt 2).valid = false ∧ (loaded.encAt 1).bound = false ∧ DecReady loaded 1 ∧
    (loaded.decAt 1).bound = false :=
  ⟨slot_ready_reset, by decide, enc_ready_loaded, by decide, by decide, dec_ready_loaded, by decide⟩

/-! ### Encoders -/

theorem witness_EncOpenBinds :
    EncReady loaded 1 ∧ (1 : UnitIdx).toNat < loaded.params.nAlpha ∧ (loaded.slotAt 1).valid = true :=
  ⟨enc_ready_loaded, by decide, by decide⟩

theorem witness_EncWriteFlushes :
    EncReady (encOpened [⟨16, none⟩]) 1 ∧ ((encOpened [⟨16, none⟩]).encAt 1).bound = true ∧ ([0x01] : List Byte) ≠ [] ∧
    ([0x01] : List Byte).length ≤ Config.lenMax ∧ (encOpened [⟨16, none⟩]).sinkAt 1 = [⟨16 * 1, none⟩] :=
  ⟨enc_ready_opened _, by decide, by decide, by decide, by decide⟩

theorem witness_EncWriteSinkError :
    EncReady (encOpened [⟨16, some 5⟩]) 1 ∧ ((encOpened [⟨16, some 5⟩]).encAt 1).bound = true ∧ 0 ≤ 16 * 1 ∧
    16 ≤ 16 * ([0x01] : List Byte).length ∧ (encOpened [⟨16, some 5⟩]).sinkAt 1 = [⟨16, some 5⟩] ∧
    EncReady (encOpened [⟨0, some 5⟩]) 1 ∧ ((encOpened [⟨0, some 5⟩]).encAt 1).bound = true ∧
    (encOpened [⟨0, some 5⟩]).sinkAt 1 = [⟨0, some 5⟩] :=
  ⟨enc_ready_opened _, by decide, by decide, by decide, by decide, enc_ready_opened _, by decide, by decide⟩

theorem witness_EncWriteOfNothing :
    EncReady (encOpened [⟨16, none⟩]) 1 ∧ ((encOpened [⟨16, none⟩]).encAt 1).bound = true :=
  ⟨enc_ready_opened _, by decide⟩

/-- The write that has blocked, the next answer of its sink being the first of `a`; the other encoder, the schedule and the
record are not as they were. -/
def encBlocked (a : List SinkAnswer) : State :=
  ((((startWrite 1 [0x01] ((encOpened []).setLock true (.enc 1))).setSink 1 a).setEnc 0
    { Encoder.reset with bound := true }).emit .reset).setInputs [.serveEnc 1, .accept 0]

/-- The sink has no answer, takes all 16 bytes, or none, 15 or 16 of them with an error; answers may stand behind it. -/
theorem witness_EncWriteBlocksAndResumes :
    EncReady (encOpened []) 1 ∧ ((encOpened []).encAt 1).bound = true ∧ ([0x01] : List Byte) ≠ [] ∧
    ([0x01] : List Byte).length ≤ Config.lenMax ∧ (encOpened []).sinkAt 1 = [] ∧
    ∃ t, exec (.encWrite 1 [0x01]) (encOpened []) = .next t ∧
      ((encBlocked []).inputs = [.serveEnc 1, .accept 0] ∧ (encBlocked []).halted = false ∧
        (encBlocked []).encAt 1 = t.encAt 1 ∧ (encBlocked []).sinkAt 1 = []) ∧
      ∀ a ∈ [(⟨16, none⟩ : SinkAnswer), ⟨0, some 5⟩, ⟨15, some 5⟩, ⟨16, some 5⟩],
        (encBlocked [a, ⟨3, none⟩]).inputs = [.serveEnc 1, .accept 0] ∧ (encBlocked [a, ⟨3, none⟩]).halted = false ∧
        (encBlocked [a, ⟨3, none⟩]).encAt 1 = t.encAt 1 ∧ (encBlocked [a, ⟨3, none⟩]).sinkAt 1 = [a, ⟨3, none⟩] ∧
        a.accepted ≤ 16 * ([0x01] : List Byte).length ∧
        (a.err = none → a.accepted = 16 * ([0x01] : List Byte).length) :=
  ⟨enc_ready_opened _, by decide, by decide, by decide, by decide, _, rfl, by decide, by decide⟩

/-- The read that has blocked, the next answer of its source being the first of `a`; the other decoder, the schedule and
the record are not as they were. -/
def decBlocked (a : List SrcAnswer) : State :=
  ((((beginFill 1 (startJob 1 false 1 ((decOpened []).setLock true (.dec 1)))).setSrc 1 a).setDec 0
    { Decoder.reset with bound := true }).emit .reset).setInputs [.serveDec 1, .accept 0]

/-- A `DEC.INTO` of size 2 that has one byte already. -/
def intoMiddle (a : List SrcAnswer) : State :=
  ((decOpened a).setDec 1
    { Decoder.reset with bound := true, lock := true, job := some ⟨0, true, 2, [0x1B]⟩ }).setInputs [.serveDec 1]

/-- One byte too few without an error, one byte too many with an error, and a source that gives one byte too many. -/
theorem witness_BrokenPortDutyHasNoStep :
    (EncReady (encOpened [⟨15, none⟩]) 1 ∧ ((encOpened [⟨15, none⟩]).encAt 1).bound = true ∧
      (encOpened [⟨15, none⟩]).sinkAt 1 = [⟨15, none⟩] ∧ 15 ≠ 16 * ([0x01] : List Byte).length) ∧
    (EncReady (encOpened [⟨17, some 0⟩]) 1 ∧ ((encOpened [⟨17, some 0⟩]).encAt 1).bound = true ∧
      (encOpened [⟨17, some 0⟩]).sinkAt 1 = [⟨17, some 0⟩] ∧ 16 * ([0x01] : List Byte).length < 17) ∧
    DecReady (decOpened [⟨List.replicate 17 0, .none⟩]) 1 ∧
    ((decOpened [⟨List.replicate 17 0, .none⟩]).decAt 1).bound = true ∧
    ((decOpened [⟨List.replicate 17 0, .none⟩]).decAt 1).phase ≠ .fault ∧ (1 : Arg) ≠ 0 ∧
    (decOpened [⟨List.replicate 17 0, .none⟩]).srcAt 1 = [⟨List.replicate 17 0, .none⟩] ∧
    16 * (1 : Arg).toNat - ((decOpened [⟨List.replicate 17 0, .none⟩]).decAt 1).leftLen.toNat <
      (List.replicate 17 (0 : Byte)).length :=
  ⟨⟨enc_ready_opened _, by decide, by decide, by decide⟩, ⟨enc_ready_opened _, by decide, by decide, by decide⟩,
    dec_ready_opened _, by decide, by decide, by decide, by decide, by decide⟩

/-- The same breaches towards a write that has blocked. -/
theorem witness_BrokenPortDutyHasNoStep_serveEnc :
    (encBlocked [⟨15, none⟩]).inputs = [.serveEnc 1, .accept 0] ∧ (encBlocked [⟨15, none⟩]).halted = false ∧
    ((encBlocked [⟨15, none⟩]).encAt 1).job = some ⟨0, [0x01]⟩ ∧ (encBlocked [⟨15, none⟩]).sinkAt 1 = [⟨15, none⟩] ∧
    15 ≠ ((encBlocked [⟨15, none⟩]).encAt 1).path.escr.length ∧
    ((encBlocked [⟨17, some 0⟩]).encAt 1).job = some ⟨0, [0x01]⟩ ∧
    (encBlocked [⟨17, some 0⟩]).sinkAt 1 = [⟨17, some 0⟩] ∧
    ((encBlocked [⟨17, some 0⟩]).encAt 1).path.escr.length < 17 := by decide

/-- The same breach towards a read that has blocked, and towards a later inner read of a `DEC.INTO`. -/
theorem witness_BrokenPortDutyHasNoStep_serveDec :
    let s := decBlocked [⟨List.replicate 17 0, .none⟩]
    let s' := intoMiddle [⟨List.replicate 17 0, .eos⟩]
    s.inputs = [.serveDec 1, .accept 0] ∧ s.halted = false ∧ (s.decAt 1).job = some ⟨0, false, 1, []⟩ ∧
    s.srcAt 1 = [⟨List.replicate 17 0, .none⟩] ∧
    16 * ((1 : Arg).toNat - ([] : List Byte).length) - (s.decAt 1).leftLen.toNat < 17 ∧
    s'.inputs = [.serveDec 1] ∧ s'.halted = false ∧ (s'.decAt 1).job = some ⟨0, true, 2, [0x1B]⟩ ∧
    s'.srcAt 1 = [⟨List.replicate 17 0, .eos⟩] ∧
    16 * ((2 : Arg).toNat - ([0x1B] : List Byte).length) - (s'.decAt 1).leftLen.toNat < 17 := by decide

theorem witness_SinkStreamKept :
    ((encOpened [⟨16, none⟩]).setInputs [.present 0 ⟨0x61000001, none, [0x01]⟩]).Inv ∧
    (∀ e, SinkStreamHolds ((encOpened [⟨16, none⟩]).setInputs [.present 0 ⟨0x61000001, none, [0x01]⟩]) e) ∧
    ∃ s', step ((encOpened [⟨16, none⟩]).setInputs [.present 0 ⟨0x61000001, none, [0x01]⟩]) = .next s' := by
  refine ⟨inv_of_registers rfl rfl (fun e => ?_) (fun d => .inl (by simp [encOpened, loaded_dec])), fun e _ _ => rfl,
    _, rfl⟩
  by_cases h : e = 1
  · subst h; simp [encOpened]
  · exact .inl (encOpened_enc_ne [⟨16, none⟩] h)

/-! ### Decoders -/

theorem witness_DecOpenBinds :
    DecReady loaded 1 ∧ (1 : UnitIdx).toNat < loaded.params.nAlpha ∧ (loaded.slotAt 1).valid = true :=
  ⟨dec_ready_loaded, by decide, by decide⟩

/-- All the hypotheses of a read of capacity `c` that decodes to `out`, on the state `s` and its source's answer. -/
def ReadMeets (s : State) (c : Arg) (b : List Byte) (st : SrcStatus) (out : List Byte × Option Token) : Prop :=
  (s.decAt 1).bound = true ∧ (s.decAt 1).phase ≠ .fault ∧ c ≠ 0 ∧ s.srcAt 1 = [⟨b, st⟩] ∧
  b.length ≤ 16 * c.toNat - (s.decAt 1).leftLen.toNat ∧
  decBytes (s.tokens (s.decAt 1).asel)
    (((s.decAt 1).leftover ++ b).take (16 * (((s.decAt 1).leftover ++ b).length / 16))) = out

/-- All 16 bytes asked for come, with each status of the source. -/
theorem witness_DecReadDecodes :
    DecReady (decOpened [⟨group1B, .none⟩]) 1 ∧
    ReadMeets (decOpened [⟨group1B, .none⟩]) 1 group1B .none ([0x1B], none) ∧
    DecReady (decOpened [⟨group1B, .eos⟩]) 1 ∧
    ReadMeets (decOpened [⟨group1B, .eos⟩]) 1 group1B .eos ([0x1B], none) ∧
    DecReady (decOpened [⟨group1B, .err 7⟩]) 1 ∧
    ReadMeets (decOpened [⟨group1B, .err 7⟩]) 1 group1B (.err 7) ([0x1B], none) := by
  refine ⟨dec_ready_opened _, ?_, dec_ready_opened _, ?_, dec_ready_opened _, ?_⟩ <;> unfold ReadMeets <;> decide

theorem witness_DecReadInvalidWord :
    DecReady (decOpened [⟨groupBad, .eos⟩]) 1 ∧
    ReadMeets (decOpened [⟨groupBad, .eos⟩]) 1 groupBad .eos ([], some ⟨0x62, 0x62, 0x78, 0x62⟩) := by
  refine ⟨dec_ready_opened _, ?_⟩; unfold ReadMeets; decide

/-- No byte, and one byte short of a group. -/
theorem witness_ZeroProgressRead :
    DecReady (decOpened [⟨[], .none⟩]) 1 ∧ ReadMeets (decOpened [⟨[], .none⟩]) 1 [] .none ([], none) ∧
    ((decOpened [⟨[], .none⟩]).decAt 1).leftover.length + ([] : List Byte).length < 16 ∧
    DecReady (decOpened [⟨group1B.take 15, .none⟩]) 1 ∧
    ReadMeets (decOpened [⟨group1B.take 15, .none⟩]) 1 (group1B.take 15) .none ([], none) ∧
    ((decOpened [⟨group1B.take 15, .none⟩]).decAt 1).leftover.length + (group1B.take 15).length < 16 := by
  refine ⟨dec_ready_opened _, ?_, by decide, dec_ready_opened _, ?_, by decide⟩ <;> unfold ReadMeets <;> decide

theorem witness_FaultIsTerminal :
    DecReady decFaulted 1 ∧ (decFaulted.decAt 1).bound = true ∧ (decFaulted.decAt 1).phase = .fault ∧
    (decFaulted.setInputs [.present 0 ⟨0x71000000, none, []⟩]).Inv ∧
    ∃ s', step (decFaulted.setInputs [.present 0 ⟨0x71000000, none, []⟩]) = .next s' := by
  refine ⟨dec_ready_faulted, by decide, by decide,
    inv_of_registers rfl rfl (fun e => .inl (by simp [decFaulted, loaded_enc])) (fun d => ?_), _, rfl⟩
  by_cases h : d = 1
  · subst h; simp [decFaulted]
  · exact .inl (decFaulted_dec_ne h)

theorem witness_DecReadOfNothing :
    (DecReady (decOpened []) 1 ∧ ((decOpened []).decAt 1).bound = true ∧ ((decOpened []).decAt 1).phase ≠ .fault) ∧
    DecReady decFaulted 1 ∧ (decFaulted.decAt 1).bound = true ∧ (decFaulted.decAt 1).phase = .fault :=
  ⟨⟨dec_ready_opened _, by decide, by decide⟩, dec_ready_faulted, by decide, by decide⟩

/-- What `DecReadBlocksAndResumes` asks of the state `u` in which the blocked read is served with the answer `a`. -/
def ResumeMeets (u : State) (D : Decoder) (a : SrcAnswer) (out : List Byte × Option Token) : Prop :=
  u.inputs = [.serveDec 1, .accept 0] ∧ u.halted = false ∧ u.decAt 1 = D ∧ u.srcAt 1 = [a, ⟨[9], .eos⟩] ∧
  a.bytes.length ≤ 16 * (1 : Arg).toNat - ((decOpened []).decAt 1).leftLen.toNat ∧
  decBytes (u.tokens ((decOpened []).decAt 1).asel)
    ((((decOpened []).decAt 1).leftover ++ a.bytes).take
      (16 * ((((decOpened []).decAt 1).leftover ++ a.bytes).length / 16))) = out

/-- The source has no answer, or answers nothing, one byte short of a group, a whole group with each status, or a bad
token; answers may stand behind it. -/
theorem witness_DecReadBlocksAndResumes :
    DecReady (decOpened []) 1 ∧ ((decOpened []).decAt 1).bound = true ∧ ((decOpened []).decAt 1).phase ≠ .fault ∧
    (1 : Arg) ≠ 0 ∧ (decOpened []).srcAt 1 = [] ∧
    ∃ t, exec (.decRead 1 1) (decOpened []) = .next t ∧
      ((decBlocked []).inputs = [.serveDec 1, .accept 0] ∧ (decBlocked []).halted = false ∧
        (decBlocked []).decAt 1 = t.decAt 1 ∧ (decBlocked []).srcAt 1 = []) ∧
      ResumeMeets (decBlocked [⟨[], .none⟩, ⟨[9], .eos⟩]) (t.decAt 1) ⟨[], .none⟩ ([], none) ∧
      ResumeMeets (decBlocked [⟨group1B.take 15, .eos⟩, ⟨[9], .eos⟩]) (t.decAt 1) ⟨group1B.take 15, .eos⟩ ([], none) ∧
      ResumeMeets (decBlocked [⟨group1B, .none⟩, ⟨[9], .eos⟩]) (t.decAt 1) ⟨group1B, .none⟩ ([0x1B], none) ∧
      ResumeMeets (decBlocked [⟨group1B, .eos⟩, ⟨[9], .eos⟩]) (t.decAt 1) ⟨group1B, .eos⟩ ([0x1B], none) ∧
      ResumeMeets (decBlocked [⟨group1B, .err 7⟩, ⟨[9], .eos⟩]) (t.decAt 1) ⟨group1B, .err 7⟩ ([0x1B], none) ∧
      ResumeMeets (decBlocked [⟨groupBad, .eos⟩, ⟨[9], .eos⟩]) (t.decAt 1) ⟨groupBad, .eos⟩
        ([], some ⟨0x62, 0x62, 0x78, 0x62⟩) := by
  refine ⟨dec_ready_opened _, by decide, by decide, by decide, by decide, _, rfl, by decide, ?_, ?_, ?_, ?_, ?_, ?_⟩ <;>
    unfold ResumeMeets <;> decide

theorem witness_DecReadBounds :
    ∃ t r tl, exec (.decRead 1 1) (decOpened [⟨group1B, .none⟩]) = .next t ∧
      t.trace = .result 0 (some (.decRead 1 1)) r :: tl ∧ t.trace ≠ (decOpened [⟨group1B, .none⟩]).trace :=
  ⟨_, _, _, rfl, rfl, by decide⟩

/-- A decoder that has seen the first two bytes of a group: its carry holds, and a read brings it a step further. -/
def decMiddle : State :=
  ((decOpened [⟨group1B.drop 2, .none⟩]).setDec 1
    { Decoder.reset with bound := true, leftLen := 2, left := (Vector.replicate 15 0x64) }).emit
    (.srcRead 1 16 ⟨[0x64, 0x64], .none⟩)

theorem decMiddle_dec (d : UnitIdx) (h : d ≠ 1) : decMiddle.decAt d = Decoder.reset :=
  (setDec_decAt_ne _ _ _ _ h).trans (decOpened_dec_ne _ h)

theorem decMiddle_inv : decMiddle.Inv := by
  have hi := decOpened_inv [⟨group1B.drop 2, .none⟩]
  refine ⟨hi.params, hi.slots, fun e => ⟨(hi.enc e).bound, (hi.enc e).lock, (hi.enc e).hwm, (hi.enc e).job⟩, ?_⟩
  intro d
  by_cases h : d = 1
  · subst h
    refine ⟨fun _ => by decide, by decide, fun _ => .inl (by decide), ?_⟩
    intro j hj
    exact absurd hj (by simp [decMiddle, Decoder.reset])
  · refine ⟨?_, ?_, ?_, ?_⟩ <;> rw [decMiddle_dec d h] <;> simp [Decoder.reset]

theorem decMiddle_carry (d : UnitIdx) : CarryHolds decMiddle d := by
  by_cases h : d = 1
  · subst h
    intro _ _
    exact ⟨by decide, by decide⟩
  · intro hb
    rw [decMiddle_dec d h] at hb
    exact absurd hb (by simp [Decoder.reset])

theorem witness_CarryKept :
    (decMiddle.setInputs [.present 0 ⟨0x81000001, none, []⟩]).Inv ∧
    (∀ d, CarryHolds (decMiddle.setInputs [.present 0 ⟨0x81000001, none, []⟩]) d) ∧
    ∃ s', step (decMiddle.setInputs [.present 0 ⟨0x81000001, none, []⟩]) = .next s' :=
  ⟨⟨decMiddle_inv.params, decMiddle_inv.slots,
      fun e => ⟨(decMiddle_inv.enc e).bound, (decMiddle_inv.enc e).lock, (decMiddle_inv.enc e).hwm,
        (decMiddle_inv.enc e).job⟩,
      fun d => ⟨(decMiddle_inv.dec d).bound, (decMiddle_inv.dec d).lock, (decMiddle_inv.dec d).quiet,
        (decMiddle_inv.dec d).job⟩⟩,
    decMiddle_carry, _, rfl⟩

/-- A decoder that has read one whole group in two chunks and delivered its byte. -/
def decRound : State :=
  (((decOpened []).emit (.srcRead 1 16 ⟨group1B.take 5, .none⟩)).emit
    (.srcRead 1 11 ⟨group1B.drop 5, .none⟩)).emit (.result 0 (some (.decRead 1 1)) ⟨.ok, 1, 0, [0x1B]⟩)

theorem witness_ChunkedRoundTrip :
    decRound.Inv ∧ CarryHolds decRound 1 ∧ (decRound.decAt 1).bound = true ∧ (decRound.decAt 1).phase ≠ .fault ∧
    seenBytes 1 decRound.trace = encBytes (decRound.tokens (decRound.decAt 1).asel) [0x1B] := by
  have hi := decOpened_inv []
  refine ⟨⟨hi.params, hi.slots, fun e => ⟨(hi.enc e).bound, (hi.enc e).lock, (hi.enc e).hwm, (hi.enc e).job⟩,
    fun d => ⟨(hi.dec d).bound, (hi.dec d).lock, (hi.dec d).quiet, (hi.dec d).job⟩⟩, ?_, by decide, by decide,
    by decide⟩
  intro _ _
  exact ⟨by decide, by decide⟩

theorem witness_DecIntoAtOnce :
    DecReady decFaulted 1 ∧ (decFaulted.decAt 1).bound = true ∧ (decFaulted.decAt 1).phase = .fault ∧ (1 : Arg) ≠ 0 :=
  ⟨dec_ready_faulted, by decide, by decide, by decide⟩

/-- No answer, a full destination, one that is not full, an end of stream, a source error, and a bad token. -/
theorem witness_DecIntoFirstRead :
    (∀ a, DecReady (decOpened a) 1) ∧
    (((decOpened []).decAt 1).bound = true ∧ ((decOpened []).decAt 1).phase ≠ .fault ∧ (1 : Arg) ≠ 0 ∧
      (decOpened []).srcAt 1 = []) ∧
    ReadMeets (decOpened [⟨group1B, .none⟩]) 1 group1B .none ([0x1B], none) ∧
    ReadMeets (decOpened [⟨group1B, .none⟩]) 2 group1B .none ([0x1B], none) ∧
    ReadMeets (decOpened [⟨group1B, .eos⟩]) 1 group1B .eos ([0x1B], none) ∧
    ReadMeets (decOpened [⟨group1B, .err 7⟩]) 1 group1B (.err 7) ([0x1B], none) ∧
    ReadMeets (decOpened [⟨groupBad, .eos⟩]) 1 groupBad .eos ([], some ⟨0x62, 0x62, 0x78, 0x62⟩) := by
  refine ⟨dec_ready_opened, by decide, ?_, ?_, ?_, ?_, ?_⟩ <;> unfold ReadMeets <;> decide

/-- What `DecIntoNextRead` asks of the state and the answer of its source. -/
def NextReadMeets (s : State) (b : List Byte) (st : SrcStatus) (out : List Byte × Option Token) : Prop :=
  s.inputs = [.serveDec 1] ∧ s.halted = false ∧ (s.decAt 1).job = some ⟨0, true, 2, [0x1B]⟩ ∧
  ([0x1B] : List Byte).length < (2 : Arg).toNat ∧ s.srcAt 1 = [⟨b, st⟩] ∧
  b.length ≤ 16 * ((2 : Arg).toNat - ([0x1B] : List Byte).length) - (s.decAt 1).leftLen.toNat ∧
  decBytes (s.tokens (s.decAt 1).asel)
    (((s.decAt 1).leftover ++ b).take (16 * (((s.decAt 1).leftover ++ b).length / 16))) = out

/-- A second inner read that fills the destination, goes on (after no byte and after 15), meets the end of the stream, a
source error and a bad token. -/
theorem witness_DecIntoNextRead :
    NextReadMeets (intoMiddle [⟨group1B, .none⟩]) group1B .none ([0x1B], none) ∧
    NextReadMeets (intoMiddle [⟨[], .none⟩]) [] .none ([], none) ∧
    NextReadMeets (intoMiddle [⟨group1B.take 15, .none⟩]) (group1B.take 15) .none ([], none) ∧
    NextReadMeets (intoMiddle [⟨group1B, .eos⟩]) group1B .eos ([0x1B], none) ∧
    NextReadMeets (intoMiddle [⟨[], .err 7⟩]) [] (.err 7) ([], none) ∧
    NextReadMeets (intoMiddle [⟨groupBad, .eos⟩]) groupBad .eos ([], some ⟨0x62, 0x62, 0x78, 0x62⟩) := by
  refine ⟨?_, ?_, ?_, ?_, ?_, ?_⟩ <;> unfold NextReadMeets <;> decide

/-- It waits for its source. -/
theorem witness_DecIntoNextRead_waits :
    (intoMiddle []).inputs = [.serveDec 1] ∧ (intoMiddle []).halted = false ∧
    ((intoMiddle []).decAt 1).job = some ⟨0, true, 2, [0x1B]⟩ ∧ (intoMiddle []).srcAt 1 = [] := by decide

/-- A state of `witness_DecIntoNextRead` in which the command goes on meets the invariant, so that the lock stays taken. -/
theorem witness_DecIntoNextRead_inv :
    (intoMiddle [⟨[], .none⟩]).Inv ∧ ((intoMiddle [⟨[], .none⟩]).decAt 1).lock = true := by
  have hi := decOpened_inv [⟨[], .none⟩]
  refine ⟨⟨hi.params, hi.slots, fun e => ⟨(hi.enc e).bound, (hi.enc e).lock, (hi.enc e).hwm, (hi.enc e).job⟩,
    fun d => ?_⟩, by decide⟩
  by_cases h : d = 1
  · subst h
    refine ⟨fun _ => by decide, by decide, fun h => absurd h (by decide), fun j hj => ?_⟩
    obtain rfl : (⟨0, true, 2, [0x1B]⟩ : DecJob) = j := Option.some.inj hj
    exact ⟨by decide, by decide, by decide, .inr ⟨by decide, rfl⟩⟩
  · have hd : (intoMiddle [⟨[], .none⟩]).decAt d = Decoder.reset :=
      (setDec_decAt_ne _ _ _ _ h).trans (decOpened_dec_ne _ h)
    refine ⟨?_, ?_, ?_, ?_⟩ <;> rw [hd] <;> simp [Decoder.reset]

/-! ### One-shot commands -/

theorem witness_OsEncodeResult :
    SlotReady loaded 1 ∧ (loaded.slotAt 1).valid = true ∧ (15 : Word32).toNat < 16 * ([0x1B] : List Byte).length ∧
    16 * ([0x1B] : List Byte).length ≤ (16 : Word32).toNat :=
  ⟨slot_ready_loaded, by decide, by decide, by decide⟩

theorem witness_OsDecodeResult :
    SlotReady loaded 0 ∧ (loaded.slotAt 0).valid = true ∧ (group1B.take 15).length % 16 ≠ 0 ∧ group1B.length % 16 = 0 ∧
    (0 : Word32).toNat < group1B.length / 16 ∧ group1B.length / 16 ≤ (1 : Word32).toNat ∧
    decBytes (loaded.tokens 0) group1B = ([0x1B], none) ∧ groupBad.length % 16 = 0 ∧
    groupBad.length / 16 ≤ (1 : Word32).toNat ∧
    decBytes (loaded.tokens 0) groupBad = ([], some ⟨0x62, 0x62, 0x78, 0x62⟩) :=
  ⟨⟨by decide, by decide⟩, by decide, by decide, by decide, by decide, by decide, by decide, by decide, by decide,
    by decide⟩

theorem witness_PseudoOperationsFit :
    (List.replicate 16777215 (0 : Byte)).length ≤ Config.lenMax ∧ SlotReady loaded 1 ∧ (loaded.slotAt 1).valid = true :=
  ⟨longest_fits, slot_ready_loaded, by decide⟩

theorem witness_OneShotRoundTrip :
    (decOpened []).Inv ∧ SlotReady (decOpened []) 1 ∧ ((decOpened []).slotAt 1).valid = true ∧
    16 * ([0x1B] : List Byte).length ≤ (16 : Word32).toNat ∧ ([0x1B] : List Byte).length ≤ (1 : Word32).toNat :=
  ⟨decOpened_inv [], ⟨by decide, by decide⟩, by decide, by decide, by decide⟩

/-! ### Frames and the whole machine -/

theorem witness_AlphabetAndOneShotFrame :
    (∃ t, exec (.alphaEncv 1 0) loaded = .next t) ∧ (∃ t, exec (.alphaDect 1 ⟨0, 0, 0, 0⟩) loaded = .next t) ∧
    (∃ t, exec (.osEncode 1 [1] 16) loaded = .next t) ∧ (∃ t, exec (.osDecode 1 boat 1) loaded = .next t) ∧
    (∃ t, exec (.alphaLoad 1 abcd) State.reset = .next t) ∧ (∃ t, exec (.alphaMust 1 abcd) loaded = .next t) :=
  ⟨⟨_, rfl⟩, ⟨_, rfl⟩, ⟨_, rfl⟩, ⟨_, rfl⟩, ⟨_, rfl⟩, ⟨_, rfl⟩⟩

theorem witness_EncoderCommandsFrame :
    (∃ t, exec (.encOpen 1 1) loaded = .next t) ∧ ([0x01] : List Byte).length ≤ Config.lenMax ∧
    ∃ t, exec (.encWrite 1 [0x01]) (encOpened [⟨16, none⟩]) = .next t :=
  ⟨⟨_, rfl⟩, by decide, ⟨_, rfl⟩⟩

theorem witness_DecoderCommandsFrame :
    (∃ t, exec (.decOpen 1 1) loaded = .next t) ∧
    (∃ t, exec (.decRead 1 1) (decOpened [⟨group1B, .none⟩]) = .next t) ∧
    ∃ t, exec (.decInto 1 1) (decOpened [⟨group1B, .none⟩]) = .next t :=
  ⟨⟨_, rfl⟩, ⟨_, rfl⟩, ⟨_, rfl⟩⟩

/-- Two machines that differ in the other instance, in its port and in the record. -/
theorem witness_InstanceIsolation :
    let s1 := decOpened [⟨group1B, .none⟩]
    let s2 := ((s1.setDec 0 { Decoder.reset with bound := true }).setSrc 0 [⟨[1], .eos⟩]).emit .reset
    targetOf (.decRead 1 1) = .dec 1 ∧ s1.decAt 1 = s2.decAt 1 ∧ s1.srcAt 1 = s2.srcAt 1 ∧ s1.alpha = s2.alpha ∧
    s1.params = s2.params ∧ s1.halted = s2.halted ∧ s1.caller = s2.caller ∧ ∃ t, exec (.decRead 1 1) s1 = .next t :=
  ⟨rfl, by decide, by decide, rfl, rfl, rfl, rfl, _, rfl⟩

theorem witness_InstanceIsolation_enc :
    let s1 := encOpened [⟨16, none⟩]
    let s2 := ((s1.setEnc 0 { Encoder.reset with bound := true }).setSink 0 [⟨0, some 1⟩]).emit .reset
    targetOf (.encWrite 1 [0x01]) = .enc 1 ∧ s1.encAt 1 = s2.encAt 1 ∧ s1.sinkAt 1 = s2.sinkAt 1 ∧
    s1.alpha = s2.alpha ∧ s1.params = s2.params ∧ s1.halted = s2.halted ∧ s1.caller = s2.caller ∧
    ∃ t, exec (.encWrite 1 [0x01]) s1 = .next t :=
  ⟨rfl, by decide, by decide, rfl, rfl, rfl, rfl, _, rfl⟩

theorem witness_InvKept :
    (decMiddle.setInputs [.present 0 ⟨0x81000001, none, []⟩]).Inv ∧
    ∃ s', step (decMiddle.setInputs [.present 0 ⟨0x81000001, none, []⟩]) = .next s' :=
  ⟨witness_CarryKept.1, _, rfl⟩

theorem witness_ValidSlotImmutable :
    (loaded.slotAt 1).valid = true ∧
    ∃ s', step (loaded.setInputs [.present 0 ⟨0x21000010, none, abcd⟩]) = .next s' :=
  ⟨by decide, _, rfl⟩

theorem witness_HaltedUntilReset :
    (loaded.setHalted true).halted = true ∧ (loaded.setHalted true).inputs = [] ∧
    (∃ s', step ((loaded.setHalted true).setInputs [.present 0 ⟨0x31000000, none, []⟩]) = .next s') ∧
    State.reset.halted = false ∧ ∃ t, exec (.alphaMust 1 dup23) State.reset = .next t ∧ t.halted = true :=
  ⟨rfl, rfl, ⟨_, rfl⟩, rfl, _, rfl, rfl⟩

theorem witness_ResetValues : (loaded.setInputs [.reset [3]]).inputs = [.reset [3]] := rfl

theorem witness_ResetAbandonsCommands : (decMiddle.setInputs [.reset []]).inputs = [.reset []] := rfl

end Sys2Proof.Tests
end

/-! SUPPORT. The statements of spec/00_scope.md: what a step runs (R6), and that a command depends on nothing but its
own encoder or decoder (R7). -/

namespace Sys2Proof.Machine

/-! ## A step and the command it takes up -/

theorem step_of_inputs {s : State} {x : Input} {rest : List Input} (hi : s.inputs = x :: rest) :
    step s = takeInput x (s.setInputs rest) := by
  simp [step, hi]

theorem runCommand_of_decode {c : Command} {i : Instr} (hd : decode c = .ok i) (s : State) :
    runCommand c s = exec i s := by
  simp [runCommand, hd]

theorem takeInput_accept {s : State} {k caller : Nat} {c : Command} (hw : s.waiting[k]? = some (caller, c)) :
    takeInput (.accept k) s = runCommand c ((s.setCaller caller).setWaiting (s.waiting.eraseIdx k)) := by
  simp [takeInput, hw]

theorem decodeTableWord_eq_some {nbits w : Nat} {i : Instr} :
    decodeTableWord nbits w = some i ↔ decode (tableCommand nbits w) = .ok i := by
  unfold decodeTableWord
  cases decode (tableCommand nbits w) <;> simp

theorem step_present {s : State} {caller : Nat} {c : Command} {rest : List Input} {i : Instr}
    (hi : s.inputs = .present caller c :: rest) (hd : decode c = .ok i) :
    step s = exec i ((s.setInputs rest).setCaller caller) :=
  (step_of_inputs hi).trans (runCommand_of_decode hd _)

theorem step_accept {s : State} {k caller : Nat} {c : Command} {rest : List Input} {i : Instr}
    (hi : s.inputs = .accept k :: rest) (hw : s.waiting[k]? = some (caller, c)) (hd : decode c = .ok i) :
    step s = exec i (((s.setInputs rest).setCaller caller).setWaiting (s.waiting.eraseIdx k)) := by
  rw [step_of_inputs hi, takeInput_accept (s := s.setInputs rest) hw, runCommand_of_decode hd, setInputs_waiting]

/-- Settles O8: a presented command, one that waited, and a word placed by `withFetchWord`, which is a presented command
of the state's own caller. -/
theorem stepRunsDecodedCommand : Obligations.StepRunsDecodedCommand :=
  ⟨fun _ _ _ _ _ hi hd => step_present hi hd,
    fun _ _ _ _ _ _ hi hw hd => step_accept hi hw hd,
    fun s nbits w _ hd =>
      step_present (s := s.withFetchWord nbits w) (caller := s.caller) (rest := s.inputs) rfl
        (decodeTableWord_eq_some.1 hd)⟩

/-! ## Two machines that agree on one encoder or decoder

Isolation is a simulation: `Twins` relates two machines that agree on all that a command on the object `t` may look at,
each shared operation keeps twins twins, and so does each command on an encoder or a decoder. The datapath registers
stand outside the relation, since they hold free values between commands (R28, R35); a command fills those it reads
before it reads them. -/

/-- The two machines hold the same encoder or decoder, but for its datapath registers, and the same answers of its
port. -/
def SameObject (s1 s2 : State) : Target → Prop
  | .alpha _ => True
  | .enc e => SameKeptEnc (s1.encAt e) (s2.encAt e) ∧ s1.sinkAt e = s2.sinkAt e
  | .dec d => SameKeptDec (s1.decAt d) (s2.decAt d) ∧ s1.srcAt d = s2.srcAt d

/-- The two machines agree on the object `t` and on what all commands share, and since their records were `b1` and `b2`
they have made the same events. -/
structure Twins (t : Target) (b1 b2 : List Output) (s1 s2 : State) : Prop where
  halted : s1.halted = s2.halted
  alpha : s1.alpha = s2.alpha
  params : s1.params = s2.params
  caller : s1.caller = s2.caller
  object : SameObject s1 s2 t
  trace : ∃ new, s1.trace = new ++ b1 ∧ s2.trace = new ++ b2

/-- Both answers are next states related by `R`, or both are the same refusal. -/
inductive SameAnswer (R : State → State → Prop) : Answer → Answer → Prop where
  | next {t1 t2 : State} (h : R t1 t2) : SameAnswer R (.next t1) (.next t2)
  | refused (r : Refusal) : SameAnswer R (.refused r) (.refused r)

theorem SameAnswer.exists_next {R : State → State → Prop} {x y : Answer} {t1 : State} (h : SameAnswer R x y)
    (hx : x = .next t1) : ∃ t2, y = .next t2 ∧ R t1 t2 := by
  subst hx
  cases h with
  | next h => exact ⟨_, rfl, h⟩

theorem SameKeptEnc.refl (x : Encoder) : SameKeptEnc x x := ⟨rfl, rfl, rfl, rfl, rfl⟩

theorem SameKeptDec.refl (x : Decoder) : SameKeptDec x x := ⟨rfl, rfl, rfl, rfl, rfl, rfl, rfl, rfl⟩

theorem SameKeptDec.leftover {x y : Decoder} (h : SameKeptDec x y) : x.leftover = y.leftover := by
  simp [Decoder.leftover, h.left, h.leftLen]

theorem SameKeptDec.setLeftover {x y : Decoder} (h : SameKeptDec x y) (tail : List Byte) :
    SameKeptDec (x.setLeftover tail) (y.setLeftover tail) :=
  ⟨h.bound, h.asel, h.lock, h.phase, rfl, by simp [Decoder.setLeftover, h.left], h.bad, h.job⟩

namespace Twins

variable {t : Target} {b1 b2 : List Output} {s1 s2 : State} {e d : UnitIdx} {i : Instr}

/-! ### What twins agree on -/

theorem enc (h : Twins (.enc e) b1 b2 s1 s2) : SameKeptEnc (s1.encAt e) (s2.encAt e) := h.object.1

theorem sink (h : Twins (.enc e) b1 b2 s1 s2) : s1.sinkAt e = s2.sinkAt e := h.object.2

theorem dec (h : Twins (.dec d) b1 b2 s1 s2) : SameKeptDec (s1.decAt d) (s2.decAt d) := h.object.1

theorem src (h : Twins (.dec d) b1 b2 s1 s2) : s1.srcAt d = s2.srcAt d := h.object.2

theorem slotAt (h : Twins t b1 b2 s1 s2) (a : UnitIdx) : s1.slotAt a = s2.slotAt a := by
  simp [State.slotAt, h.alpha]

theorem tokens (h : Twins t b1 b2 s1 s2) (a : UnitIdx) : s1.tokens a = s2.tokens a := by
  simp [State.tokens, h.slotAt a]

theorem slotInRange (h : Twins t b1 b2 s1 s2) (a : UnitIdx) : s1.slotInRange a = s2.slotInRange a := by
  simp [State.slotInRange, h.params]

theorem inRange (h : Twins t b1 b2 s1 s2) (t' : Target) : s1.inRange t' = s2.inRange t' := by
  cases t' <;> simp [State.inRange, h.params]

theorem locked (h : Twins t b1 b2 s1 s2) : s1.locked t = s2.locked t := by
  cases t with
  | alpha a => rfl
  | enc e => exact h.enc.lock
  | dec d => exact h.dec.lock

theorem heldBack (h : Twins t b1 b2 s1 s2) : s1.heldBack t = s2.heldBack t := by
  simp [State.heldBack, h.halted, h.inRange, h.locked]

/-! ### What keeps twins twins -/

theorem emit (h : Twins t b1 b2 s1 s2) (o : Output) : Twins t b1 b2 (s1.emit o) (s2.emit o) := by
  obtain ⟨new, h1, h2⟩ := h.trace
  exact { h with trace := ⟨o :: new, by simp [h1], by simp [h2]⟩ }

theorem hold (h : Twins t b1 b2 s1 s2) (c : Command) : Twins t b1 b2 (s1.hold c) (s2.hold c) := { h with }

theorem setEnc (h : Twins (.enc e) b1 b2 s1 s2) {x y : Encoder} (hk : SameKeptEnc x y) :
    Twins (.enc e) b1 b2 (s1.setEnc e x) (s2.setEnc e y) :=
  { h with object := ⟨by simpa using hk, h.sink⟩ }

theorem setDec (h : Twins (.dec d) b1 b2 s1 s2) {x y : Decoder} (hk : SameKeptDec x y) :
    Twins (.dec d) b1 b2 (s1.setDec d x) (s2.setDec d y) :=
  { h with object := ⟨by simpa using hk, h.src⟩ }

theorem setSink (h : Twins (.enc e) b1 b2 s1 s2) (l : List SinkAnswer) :
    Twins (.enc e) b1 b2 (s1.setSink e l) (s2.setSink e l) :=
  { h with object := ⟨h.enc, by simp⟩ }

theorem setSrc (h : Twins (.dec d) b1 b2 s1 s2) (l : List SrcAnswer) :
    Twins (.dec d) b1 b2 (s1.setSrc d l) (s2.setSrc d l) :=
  { h with object := ⟨h.dec, by simp⟩ }

theorem setLock (h : Twins t b1 b2 s1 s2) (b : Bool) : Twins t b1 b2 (s1.setLock b t) (s2.setLock b t) := by
  cases t with
  | alpha a => exact h
  | enc e => exact h.setEnc { h.enc with lock := rfl }
  | dec d => exact h.setDec { h.dec with lock := rfl }

/-! ### The prologue and the end of a command -/

theorem finish (h : Twins (targetOf i) b1 b2 s1 s2) (st : Status) (n : Nat) (info : Word32) (data : List Byte) :
    SameAnswer (Twins (targetOf i) b1 b2) (finish i s1 st n info data) (finish i s2 st n info data) := by
  unfold Machine.finish
  rw [h.caller]
  exact .next ((h.setLock false).emit _)

theorem prologue (h : Twins (targetOf i) b1 b2 s1 s2) {body : State → Answer}
    (hb : ∀ {u1 u2 : State}, Twins (targetOf i) b1 b2 u1 u2 →
      SameAnswer (Twins (targetOf i) b1 b2) (body u1) (body u2)) :
    SameAnswer (Twins (targetOf i) b1 b2) (prologue i s1 body) (prologue i s2 body) := by
  unfold Machine.prologue
  rw [h.heldBack, h.inRange, h.caller]
  split
  · exact .next (h.hold _)
  · split
    · exact hb (h.setLock true)
    · exact .next (h.emit _)

/-! ### The encoder and its sink -/

theorem endWrite (h : Twins (.enc e) b1 b2 s1 s2) (j : EncJob) (st : Status) (n : Nat) (info : Word32) :
    Twins (.enc e) b1 b2 (endWrite e j st n info s1) (endWrite e j st n info s2) := by
  refine emit (setEnc h ?_) _
  exact { h.enc with lock := rfl, job := rfl }

theorem sinkAnswered (h : Twins (.enc e) b1 b2 s1 s2) (j : EncJob) (a : SinkAnswer) :
    Twins (.enc e) b1 b2 (sinkAnswered e j a s1) (sinkAnswered e j a s2) := by
  unfold Machine.sinkAnswered
  cases a.err with
  | none => exact h.endWrite _ _ _ _
  | some c => exact h.endWrite _ _ _ _

theorem startWrite (h : Twins (.enc e) b1 b2 s1 s2) (p : List Byte) :
    Twins (.enc e) b1 b2 (startWrite e p s1) (startWrite e p s2) :=
  h.setEnc { h.enc with hwm := by simp [h.enc.hwm], job := by simp [h.caller] }

/-- The scratch that a write fills depends on nothing that the datapath registers held before. -/
theorem startWrite_escr (h : Twins (.enc e) b1 b2 s1 s2) (p : List Byte) :
    ((Machine.startWrite e p s1).encAt e).path.escr = ((Machine.startWrite e p s2).encAt e).path.escr := by
  simp [Machine.startWrite, encodePayload_escr, h.enc.asel, h.tokens]

theorem serveEncoder (h : Twins (.enc e) b1 b2 s1 s2)
    (hp : (s1.encAt e).path.escr = (s2.encAt e).path.escr) :
    SameAnswer (Twins (.enc e) b1 b2) (serveEncoder e s1) (serveEncoder e s2) := by
  unfold Machine.serveEncoder
  rw [h.enc.job, h.sink, hp]
  cases (s2.encAt e).job with
  | none => exact .next h
  | some j =>
    cases s2.sinkAt e with
    | nil => exact .next h
    | cons a rest =>
      dsimp only
      split
      · exact .next (((h.setSink rest).emit _).sinkAnswered j a)
      · exact .refused _

/-! ### The decoder and its source -/

theorem startJob (h : Twins (.dec d) b1 b2 s1 s2) (into : Bool) (cap : Arg) :
    Twins (.dec d) b1 b2 (startJob d into cap s1) (startJob d into cap s2) :=
  h.setDec { h.dec with job := by simp [h.caller] }

theorem endJob (h : Twins (.dec d) b1 b2 s1 s2) (j : DecJob) (st : Status) (info : Word32) (data : List Byte) :
    Twins (.dec d) b1 b2 (endJob d j st info data s1) (endJob d j st info data s2) := by
  refine emit (setDec h ?_) _
  exact { h.dec with lock := rfl, job := rfl }

theorem endRead (h : Twins (.dec d) b1 b2 s1 s2) (j : DecJob) (st : Status) (info : Word32) (data : List Byte) :
    Twins (.dec d) b1 b2 (endRead d j st info data s1) (endRead d j st info data s2) := by
  unfold Machine.endRead
  split
  · dsimp only
    split
    · split
      · exact h.setDec { h.dec with job := rfl }
      · exact h.endJob _ _ _ _
    · exact h.endJob _ _ _ _
    · exact h.endJob _ _ _ _
  · exact h.endJob _ _ _ _

theorem beginFill (h : Twins (.dec d) b1 b2 s1 s2) :
    Twins (.dec d) b1 b2 (beginFill d s1) (beginFill d s2) :=
  h.setDec { h.dec with phase := rfl }

/-- The scratch that a read starts with is the leftover, whatever the datapath registers held before. -/
theorem beginFill_dscr (h : Twins (.dec d) b1 b2 s1 s2) :
    ((Machine.beginFill d s1).decAt d).path.dscr = ((Machine.beginFill d s2).decAt d).path.dscr := by
  simp [Machine.beginFill, h.dec.leftover]

theorem enterFault (h : Twins (.dec d) b1 b2 s1 s2) (w : Token) :
    Twins (.dec d) b1 b2 (enterFault d w s1) (enterFault d w s2) :=
  h.setDec { h.dec with phase := rfl, bad := rfl, leftLen := rfl }

theorem carryTail (h : Twins (.dec d) b1 b2 s1 s2) (tail : List Byte) :
    Twins (.dec d) b1 b2 (carryTail d tail s1) (carryTail d tail s2) :=
  h.setDec { h.dec.setLeftover tail with phase := rfl }

theorem sourceAnswered (h : Twins (.dec d) b1 b2 s1 s2)
    (hp : (s1.decAt d).path.dscr = (s2.decAt d).path.dscr) (j : DecJob) (a : SrcAnswer) :
    Twins (.dec d) b1 b2 (sourceAnswered d j a s1) (sourceAnswered d j a s2) := by
  unfold Machine.sourceAnswered
  rw [hp, h.dec.asel, h.tokens]
  dsimp only
  split
  · exact (h.enterFault _).endRead _ _ _ _
  · exact (h.carryTail _).endRead _ _ _ _

theorem serveDecoder (h : Twins (.dec d) b1 b2 s1 s2) :
    SameAnswer (Twins (.dec d) b1 b2) (serveDecoder d s1) (serveDecoder d s2) := by
  unfold Machine.serveDecoder
  rw [h.dec.job, h.src, h.dec.leftLen]
  cases (s2.decAt d).job with
  | none => exact .next h
  | some j =>
    cases s2.srcAt d with
    | nil => exact .next h.beginFill
    | cons a rest =>
      dsimp only
      split
      · exact .next (((h.beginFill.setSrc rest).emit _).sourceAnswered h.beginFill_dscr j a)
      · exact .refused _

/-! ### The commands on an encoder or a decoder -/

theorem execEncOpen (h : Twins (.enc e) b1 b2 s1 s2) (a : UnitIdx) :
    SameAnswer (Twins (.enc e) b1 b2) (execEncOpen e a s1) (execEncOpen e a s2) := by
  refine h.prologue (i := .encOpen e a) fun {u1 u2} (k : Twins (.enc e) b1 b2 u1 u2) => ?_
  rw [k.slotInRange, k.slotAt]
  split
  · refine finish (i := .encOpen e a) (k.setEnc ?_) _ _ _ _
    exact { k.enc with bound := rfl, asel := rfl, hwm := rfl }
  · exact k.finish (i := .encOpen e a) _ _ _ _

theorem execEncWrite (h : Twins (.enc e) b1 b2 s1 s2) (p : List Byte) :
    SameAnswer (Twins (.enc e) b1 b2) (execEncWrite e p s1) (execEncWrite e p s2) := by
  refine h.prologue (i := .encWrite e p) fun {u1 u2} (k : Twins (.enc e) b1 b2 u1 u2) => ?_
  rw [k.enc.bound, k.caller]
  split
  · split
    · exact .next ((k.startWrite p).endWrite _ _ _ _)
    · exact (k.startWrite p).serveEncoder (k.startWrite_escr p)
  · exact k.finish (i := .encWrite e p) _ _ _ _

theorem execDecOpen (h : Twins (.dec d) b1 b2 s1 s2) (a : UnitIdx) :
    SameAnswer (Twins (.dec d) b1 b2) (execDecOpen d a s1) (execDecOpen d a s2) := by
  refine h.prologue (i := .decOpen d a) fun {u1 u2} (k : Twins (.dec d) b1 b2 u1 u2) => ?_
  rw [k.slotInRange, k.slotAt]
  split
  · refine finish (i := .decOpen d a) (k.setDec ?_) _ _ _ _
    exact { k.dec with bound := rfl, asel := rfl, leftLen := rfl, phase := rfl }
  · exact k.finish (i := .decOpen d a) _ _ _ _

theorem execDecRead (h : Twins (.dec d) b1 b2 s1 s2) (c : Arg) :
    SameAnswer (Twins (.dec d) b1 b2) (execDecRead d c s1) (execDecRead d c s2) := by
  refine h.prologue (i := .decRead d c) fun {u1 u2} (k : Twins (.dec d) b1 b2 u1 u2) => ?_
  rw [k.dec.bound, k.dec.phase, k.dec.bad]
  have ends := k.finish (i := .decRead d c)
  split
  · split
    · exact ends _ _ _ _
    · split
      · exact ends _ _ _ _
      · exact (k.startJob false c).serveDecoder
  · exact ends _ _ _ _

theorem execDecInto (h : Twins (.dec d) b1 b2 s1 s2) (n : Arg) :
    SameAnswer (Twins (.dec d) b1 b2) (execDecInto d n s1) (execDecInto d n s2) := by
  refine h.prologue (i := .decInto d n) fun {u1 u2} (k : Twins (.dec d) b1 b2 u1 u2) => ?_
  rw [k.dec.bound, k.dec.phase, k.dec.bad]
  have ends := k.finish (i := .decInto d n)
  split
  · split
    · exact ends _ _ _ _
    · split
      · exact ends _ _ _ _
      · exact (k.startJob true n).serveDecoder
  · exact ends _ _ _ _

/-- The same command on twins of its encoder gives the same answer, and twins again. -/
theorem exec_enc (h : Twins (.enc e) b1 b2 s1 s2) (ht : targetOf i = .enc e) :
    SameAnswer (Twins (.enc e) b1 b2) (exec i s1) (exec i s2) := by
  cases i with
  | encOpen e' a => cases ht; exact h.execEncOpen a
  | encWrite e' p => cases ht; exact h.execEncWrite p
  | _ => cases ht

/-- The same command on twins of its decoder gives the same answer, and twins again. -/
theorem exec_dec (h : Twins (.dec d) b1 b2 s1 s2) (ht : targetOf i = .dec d) :
    SameAnswer (Twins (.dec d) b1 b2) (exec i s1) (exec i s2) := by
  cases i with
  | decOpen d' a => cases ht; exact h.execDecOpen a
  | decRead d' c => cases ht; exact h.execDecRead c
  | decInto d' n => cases ht; exact h.execDecInto n
  | _ => cases ht

end Twins

/-- Settles O54: machines that agree on the object are twins, and its commands keep them twins. -/
theorem instanceIsolation : Obligations.InstanceIsolation := by
  constructor
  · intro i d s1 s2 t1 ht hdec hsrc halpha hparams hhalted hcaller hx
    have twins : Twins (.dec d) s1.trace s2.trace s1 s2 :=
      ⟨hhalted, halpha, hparams, hcaller, ⟨hdec ▸ .refl _, hsrc⟩, [], rfl, rfl⟩
    obtain ⟨t2, hx2, after⟩ := (twins.exec_dec ht).exists_next hx
    obtain ⟨new, h1, h2⟩ := after.trace
    exact ⟨t2, new, hx2, h1, h2, after.dec, after.src⟩
  · intro i e s1 s2 t1 ht henc hsink halpha hparams hhalted hcaller hx
    have twins : Twins (.enc e) s1.trace s2.trace s1 s2 :=
      ⟨hhalted, halpha, hparams, hcaller, ⟨henc ▸ .refl _, hsink⟩, [], rfl, rfl⟩
    obtain ⟨t2, hx2, after⟩ := (twins.exec_enc ht).exists_next hx
    obtain ⟨new, h1, h2⟩ := after.trace
    exact ⟨t2, new, hx2, h1, h2, after.enc, after.sink⟩

end Sys2Proof.Machine

/-! SUPPORT. The statements of spec/10_state.md: what every step keeps of the whole engine (R23 to R32), what reset leaves
(R42), and the packed register forms (R38). -/

namespace Sys2Proof.Machine

/-! ## Valid alphabet slots -/

/-- A specification without a fault gives four distinct tokens (R24, R91). -/
theorem specTokens_distinct {p : List Byte} (hv : validate p = .ok) : Distinct (specTokens p) := by
  rw [← hasDuplicate_false_iff]
  unfold validate at hv
  split at hv
  · split at hv
    · cases hv
    · next hd => simpa using hd
  · cases hv

/-- From `s` to `t` the counts stay, and so does every valid alphabet slot (R23). -/
structure KeepsSlots (s t : State) : Prop where
  params : t.params = s.params
  slot : ∀ a, (s.slotAt a).valid = true → t.slotAt a = s.slotAt a

namespace KeepsSlots

variable {s t : State} {a : UnitIdx}

theorem of_alpha (hp : t.params = s.params) (ha : t.alpha = s.alpha) : KeepsSlots s t :=
  ⟨hp, fun a _ => by simp [State.slotAt, ha]⟩

theorem tokens (h : KeepsSlots s t) (hv : (s.slotAt a).valid = true) : t.tokens a = s.tokens a := by
  simp [State.tokens, h.slot a hv]

/-- A slot that an encoder or a decoder may be bound to stays one (R25, R29). -/
theorem binding (h : KeepsSlots s t) (hb : a.toNat < s.params.nAlpha ∧ (s.slotAt a).valid = true) :
    a.toNat < t.params.nAlpha ∧ (t.slotAt a).valid = true := by
  rwa [h.params, h.slot a hb.2]

end KeepsSlots

theorem OnlyEncoder.keepsSlots {e : UnitIdx} {s t : State} (h : OnlyEncoder e s t) : KeepsSlots s t :=
  .of_alpha h.params h.alpha

theorem OnlyDecoder.keepsSlots {d : UnitIdx} {s t : State} (h : OnlyDecoder d s t) : KeepsSlots s t :=
  .of_alpha h.params h.alpha

theorem SameEngine.keepsSlots {s u : State} (h : SameEngine s u) : KeepsSlots s u := .of_alpha h.params h.alpha

/-- Loading a slot that is empty keeps the valid ones. -/
theorem loadSlot_keepsSlots {s : State} {a : UnitIdx} (he : (s.slotAt a).valid = false) (p : List Byte) :
    KeepsSlots s (loadSlot a p s) := by
  refine ⟨rfl, fun a' hv => setSlot_slotAt_ne s a _ a' ?_⟩
  rintro rfl
  simp [he] at hv

theorem startWrite_only (s : State) (e : UnitIdx) (p : List Byte) :
    OnlyEncoder e s (startWrite e p (s.setLock true (.enc e))) := by
  rw [startWrite_state]
  exact onlyEncoder_setEnc _ _ _

theorem startJob_only (s : State) (d : UnitIdx) (into : Bool) (c : Arg) :
    OnlyDecoder d s (startJob d into c (s.setLock true (.dec d))) := by
  rw [startJob_state]
  exact onlyDecoder_setDec _ _ _

/-- What a write that has started and is served leaves alone. -/
theorem serveEncoder_startWrite_only {s t : State} {e : UnitIdx} {p : List Byte}
    (hx : serveEncoder e (startWrite e p (s.setLock true (.enc e))) = .next t) : OnlyEncoder e s t :=
  (startWrite_only s e p).trans (serveEncoder_only hx).1

/-- What a read that has started and is served leaves alone. -/
theorem serveDecoder_startJob_only {s t : State} {d : UnitIdx} {into : Bool} {c : Arg}
    (hx : serveDecoder d (startJob d into c (s.setLock true (.dec d))) = .next t) : OnlyDecoder d s t :=
  (startJob_only s d into c).trans (serveDecoder_only hx).1

/-- No command changes a valid slot (R23, R133). -/
theorem exec_keepsSlots {i : Instr} {s t : State} (hx : exec i s = .next t) : KeepsSlots s t := by
  have effect := exec_effect i s
  rw [hx] at effect
  cases effect with
  | held | quiet | halt | encOpen | decOpen | writeNone => exact .of_alpha rfl rfl
  | load a p _ he _ | must a p _ he _ =>
    have kept := loadSlot_keepsSlots he p
    exact ⟨kept.params, kept.slot⟩
  | write e p _ _ _ _ hx => exact (serveEncoder_startWrite_only hx).keepsSlots
  | read d c _ _ _ _ _ hx | into d c _ _ _ _ _ hx => exact (serveDecoder_startJob_only hx).keepsSlots

/-- Settles O57: only commands write slots, and they write empty ones. -/
theorem validSlotImmutable : Obligations.ValidSlotImmutable := by
  intro s s' a hstep hv
  cases step_cases hstep with
  | env h => exact .inl (h.slotAt a)
  | command i u h _ hx =>
    have hu := h.slotAt a
    exact .inl (((exec_keepsSlots hx).slot a (hu ▸ hv)).trans hu)
  | badWord u h _ hs => subst hs; exact .inl (h.slotAt a)
  | serveEnc e u h _ hx => exact .inl (((serveEncoder_only hx).1.slotAt a).trans (h.slotAt a))
  | serveDec d u h _ hx => exact .inl (((serveDecoder_only hx).1.slotAt a).trans (h.slotAt a))
  | reset taken rest hin _ => exact .inr ⟨taken, rest, hin⟩

/-! ## Legal encoders -/

section Encoder

variable {s t : State} {e : UnitIdx}

/-- An encoder that does not change stays legal. -/
theorem EncLegal.frame (h : EncLegal s e) (k : KeepsSlots s t) (he : t.encAt e = s.encAt e) : EncLegal t e where
  bound hb := by
    rw [he] at hb ⊢
    exact k.binding (h.bound hb)
  lock := he ▸ h.lock
  hwm := he ▸ h.hwm
  job j hj := by
    rw [he] at hj ⊢
    obtain ⟨hb, hne, hlen, hscr⟩ := h.job j hj
    exact ⟨hb, hne, hlen, hscr.trans (by rw [k.tokens (h.bound hb).2])⟩

/-- An encoder is legal after the end of its write, whatever the job and the scratch were (R26). -/
theorem endWrite_legal
    (hbound : (s.encAt e).bound = true →
      (s.encAt e).asel.toNat < s.params.nAlpha ∧ (s.slotAt (s.encAt e).asel).valid = true)
    (hhwm : (s.encAt e).hwm.toNat % 16 = 0 ∧ (s.encAt e).hwm.toNat ≤ 16 * Config.lenMax)
    (j : EncJob) (st : Status) (n : Nat) (info : Word32) : EncLegal (endWrite e j st n info s) e := by
  have he : (endWrite e j st n info s).encAt e =
      { s.encAt e with lock := false, job := none, path := freeEncPath s.trace.length } := by simp [endWrite]
  refine ⟨?_, ?_, ?_, ?_⟩ <;> rw [he]
  · exact hbound
  · rfl
  · exact hhwm
  · rintro j ⟨⟩

/-- `EHWM` stays a multiple of 16 up to `16 * LEN_MAX` (R38, R158). -/
theorem raiseHwm_legal {hwm : BitVec 28} {n : Nat} (hn : n ≤ Config.lenMax)
    (h : hwm.toNat % 16 = 0 ∧ hwm.toNat ≤ 16 * Config.lenMax) :
    (raiseHwm hwm n).toNat % 16 = 0 ∧ (raiseHwm hwm n).toNat ≤ 16 * Config.lenMax := by
  rw [raiseHwm_toNat hwm hn]
  omega

/-- A write of a bound encoder that has started is in a legal state (R152, R153). -/
theorem EncLegal.started (h : EncLegal s e) (hb : (s.encAt e).bound = true) {p : List Byte} (hp : p ≠ [])
    (hlen : p.length ≤ Config.lenMax) : EncLegal (startWrite e p (s.setLock true (.enc e))) e := by
  rw [startWrite_state]
  refine ⟨?_, ?_, ?_, ?_⟩ <;> rw [setEnc_encAt_self]
  · exact h.bound
  · rfl
  · exact raiseHwm_legal hlen h.hwm
  · rintro j ⟨⟩
    exact ⟨hb, hp, hlen, by simp [encodePayload_escr]⟩

/-- A write of no bytes leaves its encoder legal (R155). -/
theorem EncLegal.writeNone (h : EncLegal s e) (j : EncJob) :
    EncLegal (endWrite e j .ok 0 0 (startWrite e [] (s.setLock true (.enc e)))) e := by
  rw [startWrite_state]
  apply endWrite_legal <;> rw [setEnc_encAt_self]
  · exact h.bound
  · exact raiseHwm_legal (Nat.zero_le _) h.hwm

/-- `ENC.OPEN` leaves its encoder legal (R151). -/
theorem EncLegal.opened (h : EncLegal s e) (hl : (s.encAt e).lock = false) {a : UnitIdx}
    (ha : a.toNat < s.params.nAlpha) (hv : (s.slotAt a).valid = true) (o : Output) :
    EncLegal ((s.setEnc e { s.encAt e with bound := true, asel := a, hwm := 0 }).emit o) e := by
  have hj : (s.encAt e).job = none := by simpa [hl] using h.lock
  refine ⟨?_, ?_, ?_, ?_⟩ <;> rw [emit_encAt, setEnc_encAt_self]
  · exact fun _ => ⟨ha, hv⟩
  · exact h.lock
  · exact ⟨rfl, Nat.zero_le _⟩
  · simp [hj]

/-- An encoder that goes on stays legal. -/
theorem EncLegal.served (h : EncLegal s e) (hx : serveEncoder e s = .next t) : EncLegal t e := by
  rcases serveEncoder_effect e s with q | q | ⟨j, a, rest, -, -, -, q⟩ <;> rw [hx] at q
  · cases q; exact h
  · cases q
  · obtain ⟨st, n, info, q2, -⟩ :=
      sinkAnswered_state e j a ((s.setSink e rest).emit (.sinkWrite e (s.encAt e).path.escr a))
    rw [q2] at q
    cases q
    have taken := h.frame (((onlyEncoder_setSink s e rest).trans
      (onlyEncoder_emit _ e (.sinkWrite e (s.encAt e).path.escr a))).keepsSlots) rfl
    exact endWrite_legal taken.bound taken.hwm _ _ _ _

end Encoder

/-! ## Legal decoders -/

/-- Decoder `d` has the command `j` in progress and may make its next read, in whatever phase and with whatever scratch:
the state in which a read begins (R172, R186). -/
structure Reading (s : State) (d : UnitIdx) (j : DecJob) : Prop where
  binding : (s.decAt d).asel.toNat < s.params.nAlpha ∧ (s.slotAt (s.decAt d).asel).valid = true
  bound : (s.decAt d).bound = true
  lock : (s.decAt d).lock = true
  job : (s.decAt d).job = some j
  room : j.out.length < j.cap.toNat
  fresh : j.into = false → j.out = []

section Decoder

variable {s t : State} {d : UnitIdx} {j : DecJob}

/-- A decoder that does not change stays legal. -/
theorem DecLegal.frame (h : DecLegal s d) (k : KeepsSlots s t) (hd : t.decAt d = s.decAt d) : DecLegal t d where
  bound hb := by
    rw [hd] at hb ⊢
    exact k.binding (h.bound hb)
  lock := hd ▸ h.lock
  quiet := hd ▸ h.quiet
  job := hd ▸ h.job

/-- A legal decoder with a command in progress may make the next read. -/
theorem DecLegal.reading (h : DecLegal s d) (hj : (s.decAt d).job = some j) : Reading s d j := by
  obtain ⟨hb, hroom, hfresh, -⟩ := h.job j hj
  exact ⟨h.bound hb, hb, by simpa [hj] using h.lock, hj, hroom, hfresh⟩

/-- A read of at least one byte that has started on a bound decoder may make its read (R172, R186). -/
theorem DecLegal.started (h : DecLegal s d) (hb : (s.decAt d).bound = true) (into : Bool) {c : Arg} (hc : c ≠ 0) :
    Reading (startJob d into c (s.setLock true (.dec d))) d ⟨s.caller, into, c, []⟩ := by
  rw [startJob_state]
  refine ⟨?_, ?_, ?_, ?_, ?_, fun _ => rfl⟩
  · simpa using h.bound hb
  · simpa using hb
  · simp
  · simp
  · exact BitVec.toNat_pos_of_ne_zero hc

/-- The decoder is legal after the end of a command, if it is left in `IDLE` or `FAULT` (R30, R32). -/
theorem endJob_legal
    (hbound : (s.decAt d).bound = true →
      (s.decAt d).asel.toNat < s.params.nAlpha ∧ (s.slotAt (s.decAt d).asel).valid = true)
    (hphase : (s.decAt d).phase = .idle ∨ (s.decAt d).phase = .fault)
    (j : DecJob) (st : Status) (info : Word32) (data : List Byte) : DecLegal (endJob d j st info data s) d := by
  refine ⟨?_, ?_, ?_, ?_⟩ <;> rw [endJob_decAt]
  · exact hbound
  · rfl
  · exact fun _ => hphase
  · rintro j ⟨⟩

/-- A read that waits for its source does so in a legal state (R170, R172). -/
theorem Reading.blocked (h : Reading s d j) : DecLegal (beginFill d s) d := by
  refine ⟨?_, ?_, ?_, ?_⟩ <;> rw [beginFill, setDec_decAt_self]
  · exact fun _ => h.binding
  · simp [h.lock, h.job]
  · simp [h.job]
  · intro j' hj
    cases h.job.symm.trans hj
    exact ⟨h.bound, h.room, h.fresh, .inl ⟨rfl, rfl⟩⟩

/-- The end of a read leaves a legal decoder: the command is over, or it is a `DEC.INTO` between two inner reads. -/
theorem Reading.endRead_legal {m : State} {a : SrcAnswer} {rest : List SrcAnswer} {bad : Option Token}
    (h : Reading s d j) (hm : ReadDone s d j a rest bad m) {st : Status} (hst : st = .ok → bad = none)
    (info : Word32) (out : List Byte) : DecLegal (endRead d j st info out m) d := by
  have hbinding : (m.decAt d).asel.toNat < m.params.nAlpha ∧ (m.slotAt (m.decAt d).asel).valid = true := by
    rw [hm.asel]
    exact hm.only.keepsSlots.binding h.binding
  have hphase : (m.decAt d).phase = .idle ∨ (m.decAt d).phase = .fault := by
    cases bad with
    | none => exact .inl (hm.carried rfl).1
    | some w => exact .inr (hm.faulted w rfl).1
  have ended := endJob_legal (fun _ => hbinding) hphase j
  cases hi : j.into with
  | false =>
    rw [endRead_read hi]
    exact ended _ _ _
  | true =>
    rcases endRead_into hi st info out m with ⟨hok, hroom, q⟩ | ⟨_, _, q⟩ | ⟨_, q⟩ | ⟨_, _, q⟩ <;> rw [q]
    · refine ⟨?_, ?_, ?_, ?_⟩ <;> rw [setDec_decAt_self]
      · exact fun _ => hbinding
      · simp [hm.lock, h.lock]
      · simp
      · rintro j' ⟨⟩
        exact ⟨hm.bound.trans h.bound, hroom, by simp [hi], .inr ⟨(hm.carried (hst hok)).1, hi⟩⟩
    all_goals exact ended _ _ _

/-- One read of a command in progress leaves a legal decoder. -/
theorem Reading.served (h : Reading s d j) (hx : serveDecoder d s = .next t) : DecLegal t d := by
  rcases serveDecoder_effect d s with ⟨hj, -⟩ | ⟨_, _, _, q⟩ | q | ⟨j', a, rest, hj, hs, hl, -⟩
  · cases h.job.symm.trans hj
  · cases hx.symm.trans q
    exact h.blocked
  · cases hx.symm.trans q
  · cases h.job.symm.trans hj
    obtain ⟨m, st, info, q, hm, hbad, -⟩ := serveDecoder_answered (out := (decBytes _ _).1) (bad := (decBytes _ _).2)
      hj hs hl rfl
    cases hx.symm.trans q
    refine h.endRead_legal hm (fun hok => ?_) _ _
    cases hw : (decBytes _ _).2 with
    | none => rfl
    | some w => cases hok.symm.trans (hbad w hw).1

/-- A decoder that goes on stays legal. -/
theorem DecLegal.served (h : DecLegal s d) (hx : serveDecoder d s = .next t) : DecLegal t d := by
  cases hj : (s.decAt d).job with
  | none =>
    have q : serveDecoder d s = .next s := by simp [serveDecoder, hj]
    cases hx.symm.trans q
    exact h
  | some j => exact (h.reading hj).served hx

/-- `DEC.OPEN` leaves its decoder legal (R171). -/
theorem DecLegal.opened (h : DecLegal s d) (hl : (s.decAt d).lock = false) {a : UnitIdx}
    (ha : a.toNat < s.params.nAlpha) (hv : (s.slotAt a).valid = true) (o : Output) :
    DecLegal ((s.setDec d { s.decAt d with bound := true, asel := a, leftLen := 0, phase := .idle }).emit o) d := by
  have hj : (s.decAt d).job = none := by simpa [hl] using h.lock
  refine ⟨?_, ?_, ?_, ?_⟩ <;> rw [emit_decAt, setDec_decAt_self]
  · exact fun _ => ⟨ha, hv⟩
  · exact h.lock
  · exact fun _ => .inl rfl
  · simp [hj]

end Decoder

/-! ## The invariant of the engine -/

namespace State.Inv

variable {s t : State}

/-- The invariant speaks of the registers and the counts alone, and not of `HALTED`. -/
theorem congr (h : s.Inv) (hp : t.params = s.params) (ha : t.alpha = s.alpha) (he : t.enc = s.enc)
    (hd : t.dec = s.dec) : t.Inv where
  params := hp ▸ h.params
  slots a := by simpa [State.tokens, State.slotAt, ha] using h.slots a
  enc e := (h.enc e).frame (.of_alpha hp ha) (by simp [State.encAt, he])
  dec d := (h.dec d).frame (.of_alpha hp ha) (by simp [State.decAt, hd])

theorem sameEngine (h : s.Inv) (k : SameEngine s t) : t.Inv := h.congr k.params k.alpha k.enc k.dec

/-- What changes one encoder keeps the invariant if that encoder stays legal. -/
theorem onlyEncoder {e : UnitIdx} (h : s.Inv) (k : OnlyEncoder e s t) (he : EncLegal t e) : t.Inv where
  params := k.params ▸ h.params
  slots a := by simpa [k.slotAt, k.tokens] using h.slots a
  enc e' := by
    by_cases q : e' = e
    · exact q ▸ he
    · exact (h.enc e').frame k.keepsSlots (k.enc e' q)
  dec d := (h.dec d).frame k.keepsSlots (k.decAt d)

/-- What changes one decoder keeps the invariant if that decoder stays legal. -/
theorem onlyDecoder {d : UnitIdx} (h : s.Inv) (k : OnlyDecoder d s t) (hd : DecLegal t d) : t.Inv where
  params := k.params ▸ h.params
  slots a := by simpa [k.slotAt, k.tokens] using h.slots a
  enc e := (h.enc e).frame k.keepsSlots (k.encAt e)
  dec d' := by
    by_cases q : d' = d
    · exact q ▸ hd
    · exact (h.dec d').frame k.keepsSlots (k.dec d' q)

/-- Loading an empty slot with a good specification keeps the invariant (R24, R131). -/
theorem loaded (h : s.Inv) {a : UnitIdx} {p : List Byte} (he : (s.slotAt a).valid = false)
    (hv : validate p = .ok) : (loadSlot a p s).Inv where
  params := h.params
  slots a' hv' := by
    by_cases q : a' = a
    · subst q
      simpa [State.tokens, loadSlot] using specTokens_distinct hv
    · have hs : (loadSlot a p s).slotAt a' = s.slotAt a' := setSlot_slotAt_ne s a _ a' q
      rw [State.tokens, hs]
      exact h.slots a' (hs ▸ hv')
  enc e := (h.enc e).frame (loadSlot_keepsSlots he p) rfl
  dec d := (h.dec d).frame (loadSlot_keepsSlots he p) rfl

/-- Every command that a word can spell keeps the invariant. -/
theorem exec {i : Instr} (h : s.Inv) (hw : i.WellFormed) (hx : exec i s = .next t) : t.Inv := by
  have effect := exec_effect i s
  rw [hx] at effect
  cases effect with
  | held | quiet | halt => exact h.congr rfl rfl rfl rfl
  | load a p _ he hv | must a p _ he hv => exact (h.loaded he hv).congr rfl rfl rfl rfl
  | encOpen e a hr ha hv =>
    exact h.onlyEncoder ((onlyEncoder_setEnc s e _).trans (onlyEncoder_emit _ _ _)) ((h.enc e).opened hr.free ha hv _)
  | decOpen d a hr ha hv =>
    exact h.onlyDecoder ((onlyDecoder_setDec s d _).trans (onlyDecoder_emit _ _ _)) ((h.dec d).opened hr.free ha hv _)
  | writeNone e _ _ =>
    exact h.onlyEncoder ((startWrite_only s e []).trans (endWrite_only _ _ _ _ _ _)) ((h.enc e).writeNone _)
  | write e p _ hb hp _ hx =>
    exact h.onlyEncoder (serveEncoder_startWrite_only hx) (((h.enc e).started hb hp hw).served hx)
  | read d c _ hb _ hc _ hx | into d c _ hb _ hc _ hx =>
    exact h.onlyDecoder (serveDecoder_startJob_only hx) (((h.dec d).started hb _ hc).served hx)

end State.Inv

/-! ## Reset -/

/-- Every register holds its reset value (R42, R251). -/
structure RegistersReset (s : State) : Prop where
  halted : s.halted = false
  slot : ∀ a, s.slotAt a = AlphaSlot.reset
  enc : ∀ e, s.encAt e = Encoder.reset
  dec : ∀ d, s.decAt d = Decoder.reset

theorem reset_registersReset : RegistersReset State.reset := ⟨rfl, reset_slotAt, reset_encAt, reset_decAt⟩

theorem resetEngine_registersReset (taken : List Nat) (s : State) : RegistersReset (resetEngine taken s) :=
  ⟨rfl, resetEngine_slotAt taken s, resetEngine_encAt taken s, resetEngine_decAt taken s⟩

/-- Registers at their reset values meet the invariant, for every legal choice of the counts. -/
theorem RegistersReset.inv {s : State} (h : RegistersReset s) (hp : s.params.Legal) : s.Inv where
  params := hp
  slots a := by simp [h.slot, AlphaSlot.reset]
  enc e := by constructor <;> simp [h.enc, Encoder.reset]
  dec d := by constructor <;> simp [h.dec, Decoder.reset]

/-- Settles O55: a step takes up a command, goes on with one, resets the engine or touches no register, and each of these
keeps the invariant. -/
theorem invKept : Obligations.InvKept := by
  intro s s' h hstep
  cases step_cases hstep with
  | env k => exact h.sameEngine k
  | command i u k hw hx => exact (h.sameEngine k).exec hw hx
  | badWord u k _ hs => exact hs ▸ (h.sameEngine k).congr rfl rfl rfl rfl
  | serveEnc e u k _ hx =>
    have hu := h.sameEngine k
    exact hu.onlyEncoder (serveEncoder_only hx).1 ((hu.enc e).served hx)
  | serveDec d u k _ hx =>
    have hu := h.sameEngine k
    exact hu.onlyDecoder (serveDecoder_only hx).1 ((hu.dec d).served hx)
  | reset taken rest _ hs => exact hs ▸ (resetEngine_registersReset taken _).inv h.params

/-- Settles O56: after reset no slot is valid, and no encoder or decoder is bound. -/
theorem invAtReset : Obligations.InvAtReset := by
  refine ⟨reset_registersReset.inv (by constructor <;> decide), fun d hb => ?_, fun e hb => ?_⟩
  · simp [Decoder.reset] at hb
  · simp [Encoder.reset] at hb

/-- Settles O59: `State.reset` and the state after the step that resets have all registers at their reset values. -/
theorem resetValues : Obligations.ResetValues := by
  unfold Obligations.ResetValues
  intro good
  have values : ∀ s, RegistersReset s → good s := fun s h =>
    ⟨h.halted, by simp [h.slot, AlphaSlot.reset], by simp [h.enc, Encoder.reset], by simp [h.dec, Decoder.reset]⟩
  exact ⟨values _ reset_registersReset, fun s taken rest hin =>
    ⟨resetEngine taken (s.setInputs rest), step_of_inputs hin, values _ (resetEngine_registersReset taken _)⟩⟩

/-! ## The packed register forms -/

/-- Fields side by side in a word: the upper one counts for its value times the weight of its lowest bit. -/
theorem toNat_append_eq_add {m n : Nat} (x : BitVec m) (y : BitVec n) :
    (x ++ y).toNat = 2 ^ n * x.toNat + y.toNat := by
  rw [BitVec.toNat_append, Nat.shiftLeft_eq, Nat.mul_comm, Nat.two_pow_add_eq_or_of_lt y.isLt]

@[simp] theorem bit_toNat (b : Bool) : (bit b).toNat = b.toNat := by
  simp [bit]

theorem estat_toNat (s : State) (e : UnitIdx) :
    (s.estat e).toNat = (s.encAt e).bound.toNat + 2 * (s.encAt e).lock.toNat + 16 * (s.encAt e).asel.toNat := by
  rw [State.estat, BitVec.toNat_setWidth_of_le (by decide)]
  simp only [toNat_append_eq_add, bit_toNat, BitVec.ofNat_eq_ofNat, BitVec.toNat_ofNat]
  omega

theorem dstat_toNat (s : State) (d : UnitIdx) :
    (s.dstat d).toNat = (s.decAt d).bound.toNat + 2 * (s.decAt d).lock.toNat + 16 * (s.decAt d).asel.toNat +
      256 * (s.decAt d).leftLen.toNat + 4096 * (s.decAt d).phase.number.toNat := by
  rw [State.dstat, BitVec.toNat_setWidth_of_le (by decide)]
  simp only [toNat_append_eq_add, bit_toNat, BitVec.ofNat_eq_ofNat, BitVec.toNat_ofNat]
  omega

theorem ofBytes_drop (l : List Byte) (k : Nat) :
    Token.ofBytes (l.drop k) = ⟨l.getD k 0, l.getD (k + 1) 0, l.getD (k + 2) 0, l.getD (k + 3) 0⟩ := by
  simp [Token.ofBytes]

/-- Settles O12: each form is the sum of its fields, each at the weight of its lowest bit. -/
theorem packedRegisterLayout : Obligations.PackedRegisterLayout := by
  intro s
  refine ⟨?_, fun a => ⟨?_, fun i => rfl⟩, fun e => ⟨estat_toNat s e, ?_⟩, fun d => ⟨?_, rfl, fun j => ?_⟩⟩
  · rw [State.gstat, BitVec.toNat_setWidth_of_le (by decide), bit_toNat]
  · rw [State.astat, BitVec.toNat_setWidth_of_le (by decide), bit_toNat]
  · rw [State.ehwmr, BitVec.toNat_setWidth_of_le (by decide)]
  · rw [dstat_toNat]
    cases (s.decAt d).phase <;> rfl
  · rw [State.dleftr, ofBytes_drop]

end Sys2Proof.Machine

/-! SUPPORT. The statements of spec/20_memory.md: a source or a sink that breaks its duty (R66, R67) has no step. -/

namespace Sys2Proof.Machine

/-! ## An instance served by a port that breaks its duty -/

/-- The two ways a sink breaks its duty (R67, U2). -/
theorem sinkDuty_eq_false_iff {n : Nat} {a : SinkAnswer} :
    sinkDuty n a = false ↔ a.err = none ∧ a.accepted ≠ n ∨ n < a.accepted := by
  unfold sinkDuty
  cases a.err with
  | none =>
    simp only [beq_eq_false_iff_ne, true_and]
    omega
  | some c => simp

theorem serveEncoder_of_broken_duty {s : State} {e : UnitIdx} {j : EncJob} {a : SinkAnswer} {rest : List SinkAnswer}
    (hj : (s.encAt e).job = some j) (hs : s.sinkAt e = a :: rest)
    (hd : sinkDuty (s.encAt e).path.escr.length a = false) :
    serveEncoder e s = .refused .sinkBrokeDuty := by
  simp [serveEncoder, hj, hs, hd]

theorem serveDecoder_of_broken_duty {s : State} {d : UnitIdx} {j : DecJob} {a : SrcAnswer} {rest : List SrcAnswer}
    (hj : (s.decAt d).job = some j) (hs : s.srcAt d = a :: rest)
    (hd : request j.capacity (s.decAt d).leftLen.toNat < a.bytes.length) :
    serveDecoder d s = .refused .sourceBrokeDuty := by
  simp [serveDecoder, hj, hs, hd]

/-! ## A command that starts with such a port -/

theorem serveEncoder_startWrite_of_broken_duty {s : State} {e : UnitIdx} {p : List Byte} {a : SinkAnswer}
    {rest : List SinkAnswer}
    (hs : s.sinkAt e = a :: rest) (hd : sinkDuty (16 * p.length) a = false) :
    serveEncoder e (startWrite e p (s.setLock true (.enc e))) = .refused .sinkBrokeDuty := by
  rw [startWrite_state]
  exact serveEncoder_of_broken_duty (by rw [setEnc_encAt_self]) hs (by simpa [encodePayload_escr] using hd)

/-- The first read of either command asks for `16 * C - L` bytes, since nothing has been delivered yet (R173, R186). -/
theorem serveDecoder_startJob_of_broken_duty {s : State} {d : UnitIdx} {c : Arg} {a : SrcAnswer}
    {rest : List SrcAnswer}
    (hs : s.srcAt d = a :: rest) (hd : request c.toNat (s.decAt d).leftLen.toNat < a.bytes.length) (into : Bool) :
    serveDecoder d (startJob d into c (s.setLock true (.dec d))) = .refused .sourceBrokeDuty := by
  rw [startJob_state]
  exact serveDecoder_of_broken_duty (by rw [setDec_decAt_self]) hs (by simpa [DecJob.capacity] using hd)

/-- Settles O32: a command that starts, and an instance that is served, both reach the one port operation with the broken
answer at the head of the queue. -/
theorem brokenPortDutyHasNoStep : Obligations.BrokenPortDutyHasNoStep := by
  refine ⟨fun e p a rest s hr hb hp hs hd => ?_, fun d c a rest s hr hb hph hc hs hd => ⟨?_, ?_⟩,
    fun e j a rest tl s hi hh hj hs hd => ?_, fun d j a rest tl s hi hh hj hs hd => ?_⟩
  · rw [exec_write hr hb hp]
    exact serveEncoder_startWrite_of_broken_duty hs (sinkDuty_eq_false_iff.2 hd)
  · rw [exec_read hr hb hph hc]
    exact serveDecoder_startJob_of_broken_duty hs hd false
  · rw [exec_into hr hb hph hc]
    exact serveDecoder_startJob_of_broken_duty hs hd true
  · rw [step_serveEnc hi hh]
    exact serveEncoder_of_broken_duty (s := s.setInputs tl) hj hs (sinkDuty_eq_false_iff.2 hd)
  · rw [step_serveDec hi hh]
    exact serveDecoder_of_broken_duty (s := s.setInputs tl) hj hs hd

end Sys2Proof.Machine

/-! SUPPORT. The statements of spec/30_encoding.md: commands and their words (Part B), with what the engine does with a
word that spells no instruction, and the data encoding (Part A). -/

namespace Sys2Proof

/-! ## Opcodes -/

/-- The opcodes whose commands have a payload of `ARG` bytes (R105). -/
abbrev TakesPayload (op : BitVec 4) : Prop := op = 0x1 ∨ op = 0x2 ∨ op = 0x4 ∨ op = 0x6 ∨ op = 0xA ∨ op = 0xB

/-- The opcodes of format L (R108). -/
abbrev TakesExtension (op : BitVec 4) : Prop := op = 0xA ∨ op = 0xB

/-- The reserved opcodes (R114). -/
abbrev ReservedOp (op : BitVec 4) : Prop := op = 0x0 ∨ op = 0xC ∨ op = 0xD ∨ op = 0xE ∨ op = 0xF

/-- The opcode is what is left of a command word when the other fields are shifted out (R103). -/
theorem shiftRight_eq_opField (cw : Word32) : cw >>> 28 = (opField cw).setWidth 32 := by
  apply BitVec.eq_of_toNat_eq
  rw [BitVec.toNat_setWidth_of_le (by decide), opField, BitVec.extractLsb'_toNat, BitVec.toNat_ushiftRight,
    Nat.shiftRight_eq_div_pow]
  omega

/-- An opcode read off the upper bits of the word. -/
theorem shiftRight_eq_iff (cw : Word32) (op : BitVec 4) : cw >>> 28 = op.setWidth 32 ↔ opField cw = op := by
  rw [shiftRight_eq_opField]
  exact ⟨fun h => by simpa using congrArg (BitVec.setWidth 4) h, congrArg _⟩

theorem takesPayload_iff (cw : Word32) :
    (cw >>> 28 = 0x1 ∨ cw >>> 28 = 0x2 ∨ cw >>> 28 = 0x4 ∨ cw >>> 28 = 0x6 ∨ cw >>> 28 = 0xA ∨ cw >>> 28 = 0xB) ↔
      TakesPayload (opField cw) := by
  simp only [TakesPayload, ← shiftRight_eq_iff]
  rfl

theorem takesExtension_iff (cw : Word32) :
    (cw >>> 28 = 0xA ∨ cw >>> 28 = 0xB) ↔ TakesExtension (opField cw) := by
  simp only [TakesExtension, ← shiftRight_eq_iff]
  rfl

theorem reservedOp_iff (cw : Word32) :
    (cw >>> 28 = 0x0 ∨ cw >>> 28 = 0xC ∨ cw >>> 28 = 0xD ∨ cw >>> 28 = 0xE ∨ cw >>> 28 = 0xF) ↔
      ReservedOp (opField cw) := by
  simp only [ReservedOp, ← shiftRight_eq_iff]
  rfl

/-! ## Complete commands -/

theorem complete_iff (c : Command) :
    c.complete = true ↔ c.ext.isSome = isLong c.cw ∧ c.payload.length = payloadLength c.cw := by
  simp [Command.complete]

theorem isLong_eq (cw : Word32) : isLong cw = decide (TakesExtension (opField cw)) := by
  simp [isLong, Bool.beq_eq_decide_eq]

theorem payloadLength_eq (cw : Word32) :
    payloadLength cw = if TakesPayload (opField cw) then (argField cw).toNat else 0 := by
  unfold payloadLength
  generalize opField cw = op
  obtain ⟨k⟩ := op
  fin_cases k <;> rfl

theorem decode_eq_ok_iff (c : Command) (i : Instr) :
    decode c = .ok i ↔ c.complete = true ∧ decodeFields c.cw (c.ext.getD 0) c.payload = .ok i := by
  unfold decode
  split <;> simp_all

/-- A command of format S is decoded by the fields of its word if the payload has the stated length (R105, R108). -/
theorem decode_short {cw : Word32} {p : List Byte} (hx : ¬TakesExtension (opField cw))
    (hp : p.length = if TakesPayload (opField cw) then (argField cw).toNat else 0) :
    decode ⟨cw, none, p⟩ = decodeFields cw 0 p := by
  have hc : (⟨cw, none, p⟩ : Command).complete = true := by
    rw [complete_iff, isLong_eq, payloadLength_eq, decide_eq_false hx]
    exact ⟨rfl, hp⟩
  rw [decode, if_pos hc]
  rfl

/-! ## The encoder and the decoder -/

/-- A field that is placed in a wider `ARG` is read back from it. -/
theorem extractLsb'_setWidth_low {m n : Nat} (v : BitVec m) (h : m ≤ n) : (v.setWidth n).extractLsb' 0 m = v := by
  rw [BitVec.extractLsb'_setWidth_of_le (by omega), BitVec.extractLsb'_eq_self]

/-- The bits of a wider `ARG` above a field that is placed in it are zero (R115). -/
theorem extractLsb'_setWidth_high {m n : Nat} (v : BitVec m) : (v.setWidth n).extractLsb' m (n - m) = 0 := by
  ext i
  simp

/-- An `ARG` is its low field if the bits above it are zero (R115). -/
theorem setWidth_extractLsb'_low {m n : Nat} {x : BitVec n} (h : x.extractLsb' m (n - m) = 0) :
    (x.extractLsb' 0 m).setWidth n = x := by
  ext i hi
  by_cases him : i < m
  · simp [him, BitVec.getLsbD_eq_getElem hi]
  · have hz : (x.extractLsb' m (n - m)).getLsbD (i - m) = false := by rw [h]; simp
    have hz' : x.getLsbD i = false := by
      simpa [show i - m < n - m by omega, show m + (i - m) = i by omega] using hz
    simp [him, ← BitVec.getLsbD_eq_getElem hi, hz']

theorem lengthArg_eq {p : List Byte} {arg : Arg} (h : p.length = arg.toNat) : lengthArg p = arg := by
  simp [lengthArg, h]

/-- Four bytes are the bytes of the token they spell (R68). -/
theorem bytes_ofBytes_of_length {l : List Byte} (h : l.length = 4) : (Token.ofBytes l).bytes = l := by
  rw [Machine.bytes_ofBytes h.ge, List.take_of_length_le h.le]

/-- The fields of an encoded instruction give it back (R106, R107). -/
theorem decodeFields_encode (i : Instr) :
    decodeFields (encode i).cw ((encode i).ext.getD 0) (encode i).payload = .ok i := by
  cases i with
  | alphaEncv a v =>
    simp [encode, decodeFields, extractLsb'_setWidth_low v, extractLsb'_setWidth_high (n := 24) v]
  | encOpen e a | decOpen e a =>
    simp [encode, decodeFields, extractLsb'_setWidth_low a, extractLsb'_setWidth_high (n := 24) a]
  | _ => simp [encode, decodeFields]

/-- A well-formed instruction is spelled by a complete command (R105, R108). -/
theorem encode_complete {i : Instr} (h : i.WellFormed) : (encode i).complete = true := by
  cases i with
  | alphaLoad a p => exact (Laws.Spelling.alphaLoad a p).2 h
  | alphaMust a p => exact (Laws.Spelling.alphaMust a p).2 h
  | alphaEncv a v => exact (Laws.Spelling.alphaEncv a v).2 h
  | alphaDect a w => exact (Laws.Spelling.alphaDect a w).2 h
  | encOpen e a => exact (Laws.Spelling.encOpen e a).2 h
  | encWrite e p => exact (Laws.Spelling.encWrite e p).2 h
  | decOpen d a => exact (Laws.Spelling.decOpen d a).2 h
  | decRead d c => exact (Laws.Spelling.decRead d c).2 h
  | decInto d n => exact (Laws.Spelling.decInto d n).2 h
  | osEncode a p cap => exact (Laws.Spelling.osEncode a p cap).2 h
  | osDecode a p cap => exact (Laws.Spelling.osDecode a p cap).2 h

/-- Settles O1: the command is complete, and its fields give the instruction back. -/
theorem decodeOfEncode : Obligations.DecodeOfEncode := fun i h =>
  (decode_eq_ok_iff _ i).2 ⟨encode_complete h, decodeFields_encode i⟩

section Formats

variable {c : Command} {n : Nat}

/-- A complete command has its word, and as much beside it as its opcode says (R103, R105, R108). -/
theorem parts_of_complete (hc : c.complete = true) (hop : (opField c.cw).toNat = n) :
    mkWord (BitVec.ofNat 4 n) (unitField c.cw) (argField c.cw) = c.cw ∧
      c.ext.isSome = decide (TakesExtension (BitVec.ofNat 4 n)) ∧
      c.payload.length = if TakesPayload (BitVec.ofNat 4 n) then (argField c.cw).toNat else 0 := by
  subst hop
  rw [BitVec.ofNat_toNat, BitVec.setWidth_eq, ← isLong_eq, ← payloadLength_eq]
  exact ⟨mkWord_fields c.cw, (complete_iff c).1 hc⟩

/-- A command of an opcode without a payload is its word alone. -/
theorem eq_of_bare (hc : c.complete = true) (hop : (opField c.cw).toNat = n)
    (hx : ¬TakesExtension (BitVec.ofNat 4 n)) (hp : ¬TakesPayload (BitVec.ofNat 4 n)) :
    ⟨mkWord (BitVec.ofNat 4 n) (unitField c.cw) (argField c.cw), none, []⟩ = c := by
  obtain ⟨hword, hext, hlen⟩ := parts_of_complete hc hop
  rw [decide_eq_false hx, Option.isSome_eq_false_iff, Option.isNone_iff_eq_none] at hext
  rw [if_neg hp, List.length_eq_zero_iff] at hlen
  rw [hword, ← hext, ← hlen]

/-- A command of format S with a payload is its word and the payload, whose length the word states. -/
theorem eq_of_payload (hc : c.complete = true) (hop : (opField c.cw).toNat = n)
    (hx : ¬TakesExtension (BitVec.ofNat 4 n)) (hp : TakesPayload (BitVec.ofNat 4 n)) :
    ⟨mkWord (BitVec.ofNat 4 n) (unitField c.cw) (lengthArg c.payload), none, c.payload⟩ = c := by
  obtain ⟨hword, hext, hlen⟩ := parts_of_complete hc hop
  rw [decide_eq_false hx, Option.isSome_eq_false_iff, Option.isNone_iff_eq_none] at hext
  rw [if_pos hp] at hlen
  rw [lengthArg_eq hlen, hword, ← hext]

/-- A command of format L is its two words and the payload, whose length the first word states. -/
theorem eq_of_long (hc : c.complete = true) (hop : (opField c.cw).toNat = n)
    (hx : TakesExtension (BitVec.ofNat 4 n)) (hp : TakesPayload (BitVec.ofNat 4 n)) :
    ⟨mkWord (BitVec.ofNat 4 n) (unitField c.cw) (lengthArg c.payload), some (c.ext.getD 0), c.payload⟩ = c := by
  obtain ⟨hword, hext, hlen⟩ := parts_of_complete hc hop
  rw [decide_eq_true hx] at hext
  obtain ⟨cap, hcap⟩ := Option.isSome_iff_exists.1 hext
  rw [if_pos hp] at hlen
  rw [lengthArg_eq hlen, hword, hcap, Option.getD_some, ← hcap]

end Formats

/-- What the decoder accepts is spelled by the command it came from (R106, R107, R115). -/
theorem encode_of_decode {c : Command} {i : Instr} (h : decode c = .ok i) : encode i = c := by
  obtain ⟨hc, hf⟩ := (decode_eq_ok_iff c i).1 h
  unfold decodeFields at hf
  split at hf
  case h_1 hop | h_2 hop | h_6 hop =>
    cases hf
    exact eq_of_payload hc hop (by decide) (by decide)
  case h_3 hop | h_5 hop | h_7 hop =>
    split at hf
    case isTrue harg =>
      cases hf
      rw [encode, setWidth_extractLsb'_low harg]
      exact eq_of_bare hc hop (by decide) (by decide)
    case isFalse => cases hf
  case h_4 hop =>
    split at hf
    case isTrue harg =>
      cases hf
      obtain ⟨-, -, hlen⟩ := parts_of_complete hc hop
      rw [harg] at hlen
      rw [encode, bytes_ofBytes_of_length hlen]
      have q := eq_of_payload hc hop (by decide) (by decide)
      rwa [lengthArg_eq hlen] at q
    case isFalse => cases hf
  case h_8 hop | h_9 hop =>
    cases hf
    exact eq_of_bare hc hop (by decide) (by decide)
  case h_10 hop | h_11 hop =>
    cases hf
    exact eq_of_long hc hop (by decide) (by decide)
  case h_12 => cases hf

/-- Settles O2: what the decoder accepts is well formed, and encoding it again gives the command back. -/
theorem encodeOfDecode : Obligations.EncodeOfDecode := fun _ _ h => ⟨decode_wellFormed h, encode_of_decode h⟩

/-- Settles O3: each of the eleven words is decoded by evaluating the decoder on it. -/
theorem specWordsDecode : Obligations.SpecWordsDecode :=
  ⟨rfl, rfl, rfl, rfl, rfl, rfl, rfl, rfl, rfl, rfl, rfl⟩

end Sys2Proof

namespace Sys2Proof.Machine

/-! ## Words that spell no instruction -/

/-- A triple that is not complete has no step (R105, U4). -/
theorem runCommand_of_incomplete {c : Command} (h : c.complete = false) (s : State) :
    runCommand c s = .refused .notACommand := by
  simp [runCommand, decode, h]

/-- Settles O7: in each of the four cases the triple is not complete. -/
theorem wrongLengthHasNoStep : Obligations.WrongLengthHasNoStep := by
  intro c caller rest s hi hbad
  rw [takesPayload_iff, takesExtension_iff] at hbad
  rw [step_of_inputs hi]
  refine runCommand_of_incomplete (Bool.eq_false_iff.2 fun hc => ?_) _
  obtain ⟨hext, hlen⟩ := (complete_iff c).1 hc
  rw [isLong_eq] at hext
  rw [payloadLength_eq] at hlen
  rcases hbad with ⟨hop, hne⟩ | ⟨hop, hne⟩ | ⟨hop, hne⟩ | ⟨hop, hne⟩
  · rw [if_pos hop] at hlen
    exact hne hlen
  · rw [if_neg hop] at hlen
    exact hne (List.length_eq_zero_iff.1 hlen)
  · rw [decide_eq_true hop, hne] at hext
    cases hext
  · rw [decide_eq_false hop] at hext
    exact hne (Option.isNone_iff_eq_none.1 (by simpa using hext))

/-- On a running engine, a word that spells no instruction is refused when no lock holds it back (R114, R115, R130). -/
theorem step_refused_word {s : State} {caller : Nat} {c : Command} {rest : List Input}
    (hi : s.inputs = .present caller c :: rest) (hr : s.halted = false)
    (hd : decode c = .error .reservedOpcode ∨ decode c = .error .reservedBits)
    (hfree : ∀ t, wordTarget c.cw = some t → s.locked t = false) :
    step s = .next { s with
      caller := caller
      inputs := rest
      trace := .result caller none ⟨.refused, 0, 0, []⟩ :: s.trace } := by
  have hrun : (wordTarget c.cw).any ((s.setInputs rest).setCaller caller).heldBack = false := by
    cases ht : wordTarget c.cw with
    | none => rfl
    | some t =>
      have : ((s.setInputs rest).setCaller caller).locked t = false := by
        cases t <;> exact hfree _ ht
      simp [State.heldBack, hr, this]
  have hword : runCommand c ((s.setInputs rest).setCaller caller) =
      refuseWord c ((s.setInputs rest).setCaller caller) := by
    rcases hd with hd | hd <;> simp [runCommand, hd]
  rw [step_of_inputs hi]
  show runCommand c ((s.setInputs rest).setCaller caller) = _
  rw [hword, refuseWord, hrun, if_neg (by simp [hr])]
  rfl

/-- Settles O4: a reserved opcode addresses no instance, and the bare triple is complete. -/
theorem reservedOpcodeRefused : Obligations.ReservedOpcodeRefused := by
  intro cw caller rest s hop hr hi
  have hop := (reservedOp_iff cw).1 hop
  have hd : decode ⟨cw, none, []⟩ = .error .reservedOpcode := by
    rcases hop with h | h | h | h | h <;> rw [decode_short (by simp [h]) (by simp [h])] <;> simp [decodeFields, h]
  have ht : wordTarget cw = none := by
    rcases hop with h | h | h | h | h <;> simp [wordTarget, h]
  exact step_refused_word hi hr (.inl hd) (by simp [ht])

/-- Settles O5: each of the four words breaks its constraint, and the lock of the instance it addresses is free. -/
theorem reservedBitsRefused : Obligations.ReservedBitsRefused := by
  intro cw p caller rest s hbad hr hi
  have hencv : (argField cw).extractLsb' 2 22 = cw.extractLsb' 2 22 := BitVec.extractLsb'_extractLsb'_of_le (by decide)
  have hopen : (argField cw).extractLsb' 4 20 = cw.extractLsb' 4 20 := BitVec.extractLsb'_extractLsb'_of_le (by decide)
  rcases hbad with ⟨hop, hbits, rfl⟩ | ⟨hop, harg, hp⟩ | ⟨hop, hbits, rfl, hl⟩ | ⟨hop, hbits, rfl, hl⟩
  · have hop := (shiftRight_eq_iff cw 0x3).1 hop
    refine step_refused_word hi hr (.inr ?_) (by simp [wordTarget, hop, State.locked])
    rw [decode_short (by simp [hop]) (by simp [hop])]
    simpa [decodeFields, hop, hencv] using hbits
  · have hop := (shiftRight_eq_iff cw 0x4).1 hop
    refine step_refused_word hi hr (.inr ?_) (by simp [wordTarget, hop, State.locked])
    rw [decode_short (by simp [hop]) (by rwa [if_pos (by rw [hop]; decide)])]
    replace harg : argField cw ≠ 4 := harg
    simpa [decodeFields, hop] using harg
  · have hop := (shiftRight_eq_iff cw 0x5).1 hop
    refine step_refused_word hi hr (.inr ?_) (by simpa [wordTarget, hop, State.locked, unitField] using hl)
    rw [decode_short (by simp [hop]) (by simp [hop])]
    simpa [decodeFields, hop, hopen] using hbits
  · have hop := (shiftRight_eq_iff cw 0x7).1 hop
    refine step_refused_word hi hr (.inr ?_) (by simpa [wordTarget, hop, State.locked, unitField] using hl)
    rw [decode_short (by simp [hop]) (by simp [hop])]
    simpa [decodeFields, hop, hopen] using hbits

/-! ## Objects that do not exist -/

/-- A command on an object that does not exist is refused (R116). -/
theorem exec_of_out_of_range {i : Instr} {s : State} (hr : s.halted = false) (h : s.inRange (targetOf i) = false) :
    exec i s = .next (s.emit (.result s.caller (some i) refusedResult)) := by
  obtain ⟨body, q⟩ := exec_prologue i s
  simp [q, prologue, State.heldBack, hr, h]

/-- Settles O6: the prologue refuses an object that does not exist, and an `OPEN` command a slot that does not. -/
theorem unitOutOfRangeRefused : Obligations.UnitOutOfRangeRefused := by
  intro i s hr h
  rcases h with h | ⟨e, a, rfl, he, ha⟩ | ⟨d, a, rfl, hd, ha⟩
  · refine exec_of_out_of_range hr ?_
    cases ht : targetOf i <;> rw [ht] at h <;> simpa [State.inRange] using h
  · have hslot : (s.setLock true (.enc e)).slotInRange a = false := by simpa [State.slotInRange] using ha
    rw [exec, execEncOpen, prologue_enc rfl he, hslot]
    exact finish_enc rfl he _ _ _ _
  · have hslot : (s.setLock true (.dec d)).slotInRange a = false := by simpa [State.slotInRange] using ha
    rw [exec, execDecOpen, prologue_dec rfl hd, hslot]
    exact finish_dec rfl hd _ _ _ _

/-! ## Results -/

/-- No event among these is a result. -/
def NoResult (events : List Output) : Prop := ∀ c j r, .result c j r ∉ events

/-- At most one event among these is a result: the last one, of the command `i`, to `caller`. -/
def OneResult (caller : Nat) (i : Instr) (events : List Output) : Prop :=
  (∀ c j r, .result c j r ∈ events → c = caller ∧ j = some i ∧ events.head? = some (.result c j r)) ∧
    NoResult events.tail

theorem NoResult.nil : NoResult [] := fun _ _ _ => List.not_mem_nil

theorem NoResult.sinkWrite (e : UnitIdx) (offered : List Byte) (a : SinkAnswer) :
    NoResult [.sinkWrite e offered a] := by
  simp [NoResult]

theorem NoResult.srcRead (d : UnitIdx) (n : Nat) (a : SrcAnswer) : NoResult [.srcRead d n a] := by
  simp [NoResult]

theorem NoResult.oneResult {events : List Output} (h : NoResult events) (caller : Nat) (i : Instr) :
    OneResult caller i events :=
  ⟨fun c j r hm => absurd hm (h c j r), fun c j r hm => h c j r (List.mem_of_mem_tail hm)⟩

/-- A result that ends the events of a command is the only one. -/
theorem NoResult.result {events : List Output} (h : NoResult events) (caller : Nat) (i : Instr) (r : Result) :
    OneResult caller i (.result caller (some i) r :: events) := by
  refine ⟨fun c j r' hm => ?_, h⟩
  rcases List.mem_cons.1 hm with q | q
  · cases q
    exact ⟨rfl, rfl, rfl⟩
  · exact absurd q (h c j r')

/-- From `s`, the answer is a next state whose record has grown by at most one result, of `i` to `s.caller`, or a
refusal of a port that broke its duty (U2, U3). -/
def AnswersOnce (s : State) (i : Instr) (x : Answer) : Prop :=
  x = .refused .sinkBrokeDuty ∨ x = .refused .sourceBrokeDuty ∨
    ∃ t new, x = .next t ∧ t.trace = new ++ s.trace ∧ OneResult s.caller i new

theorem AnswersOnce.next {s t : State} {i : Instr} {new : List Output} (ht : t.trace = new ++ s.trace)
    (h : OneResult s.caller i new) : AnswersOnce s i (.next t) :=
  .inr (.inr ⟨t, new, rfl, ht, h⟩)

/-- A write that is served answers at most once, to the caller that started it. -/
theorem serveEncoder_answersOnce {s u : State} {e : UnitIdx} {p : List Byte}
    (hj : (u.encAt e).job = some ⟨s.caller, p⟩) (ht : u.trace = s.trace) :
    AnswersOnce s (.encWrite e p) (serveEncoder e u) := by
  rcases serveEncoder_effect e u with q | q | ⟨j, a, rest, hj', -, -, q⟩ <;> rw [q]
  · exact .next (new := []) ht (NoResult.nil.oneResult _ _)
  · exact .inl rfl
  · cases hj.symm.trans hj'
    obtain ⟨st, n, info, q, -⟩ := sinkAnswered_state e ⟨s.caller, p⟩ a
      ((u.setSink e rest).emit (.sinkWrite e (u.encAt e).path.escr a))
    rw [q]
    refine .next (new := [_, _]) ?_ ((NoResult.sinkWrite e (u.encAt e).path.escr a).result _ _ (mkResult st n info []))
    simp [endWrite, ht]

/-- A read that is served answers at most once, to the caller that started it. -/
theorem serveDecoder_answersOnce {s u : State} {d : UnitIdx} {j : DecJob} (hj : (u.decAt d).job = some j)
    (hc : j.caller = s.caller) (ht : u.trace = s.trace) : AnswersOnce s (j.instr d) (serveDecoder d u) := by
  rcases serveDecoder_effect d u with ⟨-, q⟩ | ⟨_, -, -, q⟩ | q | ⟨j', a, rest, hj', hs, hl, -⟩
  · rw [q]
    exact .next (new := []) ht (NoResult.nil.oneResult _ _)
  · rw [q]
    exact .next (new := []) ht (NoResult.nil.oneResult _ _)
  · exact .inr (.inl q)
  · cases hj.symm.trans hj'
    obtain ⟨m, st, info, q, hm, -, -⟩ := serveDecoder_answered (out := (decBytes _ _).1) (bad := (decBytes _ _).2)
      hj hs hl rfl
    have hread := NoResult.srcRead d (16 * j.capacity - (u.decAt d).leftLen.toNat) a
    obtain ⟨_, _, -, -, -, -, ⟨-, -, htr⟩ | ⟨-, -, r, htr⟩⟩ := endRead_frame d j st info (decBytes _ _).1 m <;> rw [q]
    · exact .next (by rw [htr, hm.trace, ht]; rfl) (hread.oneResult _ _)
    · exact .next (by rw [htr, hm.trace, ht, hc]; rfl) (hread.result _ _ r)

/-- Settles O10: a command ends with its result, waits or halts without one, or is served by its port. -/
theorem oneResultToTheCaller : Obligations.OneResultToTheCaller := by
  intro i s
  show AnswersOnce s i (exec i s)
  have silent : ∀ {t : State}, t.trace = s.trace → AnswersOnce s i (.next t) := fun ht =>
    .next (new := []) ht (NoResult.nil.oneResult _ _)
  have answered : ∀ {t : State} (r : Result), t.trace = .result s.caller (some i) r :: s.trace →
      AnswersOnce s i (.next t) := fun r ht =>
    .next (new := [_]) ht (NoResult.nil.result _ _ r)
  have effect := exec_effect i s
  generalize exec i s = x at effect
  cases effect with
  | held | halt => exact silent rfl
  | quiet | load | must | encOpen | decOpen => exact answered _ rfl
  | writeNone e => exact answered (mkResult .ok 0 0 []) (by simp [endWrite, startWrite])
  | write e p _ _ _ _ hx =>
    rw [← hx, startWrite_state]
    exact serveEncoder_answersOnce (by rw [setEnc_encAt_self]) rfl
  | read d c _ _ _ _ _ hx =>
    rw [← hx, startJob_state]
    exact serveDecoder_answersOnce (j := ⟨s.caller, false, c, []⟩) (by rw [setDec_decAt_self]) rfl rfl
  | into d c _ _ _ _ _ hx =>
    rw [← hx, startJob_state]
    exact serveDecoder_answersOnce (j := ⟨s.caller, true, c, []⟩) (by rw [setDec_decAt_self]) rfl rfl

/-! ## Result words -/

theorem pack4_toNat (w : Token) :
    (pack4 w).toNat = w.b0.toNat + 256 * w.b1.toNat + 65536 * w.b2.toNat + 16777216 * w.b3.toNat := by
  simp only [pack4, toNat_append_eq_add]
  omega

theorem mkResult_rw0_toNat (st : Status) {n : Nat} (hn : n < 2 ^ 28) (info : Word32) (data : List Byte) :
    (mkResult st n info data).rw0.toNat = st.code.toNat * 2 ^ 28 + n := by
  simp only [Result.rw0, mkResult, toNat_append_eq_add, BitVec.toNat_ofNat, Nat.mod_eq_of_lt hn]
  omega

/-- Settles O11: each word is the sum of its fields, each at the weight of its lowest bit; the numbers are those of the
table of R111. -/
theorem resultWordLayout : Obligations.ResultWordLayout :=
  ⟨pack4_toNat, fun st _ info data hn => ⟨mkResult_rw0_toNat st hn info data, rfl, rfl⟩,
    rfl, rfl, rfl, rfl, rfl, rfl, rfl, rfl, rfl, rfl, rfl⟩

/-! ## Alphabet specifications -/

/-- The tokens of a specification are its chunks (R90). -/
theorem tok_specTokens (p : List Byte) (v : BitVec 2) : tok (specTokens p) v = chunk p v.toNat := by
  rcases two_bits v with rfl | rfl | rfl | rfl <;> rfl

/-- The tokens of a specification are distinct if no two of its chunks are equal (R24, R132). -/
theorem distinct_specTokens_iff {p : List Byte} (hp : p.length = 16) :
    Distinct (specTokens p) ↔ ∀ i j, i < j → j < 4 → (p.drop (4 * i)).take 4 ≠ (p.drop (4 * j)).take 4 := by
  have eq_iff : ∀ {i j : Nat}, i < 4 → j < 4 →
      (chunk p i = chunk p j ↔ (p.drop (4 * i)).take 4 = (p.drop (4 * j)).take 4) := fun hi hj =>
    chunk_eq_iff (by omega) (by omega)
  constructor
  · intro hd i j hij hj q
    have hv := hd (BitVec.ofNat 2 i) (BitVec.ofNat 2 j) (by
      rw [tok_specTokens, tok_specTokens, BitVec.toNat_ofNat, BitVec.toNat_ofNat, Nat.mod_eq_of_lt (by omega),
        Nat.mod_eq_of_lt (by omega)]
      exact (eq_iff (by omega) hj).2 q)
    have : i % 4 = j % 4 := by simpa using congrArg BitVec.toNat hv
    omega
  · intro h u v q
    rw [tok_specTokens, tok_specTokens, eq_iff u.isLt v.isLt] at q
    rcases Nat.lt_trichotomy u.toNat v.toNat with lt | eq | gt
    · exact absurd q (h _ _ lt v.isLt)
    · exact BitVec.eq_of_toNat_eq eq
    · exact absurd q.symm (h _ _ gt u.isLt)

theorem validate_of_length_ne {p : List Byte} (hp : p.length ≠ 16) : validate p = .invalidLength := by
  rw [validate, if_neg (by rwa [lengthIs_iff])]

theorem validate_of_length {p : List Byte} (hp : p.length = 16) :
    validate p = if hasDuplicate (specTokens p) then .duplicate else .ok := by
  rw [validate, if_pos ((lengthIs_iff _ _).2 hp)]

/-- Settles O13: the duplicate test is the negation of distinctness, and the tokens are the chunks. -/
theorem validateVerdict : Obligations.ValidateVerdict := by
  refine fun p => ⟨validate_of_length_ne, fun hp ⟨i, j, hij, hj, q⟩ => ?_, fun hp hne => ?_⟩
  · have hdup : ¬hasDuplicate (specTokens p) = false := fun hf =>
      (distinct_specTokens_iff hp).1 ((hasDuplicate_false_iff _).1 hf) i j hij hj q
    rw [validate_of_length hp, if_pos (by simpa using hdup)]
  · have hd := (distinct_specTokens_iff hp).2 hne
    refine ⟨?_, hd, fun v => ?_⟩
    · rw [validate_of_length hp, (hasDuplicate_false_iff _).2 hd]
      rfl
    · rw [tok_specTokens, chunk_bytes (by omega)]

/-- Settles O14: `val` answers the value of a matching token, and distinctness makes it the only one. -/
theorem tokenLookup : Obligations.TokenLookup := fun t w hd =>
  ⟨fun _ => ⟨tok_of_val, val_of_tok hd⟩, val_none_iff t w, fun _ => val_of_tok hd rfl⟩

/-! ## Groups -/

/-- Each round shifts the current value right by 2 bits (R95, R153). -/
theorem encRounds_snd (t : Vector Token 4) (k : Nat) (cur : Byte) : (encRounds t k cur).2 = cur >>> (2 * k) := by
  induction k generalizing cur with
  | zero => simp [encRounds]
  | succ k ih => simp [encRounds, ih, ← BitVec.shiftRight_add, Nat.mul_add, Nat.add_comm]

/-- Settles O15: the group is the tokens of the four bit pairs, and 8 bits are shifted out. -/
theorem groupClosedForm : Obligations.GroupClosedForm := fun t b =>
  ⟨encByte_tokens t b, by rw [encRounds_snd, BitVec.ushiftRight_eq_zero (by decide)]; rfl⟩

/-- Settles O16, from the equations of `Enc`. -/
theorem encodingLength : Obligations.EncodingLength := fun t => ⟨encBytes_nil t, encBytes_cons t, encBytes_length t⟩

theorem decTokens_good {t : Vector Token 4} {w : Token} {v : BitVec 2} (h : val t w = some v) (ws : List Token)
    (acc : Byte) : decTokens t (w :: ws) acc = decTokens t ws (accumulate acc v) := by
  simp [decTokens, h]

/-- The first token that matches nothing is the one reported (R98). -/
theorem decTokens_bad {t : Vector Token 4} {w : Token} (hw : val t w = none) {us : List Token}
    (hus : ∀ u ∈ us, val t u ≠ none) (ws : List Token) (acc : Byte) :
    decTokens t (us ++ w :: ws) acc = .error w := by
  induction us generalizing acc with
  | nil => simp [decTokens, hw]
  | cons u us ih =>
    obtain ⟨v, hv⟩ := Option.ne_none_iff_exists'.1 (hus u List.mem_cons_self)
    rw [List.cons_append, decTokens_good hv]
    exact ih (fun u hu => hus u (List.mem_cons_of_mem _ hu)) _

/-- Tokens that decode all have a value. -/
theorem val_of_decTokens {t : Vector Token 4} {ws : List Token} {acc b : Byte} (h : decTokens t ws acc = .ok b)
    {w : Token} (hw : w ∈ ws) : ∃ v, val t w = some v := by
  induction ws generalizing acc with
  | nil => cases hw
  | cons u us ih =>
    cases hu : val t u with
    | none =>
      rw [show u :: us = [] ++ u :: us from rfl, decTokens_bad hu (by simp)] at h
      cases h
    | some v =>
      rw [decTokens_good hu] at h
      rcases List.mem_cons.1 hw with rfl | hw
      · exact ⟨v, hu⟩
      · exact ih h hw

/-- Four values accumulated from 0 stand side by side in the byte, the first one lowest (R98). -/
theorem accumulate_four (v0 v1 v2 v3 : BitVec 2) :
    accumulate (accumulate (accumulate (accumulate 0 v0) v1) v2) v3 = v3 ++ v2 ++ v1 ++ v0 := by
  revert v0 v1 v2 v3
  decide

/-- A byte is its four bit pairs side by side. -/
theorem append_bit_pairs (b : Byte) :
    b.extractLsb' 6 2 ++ b.extractLsb' 4 2 ++ b.extractLsb' 2 2 ++ b.extractLsb' 0 2 = b := by
  revert b
  decide

theorem decGroup_eq (t : Vector Token 4) (w0 w1 w2 w3 : Token) :
    decGroup t (w0.bytes ++ w1.bytes ++ w2.bytes ++ w3.bytes) = decTokens t [w0, w1, w2, w3] 0 := by
  simpa using decGroup_tokens t w0 w1 w2 w3 []

/-- A group whose four tokens have values decodes to the values side by side (R98). -/
theorem decGroup_of_vals {t : Vector Token 4} {w0 w1 w2 w3 : Token} {v0 v1 v2 v3 : BitVec 2}
    (h0 : val t w0 = some v0) (h1 : val t w1 = some v1) (h2 : val t w2 = some v2) (h3 : val t w3 = some v3) :
    decGroup t (w0.bytes ++ w1.bytes ++ w2.bytes ++ w3.bytes) = .ok (v3 ++ v2 ++ v1 ++ v0) := by
  rw [decGroup_eq, decTokens_good h0, decTokens_good h1, decTokens_good h2, decTokens_good h3, accumulate_four]
  rfl

/-- The group of four values is their four tokens in order (R95). -/
theorem encByte_append (t : Vector Token 4) (v0 v1 v2 v3 : BitVec 2) :
    encByte t (v3 ++ v2 ++ v1 ++ v0) =
      (tok t v0).bytes ++ (tok t v1).bytes ++ (tok t v2).bytes ++ (tok t v3).bytes := by
  have pairs : ∀ v0 v1 v2 v3 : BitVec 2,
      (v3 ++ v2 ++ v1 ++ v0).extractLsb' 0 2 = v0 ∧ (v3 ++ v2 ++ v1 ++ v0).extractLsb' 2 2 = v1 ∧
        (v3 ++ v2 ++ v1 ++ v0).extractLsb' 4 2 = v2 ∧ (v3 ++ v2 ++ v1 ++ v0).extractLsb' 6 2 = v3 := by
    decide
  obtain ⟨q0, q1, q2, q3⟩ := pairs v0 v1 v2 v3
  rw [encByte_tokens, q0, q1, q2, q3]

/-- Settles O17: the values stand side by side in the byte, and the tokens before the first bad one are all found. -/
theorem groupDecoding : Obligations.GroupDecoding := by
  intro t w0 w1 w2 w3 g
  have hg : decGroup t g = decTokens t [w0, w1, w2, w3] 0 := decGroup_eq t w0 w1 w2 w3
  refine ⟨fun v0 v1 v2 v3 h0 h1 h2 h3 => ⟨_, decGroup_of_vals h0 h1 h2 h3, ?_⟩, fun h0 => ?_, fun h0 h1 => ?_,
    fun h0 h1 h2 => ?_, fun h0 h1 h2 h3 => ?_⟩
  · simp only [toNat_append_eq_add]
    omega
  · exact hg.trans (decTokens_bad h0 (us := []) (by simp) _ _)
  · exact hg.trans (decTokens_bad h1 (us := [w0]) (by simp [h0]) _ _)
  · exact hg.trans (decTokens_bad h2 (us := [w0, w1]) (by simp [h0, h1]) _ _)
  · exact hg.trans (decTokens_bad h3 (us := [w0, w1, w2]) (by simp [h0, h1, h2]) _ _)

/-! ## Sequences of groups -/

/-- Settles O18, from what `Dec` does with a group in front. -/
theorem sequenceDecoding : Obligations.SequenceDecoding := fun t _ rest hg _ =>
  ⟨decBytes_short (by simp), fun w h => by rw [decBytes_group t hg, h], fun b h => by rw [decBytes_group t hg, h]⟩

/-- `DecGroup` undoes `EncByte` (R100). -/
theorem decGroup_encByte {t : Vector Token 4} (hd : Distinct t) (b : Byte) : decGroup t (encByte t b) = .ok b := by
  rw [encByte_tokens, decGroup_of_vals (val_of_tok hd rfl) (val_of_tok hd rfl) (val_of_tok hd rfl) (val_of_tok hd rfl),
    append_bit_pairs]

/-- A group that decodes is the group of its byte (R100). -/
theorem encByte_of_decGroup {t : Vector Token 4} {g : List Byte} (hg : g.length = 16) {b : Byte}
    (h : decGroup t g = .ok b) : encByte t b = g := by
  obtain ⟨w0, w1, w2, w3, rfl⟩ := sixteen_bytes hg
  have hv := fun w => val_of_decTokens ((decGroup_eq t w0 w1 w2 w3).symm.trans h) (w := w)
  obtain ⟨v0, h0⟩ := hv w0 (by simp)
  obtain ⟨v1, h1⟩ := hv w1 (by simp)
  obtain ⟨v2, h2⟩ := hv w2 (by simp)
  obtain ⟨v3, h3⟩ := hv w3 (by simp)
  cases h.symm.trans (decGroup_of_vals h0 h1 h2 h3)
  rw [encByte_append, tok_of_val h0, tok_of_val h1, tok_of_val h2, tok_of_val h3]

/-- `Dec` undoes `Enc` (R100). -/
theorem decBytes_encBytes {t : Vector Token 4} (hd : Distinct t) (bs : List Byte) :
    decBytes t (encBytes t bs) = (bs, none) := by
  induction bs with
  | nil => exact decBytes_short (by simp)
  | cons b bs ih => rw [encBytes_cons, decBytes_group t (encByte_length t b), decGroup_encByte hd, ih]

/-- What decodes without a bad token is the encoding of what it decodes to (R100). -/
theorem encBytes_of_decBytes {t : Vector Token 4} {e out : List Byte} (he : e.length % 16 = 0)
    (h : decBytes t e = (out, none)) : encBytes t out = e := by
  have hlen := decBytes_length h
  induction out generalizing e with
  | nil => exact (List.length_eq_zero_iff.1 (by simp at hlen; omega)).symm
  | cons b out ih =>
    obtain ⟨g, l, rfl, hg⟩ : ∃ g l, e = g ++ l ∧ g.length = 16 :=
      ⟨e.take 16, e.drop 16, (List.take_append_drop 16 e).symm, by simp at hlen ⊢; omega⟩
    rw [List.length_append] at he
    rw [decBytes_group t hg] at h
    cases hb : decGroup t g with
    | error w => simp [hb] at h
    | ok b' =>
      simp only [hb, Prod.mk.injEq, List.cons.injEq] at h
      obtain ⟨⟨rfl, hout⟩, hbad⟩ := h
      have hl : decBytes t l = (out, none) := Prod.ext hout hbad
      rw [encBytes_cons, encByte_of_decGroup hg hb, ih (by omega) hl (decBytes_length hl)]

/-- Settles O19; that `Enc` is injective follows since `Dec` undoes it. -/
theorem codingLaws : Obligations.CodingLaws := fun t hd =>
  ⟨decGroup_encByte hd, decBytes_encBytes hd,
    fun bs cs q => by simpa [decBytes_encBytes hd] using congrArg (decBytes t) q,
    fun _ _ => encBytes_of_decBytes⟩

end Sys2Proof.Machine

/-! SUPPORT. The statements of spec/40_alphabet.md: the four alphabet commands (R131 to R137), commands that are held back
(R130, R83), and the halt (R135, R232). -/

namespace Sys2Proof.Machine

/-! ## Commands that are held back -/

/-- A command that may not start waits, whatever it is (R83, R130). -/
theorem exec_of_heldBack {i : Instr} {s : State} (h : s.heldBack (targetOf i) = true) :
    exec i s = .next (s.hold (encode i)) := by
  obtain ⟨body, q⟩ := exec_prologue i s
  rw [q, prologue_held h]

theorem heldBack_of_halted {s : State} (h : s.halted = true) (t : Target) : s.heldBack t = true := by
  simp [State.heldBack, h]

theorem heldBack_of_locked {s : State} {t : Target} (hr : s.inRange t = true) (hl : s.locked t = true) :
    s.heldBack t = true := by
  simp [State.heldBack, hr, hl]

/-- Settles O9: in each of the three cases the prologue holds the command back. -/
theorem heldBackCommandWaits : Obligations.HeldBackCommandWaits := by
  intro i s hwait
  refine exec_of_heldBack ?_
  rcases hwait with hh | ⟨e, ht, he, hl⟩ | ⟨d, ht, hd, hl⟩
  · exact heldBack_of_halted hh _
  · rw [ht]
    exact heldBack_of_locked (decide_eq_true he) hl
  · rw [ht]
    exact heldBack_of_locked (decide_eq_true hd) hl

/-! ## Loading a slot -/

/-- What makes a specification bad, in one of the two ways of R91. -/
theorem validate_ne_ok_iff (p : List Byte) :
    validate p ≠ .ok ↔
      p.length ≠ 16 ∨ ∃ i j, i < j ∧ j < 4 ∧ (p.drop (4 * i)).take 4 = (p.drop (4 * j)).take 4 := by
  obtain ⟨hlength, hduplicate, hok⟩ := validateVerdict p
  constructor
  · intro hbad
    by_contra! hgood
    obtain ⟨hp, hne⟩ := hgood
    exact hbad (hok hp hne).1
  · rintro (hp | hdup)
    · simp [hlength hp]
    · by_cases hp : p.length = 16
      · simp [hduplicate hp hdup]
      · simp [hlength hp]

section Load

variable {s : State} {a : UnitIdx} {p : List Byte}

theorem exec_alphaLoad_of_invalidLength (h : SlotReady s a) (he : (s.slotAt a).valid = false)
    (hv : validate p = .invalidLength) :
    exec (.alphaLoad a p) s =
      .next (s.emit (.result s.caller (some (.alphaLoad a p)) ⟨.invalidAlphabetLength, 0, 0, []⟩)) := by
  rw [exec, execAlphaLoad, prologue_slot rfl h, he, hv]
  exact finish_slot rfl _ _ _ _ _

theorem exec_alphaLoad_of_duplicate (h : SlotReady s a) (he : (s.slotAt a).valid = false)
    (hv : validate p = .duplicate) :
    exec (.alphaLoad a p) s =
      .next (s.emit (.result s.caller (some (.alphaLoad a p)) ⟨.duplicateToken, 0, 0, []⟩)) := by
  rw [exec, execAlphaLoad, prologue_slot rfl h, he, hv]
  exact finish_slot rfl _ _ _ _ _

theorem exec_alphaLoad_of_ok (h : SlotReady s a) (he : (s.slotAt a).valid = false) (hv : validate p = .ok) :
    exec (.alphaLoad a p) s =
      .next ((loadSlot a p s).emit (.result s.caller (some (.alphaLoad a p)) ⟨.ok, 0, 0, []⟩)) := by
  rw [exec, execAlphaLoad, prologue_slot rfl h, he, hv]
  exact finish_slot rfl _ _ _ _ _

theorem exec_alphaLoad_of_valid (h : SlotReady s a) (hv : (s.slotAt a).valid = true) :
    exec (.alphaLoad a p) s = .next (s.emit (.result s.caller (some (.alphaLoad a p)) refusedResult)) := by
  rw [exec, execAlphaLoad, prologue_slot rfl h, hv]
  exact finish_slot rfl _ _ _ _ _

theorem exec_alphaMust_of_bad (h : SlotReady s a) (he : (s.slotAt a).valid = false) (hv : validate p ≠ .ok) :
    exec (.alphaMust a p) s = .next (s.setHalted true) := by
  cases q : validate p with
  | ok => exact absurd q hv
  | invalidLength | duplicate =>
    rw [exec, execAlphaMust, prologue_slot rfl h, he, q]
    rfl

theorem exec_alphaMust_of_ok (h : SlotReady s a) (he : (s.slotAt a).valid = false) (hv : validate p = .ok) :
    exec (.alphaMust a p) s =
      .next ((loadSlot a p s).emit (.result s.caller (some (.alphaMust a p)) ⟨.ok, 0, 0, []⟩)) := by
  rw [exec, execAlphaMust, prologue_slot rfl h, he, hv]
  exact finish_slot rfl _ _ _ _ _

theorem exec_alphaMust_of_valid (h : SlotReady s a) (hv : (s.slotAt a).valid = true) :
    exec (.alphaMust a p) s = .next (s.emit (.result s.caller (some (.alphaMust a p)) refusedResult)) := by
  rw [exec, execAlphaMust, prologue_slot rfl h, hv]
  exact finish_slot rfl _ _ _ _ _

end Load

/-- Settles O21: the verdict on the payload decides which of the three answers is given, and the tokens stored are its
chunks. -/
theorem alphaLoadOnEmptySlot : Obligations.AlphaLoadOnEmptySlot := by
  intro a p s h he
  obtain ⟨hlength, hduplicate, hok⟩ := validateVerdict p
  refine ⟨fun hp => exec_alphaLoad_of_invalidLength h he (hlength hp),
    fun hp hdup => exec_alphaLoad_of_duplicate h he (hduplicate hp hdup), fun hp hne => ?_⟩
  obtain ⟨hv, -, htok⟩ := hok hp hne
  exact ⟨specTokens p, htok, exec_alphaLoad_of_ok h he hv⟩

/-- Settles O22: each bad specification has a verdict that halts the engine, and a good one is loaded as by
`ALPHA.LOAD`. -/
theorem alphaMustOnEmptySlot : Obligations.AlphaMustOnEmptySlot := by
  intro a p s h he
  refine ⟨fun hbad => exec_alphaMust_of_bad h he ((validate_ne_ok_iff p).2 hbad), fun hp hne => ?_⟩
  obtain ⟨hv, -, htok⟩ := (validateVerdict p).2.2 hp hne
  exact ⟨specTokens p, htok, exec_alphaMust_of_ok h he hv⟩

/-- Settles O23: both commands look at `AVALID` before they look at their payload. -/
theorem validSlotNotReloaded : Obligations.ValidSlotNotReloaded := fun _ _ _ h hv =>
  ⟨exec_alphaLoad_of_valid h hv, exec_alphaMust_of_valid h hv⟩

/-! ## Looking up -/

section Lookup

variable {s : State} {a : UnitIdx}

theorem exec_alphaEncv_of_valid (h : SlotReady s a) (hv : (s.slotAt a).valid = true) (v : BitVec 2) :
    exec (.alphaEncv a v) s =
      .next (s.emit (.result s.caller (some (.alphaEncv a v)) ⟨.ok, 4, 0, (tok (s.tokens a) v).bytes⟩)) := by
  rw [exec, execAlphaEncv, prologue_slot rfl h, hv]
  exact finish_slot rfl _ _ _ _ _

theorem exec_alphaDect_of_val {w : Token} {v : BitVec 2} (h : SlotReady s a) (hv : (s.slotAt a).valid = true)
    (hw : val (s.tokens a) w = some v) :
    exec (.alphaDect a w) s =
      .next (s.emit (.result s.caller (some (.alphaDect a w)) ⟨.ok, 0, v.setWidth 32, []⟩)) := by
  rw [exec, execAlphaDect, prologue_slot rfl h, hv, hw]
  exact finish_slot rfl _ _ _ _ _

theorem exec_alphaDect_of_val_none {w : Token} (h : SlotReady s a) (hv : (s.slotAt a).valid = true)
    (hw : val (s.tokens a) w = none) :
    exec (.alphaDect a w) s =
      .next (s.emit (.result s.caller (some (.alphaDect a w)) ⟨.notFound, 0, 0, []⟩)) := by
  rw [exec, execAlphaDect, prologue_slot rfl h, hv, hw]
  exact finish_slot rfl _ _ _ _ _

end Lookup

/-- Settles O24: the token that is read is the register `TOK[s][v]`. -/
theorem alphaEncvReturnsToken : Obligations.AlphaEncvReturnsToken := fun _ v _ h hv => exec_alphaEncv_of_valid h hv v

/-- Settles O25: `val` finds the token's value since the tokens are distinct, and nothing if no token matches. -/
theorem alphaDectLooksUp : Obligations.AlphaDectLooksUp := fun _ _ _ h hv =>
  ⟨fun _ hd hw => exec_alphaDect_of_val h hv (val_of_tok hd hw),
    fun hne => exec_alphaDect_of_val_none h hv ((val_none_iff _ _).2 hne)⟩

/-! ## The halt -/

/-- A halted engine that steps without a reset moves nothing but its environment (R135, R232). -/
theorem step_of_halted {s s' : State} (hh : s.halted = true) (hstep : step s = .next s') :
    (∃ taken rest, s.inputs = .reset taken :: rest) ∨ SameEngine s s' := by
  cases step_cases hstep with
  | env h => exact .inr h
  | command i u h _ hx =>
    have held := exec_of_heldBack (heldBack_of_halted (h.halted.trans hh) (targetOf i))
    cases held.symm.trans hx
    exact .inr ⟨h.halted, h.alpha, h.enc, h.dec, h.params, h.trace⟩
  | badWord _ _ hr _ | serveEnc _ _ _ hr _ | serveDec _ _ _ hr _ => simp [hh] at hr
  | reset taken rest hin _ => exact .inl ⟨taken, rest, hin⟩

/-- Only `ALPHA.MUST` with a bad specification on an empty slot writes `HALTED` (R135). -/
theorem exec_halted_cases {i : Instr} {s t : State} (hx : exec i s = .next t) :
    t.halted = s.halted ∨ ∃ a p, i = .alphaMust a p ∧ (s.slotAt a).valid = false ∧ validate p ≠ .ok := by
  have effect := exec_effect i s
  rw [hx] at effect
  cases effect with
  | held | quiet | load | must | encOpen | decOpen | writeNone => exact .inl rfl
  | halt a p he hv => exact .inr ⟨a, p, rfl, he, hv⟩
  | write _ _ _ _ _ _ hx => exact .inl (serveEncoder_startWrite_only hx).halted
  | read _ _ _ _ _ _ _ hx | into _ _ _ _ _ _ _ hx => exact .inl (serveDecoder_startJob_only hx).halted

/-- Settles O58: while `HALTED` is 1 every command is held back and no instance goes on, and one command sets it. -/
theorem haltedUntilReset : Obligations.HaltedUntilReset := by
  refine ⟨fun s hh => ⟨fun hin => ?_, fun s' hstep => ?_⟩, fun i s t hr hx hh => ?_⟩
  · simp [step, hin, idle, hh]
  · exact (step_of_halted hh hstep).imp_right fun h => ⟨h.halted.trans hh, h.alpha, h.enc, h.dec, h.trace⟩
  · rcases exec_halted_cases hx with same | ⟨a, p, hi, he, hv⟩
    · simp [hh, hr] at same
    · exact ⟨a, p, hi, he, (validate_ne_ok_iff p).1 hv⟩

end Sys2Proof.Machine

/-! SUPPORT. The statements of spec/41_stream_encoder.md: the encoder commands (R151 to R158), what they leave unchanged
(R7), and the sink's stream (R79, R157). -/

namespace Sys2Proof.Machine

section Commands

variable {s t : State} {e : UnitIdx} {p : List Byte} {a : SinkAnswer} {rest : List SinkAnswer}

/-! ## Binding an encoder -/

theorem exec_encOpen_of_valid {a : UnitIdx} (h : EncReady s e) (ha : a.toNat < s.params.nAlpha)
    (hv : (s.slotAt a).valid = true) :
    exec (.encOpen e a) s =
      .next ((s.setEnc e { s.encAt e with bound := true, asel := a, hwm := 0 }).emit
        (.result s.caller (some (.encOpen e a)) ⟨.ok, 0, 0, []⟩)) := by
  have hslot : ((s.setLock true (.enc e)).slotInRange a && ((s.setLock true (.enc e)).slotAt a).valid) = true := by
    simp [State.slotInRange, ha, hv]
  rw [exec, execEncOpen, prologue_enc rfl h, if_pos hslot]
  simp [finish, targetOf, setLock_enc, mkResult, h.free]

/-! ## The end of a write -/

theorem emit_setEnc (s : State) (o : Output) (e : UnitIdx) (x : Encoder) :
    (s.emit o).setEnc e x = (s.setEnc e x).emit o := rfl

theorem setSink_setEnc (s : State) (e' : UnitIdx) (l : List SinkAnswer) (e : UnitIdx) (x : Encoder) :
    (s.setSink e' l).setEnc e x = (s.setEnc e x).setSink e' l := rfl

/-- The result of a write of `n` bytes whose sink has answered (R152, R156). -/
def sinkResult (n : Nat) (a : SinkAnswer) : Result :=
  match a.err with
  | none => mkResult .ok n 0 []
  | some c => mkResult .sinkError (a.accepted / 16) c []

theorem sinkResult_of_ok (n : Nat) (ha : a.err = none) : sinkResult n a = mkResult .ok n 0 [] := by
  simp [sinkResult, ha]

theorem sinkResult_of_err (n : Nat) {c : Word32} (ha : a.err = some c) :
    sinkResult n a = mkResult .sinkError (a.accepted / 16) c [] := by
  simp [sinkResult, ha]

@[simp] theorem endWrite_encAt (e : UnitIdx) (j : EncJob) (st : Status) (n : Nat) (info : Word32) (s : State) :
    (endWrite e j st n info s).encAt e =
      { s.encAt e with lock := false, job := none, path := freeEncPath s.trace.length } := by
  simp [endWrite]

/-- The completion of a write frees its encoder and reports what the sink answered. -/
theorem sinkAnswered_eq (e : UnitIdx) (j : EncJob) (a : SinkAnswer) (s : State) :
    sinkAnswered e j a s =
      (s.setEnc e { s.encAt e with lock := false, job := none, path := freeEncPath s.trace.length }).emit
        (.result j.caller (some (.encWrite e j.payload)) (sinkResult j.payload.length a)) := by
  unfold sinkAnswered
  cases ha : a.err with
  | none => rw [sinkResult_of_ok _ ha]; rfl
  | some c => rw [sinkResult_of_err _ ha]; rfl

@[simp] theorem raiseHwm_zero (hwm : BitVec 28) : raiseHwm hwm 0 = hwm := by
  simp [raiseHwm]

theorem exec_encWrite_nil (h : EncReady s e) (hb : (s.encAt e).bound = true) :
    exec (.encWrite e []) s =
      .next ((s.setEnc e { s.encAt e with path := freeEncPath s.trace.length, job := none }).emit
        (.result s.caller (some (.encWrite e [])) ⟨.ok, 0, 0, []⟩)) := by
  rw [exec, execEncWrite, prologue_enc rfl h, startWrite_state]
  simp [hb, endWrite, mkResult, h.free]

/-- A write whose sink has an answer ready that keeps its duty makes one sink write of the encoding of the payload, and
ends (R152, R153, R158). -/
theorem exec_encWrite_answered (h : EncReady s e) (hb : (s.encAt e).bound = true) (hp : p ≠ [])
    (hs : s.sinkAt e = a :: rest) (hd : sinkDuty (16 * p.length) a = true) :
    exec (.encWrite e p) s =
      .next ((((s.setEnc e
          { s.encAt e with
            hwm := raiseHwm (s.encAt e).hwm p.length
            path := freeEncPath (s.trace.length + 1)
            job := none }).setSink e rest).emit
        (.sinkWrite e (encBytes (s.tokens (s.encAt e).asel) p) a)).emit
          (.result s.caller (some (.encWrite e p)) (sinkResult p.length a))) := by
  rw [exec_write h hb hp, startWrite_state]
  simp [serveEncoder, hs, encodePayload_escr, hd, sinkAnswered_eq, emit_setEnc, setSink_setEnc, h.free]

/-! ## An encoder that goes on -/

/-- An encoder that goes on keeps its binding and `EHWM` (R157). -/
theorem serveEncoder_keeps (hx : serveEncoder e s = .next t) :
    (t.encAt e).bound = (s.encAt e).bound ∧ (t.encAt e).asel = (s.encAt e).asel ∧
      (t.encAt e).hwm = (s.encAt e).hwm := by
  rcases serveEncoder_effect e s with q | q | ⟨j, a, rest, -, -, -, q⟩ <;> cases hx.symm.trans q
  · exact ⟨rfl, rfl, rfl⟩
  · simp [sinkAnswered_eq]

/-- What an encoder that goes on adds to the record: nothing, or the sink write and the result of its own write. -/
theorem serveEncoder_trace (hx : serveEncoder e s = .next t) :
    t = s ∨ ∃ j a, (s.encAt e).job = some j ∧ sinkDuty (s.encAt e).path.escr.length a = true ∧
      t.trace = .result j.caller (some (.encWrite e j.payload)) (sinkResult j.payload.length a) ::
        .sinkWrite e (s.encAt e).path.escr a :: s.trace := by
  rcases serveEncoder_effect e s with q | q | ⟨j, a, rest, hj, -, hd, q⟩ <;> cases hx.symm.trans q
  · exact .inl rfl
  · exact .inr ⟨j, a, hj, hd, by simp [sinkAnswered_eq]⟩

end Commands

/-! ## The encoder commands -/

/-- Settles O27: the slot is valid, and the lock is free again at the end. -/
theorem encOpenBinds : Obligations.EncOpenBinds := fun _ _ _ => exec_encOpen_of_valid

/-- Settles O28: a sink that takes all bytes keeps its duty, and its answer carries no error. -/
theorem encWriteFlushes : Obligations.EncWriteFlushes := fun _ _ _ s h hb hp hlen hs =>
  ⟨_, _, raiseHwm_toNat _ hlen, exec_encWrite_answered h hb hp hs (by simp [sinkDuty])⟩

/-- Settles O29: a sink that reports an error keeps its duty if it takes no more than it is offered. -/
theorem encWriteSinkError : Obligations.EncWriteSinkError := fun _ _ _ _ _ s h hb hp hlen hm hs =>
  ⟨_, _, raiseHwm_toNat _ hlen, exec_encWrite_answered h hb hp hs (by simpa [sinkDuty] using hm)⟩

/-- Settles O30: `EHWM` is at least 0 already. -/
theorem encWriteOfNothing : Obligations.EncWriteOfNothing := fun _ _ h hb => ⟨_, exec_encWrite_nil h hb⟩

/-- Settles O52: each command waits, ends at once, or writes its own encoder; a write that is served by its sink keeps
what it had when it started. -/
theorem encoderCommandsFrame : Obligations.EncoderCommandsFrame := by
  refine ⟨fun e a s t hx => ?_, fun e p s t hlen hx => ?_⟩
  · have effect := exec_effect (.encOpen e a) s
    rw [hx] at effect
    cases effect with
    | held => exact ⟨onlyEncoder_hold _ _ _, rfl, rfl, rfl⟩
    | quiet => exact ⟨onlyEncoder_emit _ _ _, rfl, rfl, rfl⟩
    | encOpen => exact ⟨(onlyEncoder_setEnc _ _ _).trans (onlyEncoder_emit _ _ _), rfl, by simp, by simp⟩
  · have effect := exec_effect (.encWrite e p) s
    rw [hx] at effect
    cases effect with
    | held => exact ⟨onlyEncoder_hold _ _ _, rfl, rfl, Nat.le_refl _⟩
    | quiet => exact ⟨onlyEncoder_emit _ _ _, rfl, rfl, Nat.le_refl _⟩
    | writeNone =>
      exact ⟨(startWrite_only s e []).trans (endWrite_only _ _ _ _ _ _), by simp [startWrite], by simp [startWrite],
        by simp [startWrite]⟩
    | write _ _ _ _ _ _ hx =>
      obtain ⟨hbound, hasel, hhwm⟩ := serveEncoder_keeps hx
      rw [startWrite_state, setEnc_encAt_self] at hbound hasel hhwm
      refine ⟨serveEncoder_startWrite_only hx, hbound, hasel, ?_⟩
      rw [hhwm, raiseHwm_toNat _ hlen]
      exact Nat.le_max_left _ _

/-! ## The sink's stream -/

/-- The event adds nothing to the stream of encoder `e`: it opens no new one, no byte of it is written or taken, and no
write of it fails (R79). -/
structure OffStream (e : UnitIdx) (o : Output) : Prop where
  opens : opensEnc e o = false
  failed : sinkFailed e o = false
  taken : takenBy e o = []
  written : writtenBy e o = []

namespace OffStream

variable {e : UnitIdx} {i : Instr} {r : Result}

theorem srcRead (d : UnitIdx) (n : Nat) (a : SrcAnswer) : OffStream e (.srcRead d n a) := ⟨rfl, rfl, rfl, rfl⟩

theorem badWord (caller : Nat) (r : Result) : OffStream e (.result caller none r) := ⟨rfl, rfl, rfl, rfl⟩

theorem sinkWrite {e' : UnitIdx} (h : e' ≠ e) (offered : List Byte) (a : SinkAnswer) :
    OffStream e (.sinkWrite e' offered a) :=
  ⟨rfl, rfl, if_neg h, rfl⟩

/-- The result of a command on another object. -/
theorem result_of_target_ne (h : targetOf i ≠ .enc e) (caller : Nat) (r : Result) :
    OffStream e (.result caller (some i) r) := by
  cases i with
  | encOpen e' a =>
    have h : e' ≠ e := fun q => h (by rw [targetOf, q])
    exact ⟨by simp [opensEnc, h], rfl, rfl, rfl⟩
  | encWrite e' p =>
    have h : e' ≠ e := fun q => h (by rw [targetOf, q])
    exact ⟨rfl, by simp [sinkFailed, h], rfl, by simp [writtenBy, h]⟩
  | _ => exact ⟨rfl, rfl, rfl, rfl⟩

/-- A result that changes no register is no success and no sink error. -/
theorem result_of_quiet (h : QuietResult i r) (caller : Nat) : OffStream e (.result caller (some i) r) := by
  obtain ⟨-, hwrite, hopen⟩ := h
  cases i with
  | encOpen e' a =>
    have hr := hopen e' a (.inl rfl)
    exact ⟨by simp [opensEnc, hr], rfl, rfl, rfl⟩
  | encWrite e' p =>
    have hr := hwrite e' p rfl
    exact ⟨rfl, by simp [sinkFailed, hr], rfl, by simp [writtenBy, hr]⟩
  | _ => exact ⟨rfl, rfl, rfl, rfl⟩

/-- The result of a write of no bytes. -/
theorem result_of_writeNone (caller : Nat) (e' : UnitIdx) :
    OffStream e (.result caller (some (.encWrite e' [])) (mkResult .ok 0 0 [])) :=
  ⟨rfl, by simp [sinkFailed, mkResult], rfl, by simp [writtenBy]⟩

end OffStream

/-- From `s` to `t` the binding of encoder `e` and its alphabet stay, and no event adds to its stream. -/
structure StreamFrame (e : UnitIdx) (s t : State) : Prop where
  slots : KeepsSlots s t
  bound : (t.encAt e).bound = (s.encAt e).bound
  asel : (t.encAt e).asel = (s.encAt e).asel
  trace : ∃ new, t.trace = new ++ s.trace ∧ ∀ o ∈ new, OffStream e o

/-- Events that add nothing to the stream of an encoder add nothing to what any part of it says. -/
theorem bytesSince_append_of_offStream {e : UnitIdx} {new : List Output} (hnew : ∀ o ∈ new, OffStream e o)
    {f : Output → List Byte} (hf : ∀ {o}, OffStream e o → f o = []) (old : List Output) :
    bytesSince (opensEnc e) f (new ++ old) = bytesSince (opensEnc e) f old := by
  induction new with
  | nil => rfl
  | cons o new ih =>
    obtain ⟨ho, hnew⟩ := List.forall_mem_cons.1 hnew
    simp [bytesSince, ho.opens, hf ho, ih hnew]

theorem anySince_append_of_offStream {e : UnitIdx} {new : List Output} (hnew : ∀ o ∈ new, OffStream e o)
    (old : List Output) :
    anySince (opensEnc e) (sinkFailed e) (new ++ old) = anySince (opensEnc e) (sinkFailed e) old := by
  induction new with
  | nil => rfl
  | cons o new ih =>
    obtain ⟨ho, hnew⟩ := List.forall_mem_cons.1 hnew
    simp [anySince, ho.opens, ho.failed, ih hnew]

section Stream

variable {s t : State} {e e' : UnitIdx}

/-- An encoder that does not change, while valid slots stay. -/
theorem StreamFrame.of_encAt (k : KeepsSlots s t) (he : t.encAt e = s.encAt e)
    (ht : ∃ new, t.trace = new ++ s.trace ∧ ∀ o ∈ new, OffStream e o) : StreamFrame e s t :=
  ⟨k, by rw [he], by rw [he], ht⟩

/-- A register write that keeps the binding. -/
theorem StreamFrame.setEnc {x : Encoder} (hb : x.bound = (s.encAt e').bound) (ha : x.asel = (s.encAt e').asel) :
    StreamFrame e s (s.setEnc e' x) := by
  refine ⟨(onlyEncoder_setEnc s e' x).keepsSlots, ?_, ?_, [], rfl, by simp⟩ <;> rw [setEnc_encAt] <;> split
  · next q => rw [hb, q]
  · rfl
  · next q => rw [ha, q]
  · rfl

/-- One more event that adds nothing to the stream. -/
theorem StreamFrame.emit (h : StreamFrame e s t) {o : Output} (ho : OffStream e o) : StreamFrame e s (t.emit o) := by
  obtain ⟨new, ht, hnew⟩ := h.trace
  exact ⟨⟨h.slots.params, h.slots.slot⟩, h.bound, h.asel, o :: new, by simp [ht], List.forall_mem_cons.2 ⟨ho, hnew⟩⟩

/-- The stream holds on where the binding stays and nothing is added: a bound encoder's alphabet does not change
(R23, R25). -/
theorem SinkStreamHolds.frame (h : SinkStreamHolds s e) (hl : EncLegal s e) (k : StreamFrame e s t) :
    SinkStreamHolds t e := by
  obtain ⟨new, ht, hnew⟩ := k.trace
  intro hb hf
  rw [k.bound] at hb
  rw [ht, anySince_append_of_offStream hnew] at hf
  rw [ht, bytesSince_append_of_offStream hnew OffStream.taken, bytesSince_append_of_offStream hnew OffStream.written,
    k.asel, k.slots.tokens (hl.bound hb).2]
  exact h hb hf

/-- A sink that keeps its duty and reports no error has taken all it was offered (R67). -/
theorem take_of_sinkDuty {offered : List Byte} {a : SinkAnswer} (hd : sinkDuty offered.length a = true)
    (ha : a.err = none) : offered.take a.accepted = offered := by
  have : a.accepted = offered.length := by simpa [sinkDuty, ha] using hd
  rw [this, List.take_length]

/-- A write that its sink has answered puts the encoding of its payload at the end of the stream, or fails (R154). -/
theorem SinkStreamHolds.answered (h : SinkStreamHolds s e) {caller : Nat} {p : List Byte} {a : SinkAnswer}
    (hbound : (t.encAt e).bound = (s.encAt e).bound) (hasel : (t.encAt e).asel = (s.encAt e).asel)
    (htokens : t.tokens (s.encAt e).asel = s.tokens (s.encAt e).asel)
    (hd : sinkDuty (encBytes (s.tokens (s.encAt e).asel) p).length a = true)
    (ht : t.trace = .result caller (some (.encWrite e p)) (sinkResult p.length a) ::
      .sinkWrite e (encBytes (s.tokens (s.encAt e).asel) p) a :: s.trace) : SinkStreamHolds t e := by
  intro hb hf
  rw [hbound] at hb
  rw [ht] at hf ⊢
  cases ha : a.err with
  | some c => simp [anySince, opensEnc, sinkFailed, sinkResult_of_err _ ha, mkResult] at hf
  | none =>
    have hold := h hb (by simpa [anySince, opensEnc, sinkFailed, sinkResult_of_ok _ ha, mkResult] using hf)
    simp [bytesSince, opensEnc, takenBy, writtenBy, sinkResult_of_ok _ ha, mkResult, take_of_sinkDuty hd ha, hold,
      hasel, htokens]

/-- An encoder that goes on keeps the streams of all encoders. -/
theorem SinkStreamHolds.served (h : SinkStreamHolds s e) (hl : EncLegal s e) (hx : serveEncoder e' s = .next t) :
    SinkStreamHolds t e := by
  have only := (serveEncoder_only hx).1
  rcases serveEncoder_trace hx with rfl | ⟨j, a, hj, hd, ht⟩
  · exact h
  · by_cases he : e' = e
    · subst he
      obtain ⟨hbound, hasel, -⟩ := serveEncoder_keeps hx
      obtain ⟨-, -, -, hscr⟩ := hl.job j hj
      rw [hscr] at hd ht
      exact h.answered hbound hasel (only.tokens _) hd ht
    · have off : ∀ o ∈ [_, _], OffStream e o := List.forall_mem_cons.2
        ⟨.result_of_target_ne (i := .encWrite e' j.payload) (by simpa [targetOf] using he) j.caller
          (sinkResult j.payload.length a), List.forall_mem_singleton.2 (.sinkWrite he (s.encAt e').path.escr a)⟩
      exact h.frame hl (.of_encAt only.keepsSlots (only.enc e (Ne.symm he)) ⟨_, ht, off⟩)

theorem targetOf_instr (d : UnitIdx) (j : DecJob) : targetOf (j.instr d) = .dec d := by
  unfold DecJob.instr
  split <;> rfl

/-- A decoder that goes on reads its source and may answer its own command: nothing that an encoder's stream is made
of. -/
theorem serveDecoder_offStream {d : UnitIdx} (hx : serveDecoder d s = .next t) :
    ∃ new, t.trace = new ++ s.trace ∧ ∀ o ∈ new, OffStream e o := by
  rcases serveDecoder_effect d s with ⟨-, q⟩ | ⟨_, -, -, q⟩ | q | ⟨j, a, rest, hj, hs, hl, -⟩
  · cases hx.symm.trans q
    exact ⟨[], rfl, by simp⟩
  · cases hx.symm.trans q
    exact ⟨[], rfl, by simp⟩
  · cases hx.symm.trans q
  · obtain ⟨m, st, info, q, hm, -, -⟩ := serveDecoder_answered (out := (decBytes _ _).1) (bad := (decBytes _ _).2)
      hj hs hl rfl
    cases hx.symm.trans q
    have read : ∀ o ∈ [_], OffStream e o :=
      List.forall_mem_singleton.2 (.srcRead d (16 * j.capacity - (s.decAt d).leftLen.toNat) a)
    obtain ⟨_, _, -, -, -, -, ⟨-, -, ht⟩ | ⟨-, -, r, ht⟩⟩ := endRead_frame d j st info (decBytes _ _).1 m <;>
      rw [ht, hm.trace]
    · exact ⟨_, rfl, read⟩
    · exact ⟨_, rfl, List.forall_mem_cons.2
        ⟨.result_of_target_ne (by simp [targetOf_instr]) j.caller r, read⟩⟩

theorem serveDecoder_streamFrame {d : UnitIdx} (hx : serveDecoder d s = .next t) : StreamFrame e s t := by
  have only := (serveDecoder_only hx).1
  exact .of_encAt only.keepsSlots (only.encAt e) (serveDecoder_offStream hx)

/-- A read that has started and is served adds nothing to the stream of an encoder. -/
theorem serveDecoder_startJob_streamFrame {d : UnitIdx} {into : Bool} {c : Arg}
    (hx : serveDecoder d (startJob d into c (s.setLock true (.dec d))) = .next t) : StreamFrame e s t := by
  have only := serveDecoder_startJob_only hx
  rw [startJob_state] at hx
  obtain ⟨new, ht, hnew⟩ := serveDecoder_offStream (e := e) hx
  exact .of_encAt only.keepsSlots (only.encAt e) ⟨new, ht, hnew⟩

/-- `ENC.OPEN` begins an empty stream of its encoder and leaves the others (R151). -/
theorem SinkStreamHolds.opened (h : SinkStreamHolds s e) (hl : EncLegal s e) (a : UnitIdx) :
    SinkStreamHolds ((s.setEnc e' { s.encAt e' with bound := true, asel := a, hwm := 0 }).emit
      (.result s.caller (some (.encOpen e' a)) ⟨.ok, 0, 0, []⟩)) e := by
  by_cases he : e' = e
  · subst he
    intro _ _
    simp [bytesSince, opensEnc]
  · have off : OffStream e (.result s.caller (some (.encOpen e' a)) ⟨.ok, 0, 0, []⟩) :=
      .result_of_target_ne (by simpa [targetOf] using he) _ _
    exact h.frame hl (.of_encAt ((onlyEncoder_setEnc s e' _).trans (onlyEncoder_emit _ _ _)).keepsSlots
      (setEnc_encAt_ne s e' _ e (Ne.symm he)) ⟨[_], rfl, List.forall_mem_singleton.2 off⟩)

/-- Every command that a word can spell keeps the streams of all encoders. -/
theorem SinkStreamHolds.exec {i : Instr} (h : SinkStreamHolds s e) (hi : s.Inv) (hw : i.WellFormed)
    (hx : exec i s = .next t) : SinkStreamHolds t e := by
  have frame : StreamFrame e s t → SinkStreamHolds t e := h.frame (hi.enc e)
  have slots := exec_keepsSlots hx
  have effect := exec_effect i s
  rw [hx] at effect
  cases effect with
  | held | halt => exact frame (.of_encAt slots rfl ⟨[], rfl, by simp⟩)
  | quiet i r hq =>
    exact frame (.of_encAt slots rfl ⟨[_], rfl, List.forall_mem_singleton.2 (.result_of_quiet hq _)⟩)
  | load | must | decOpen =>
    exact frame (.of_encAt slots rfl
      ⟨[_], rfl, List.forall_mem_singleton.2 (.result_of_target_ne (by simp [targetOf]) _ _)⟩)
  | encOpen e' a => exact h.opened (hi.enc e) a
  | writeNone e' =>
    refine frame ?_
    rw [startWrite_state, endWrite, setEnc_setEnc, setEnc_encAt_self]
    refine StreamFrame.emit ?_ (.result_of_writeNone _ _)
    exact .setEnc rfl rfl
  | write e' p _ hb hp _ hx =>
    have legal : EncLegal (startWrite e' p (s.setLock true (.enc e'))) e :=
      (hi.onlyEncoder (startWrite_only s e' p) ((hi.enc e').started hb hp hw)).enc e
    have started : StreamFrame e s (startWrite e' p (s.setLock true (.enc e'))) := by
      rw [startWrite_state]
      exact .setEnc rfl rfl
    exact (h.frame (hi.enc e) started).served legal hx
  | read _ _ _ _ _ _ _ hx | into _ _ _ _ _ _ _ hx => exact frame (serveDecoder_startJob_streamFrame hx)

theorem SameEngine.streamFrame (h : SameEngine s t) : StreamFrame e s t :=
  .of_encAt h.keepsSlots (h.encAt e) ⟨[], h.trace, by simp⟩

end Stream

/-- Settles O33: an encoder's stream grows only by its own writes, each of which adds the encoding of its payload or ends
the claim with a sink error; `ENC.OPEN` begins an empty one and reset unbinds. -/
theorem sinkStreamKept : Obligations.SinkStreamKept := by
  intro s s' hi hstream hstep e
  have unmoved : ∀ {u : State}, SameEngine s u → SinkStreamHolds u e := fun k =>
    (hstream e).frame (hi.enc e) k.streamFrame
  cases step_cases hstep with
  | env k => exact unmoved k
  | command i u k hw hx => exact (unmoved k).exec (hi.sameEngine k) hw hx
  | badWord u k _ hs =>
    exact hs ▸ (hstream e).frame (hi.enc e) (k.streamFrame.emit (.badWord u.caller refusedResult))
  | serveEnc e' u k _ hx => exact (unmoved k).served ((hi.sameEngine k).enc e) hx
  | serveDec d u k _ hx => exact (unmoved k).frame ((hi.sameEngine k).enc e) (serveDecoder_streamFrame hx)
  | reset taken rest _ hs =>
    subst hs
    intro hb
    simp [Encoder.reset] at hb

end Sys2Proof.Machine

/-! SUPPORT. The statements of spec/42_stream_decoder.md: the decoder commands (R171 to R188), what they leave unchanged
(R7), and the carry (R184). -/

namespace Sys2Proof.Machine

/-! ## Whole groups and the rest -/

/-- The whole groups of a byte sequence, which are decoded (R175). -/
abbrev wholeGroups (l : List Byte) : List Byte := l.take (16 * (l.length / 16))

/-- The rest, shorter than a group, which is carried (R178). -/
abbrev tailBytes (l : List Byte) : List Byte := l.drop (16 * (l.length / 16))

section Groups

variable {t : Vector Token 4}

theorem wholeGroups_length (l : List Byte) : (wholeGroups l).length = 16 * (l.length / 16) := by
  rw [List.length_take]; omega

theorem tailBytes_length (l : List Byte) : (tailBytes l).length = l.length % 16 := by
  rw [List.length_drop]; omega

/-- One more chunk of a stream: the whole groups grow by those of the old rest and the chunk. -/
theorem wholeGroups_append (x b : List Byte) :
    wholeGroups (x ++ b) = wholeGroups x ++ wholeGroups (tailBytes x ++ b) := by
  have hn : 16 * ((x ++ b).length / 16) =
      (wholeGroups x).length + 16 * ((tailBytes x ++ b).length / 16) := by
    rw [wholeGroups_length, List.length_append, List.length_append, tailBytes_length]; omega
  rw [wholeGroups, hn, wholeGroups, wholeGroups, ← List.take_length_add_append, ← List.append_assoc,
    List.take_append_drop]

theorem tailBytes_append (x b : List Byte) : tailBytes (x ++ b) = tailBytes (tailBytes x ++ b) := by
  have parts : ∀ l : List Byte, wholeGroups l ++ tailBytes l = l := fun l => List.take_append_drop _ l
  have h : wholeGroups x ++ (wholeGroups (tailBytes x ++ b) ++ tailBytes (x ++ b)) =
      wholeGroups x ++ (tailBytes x ++ b) := by
    rw [← List.append_assoc, ← wholeGroups_append, parts, ← List.append_assoc, parts]
  exact List.append_cancel_left ((List.append_cancel_left h).trans (parts _).symm)

/-- Decoding goes on at the rest of the stream with the next chunk (R184). -/
theorem decBytes_wholeGroups_append {x b out out' : List Byte} (hx : decBytes t (wholeGroups x) = (out, none))
    (hb : decBytes t (wholeGroups (tailBytes x ++ b)) = (out', none)) :
    decBytes t (wholeGroups (x ++ b)) = (out ++ out', none) := by
  rw [wholeGroups_append, decBytes_append (by rw [wholeGroups_length]; omega) hx, hb]

end Groups

/-! ## Corrupt tokens -/

/-- A group with one token replaced by 4 bytes that match nothing reports them (R191). -/
theorem decGroup_corrupt {t : Vector Token 4} (hd : Distinct t) {w : Token} (hw : val t w = none) (b : Byte) {k : Nat}
    (hk : k < 4) : decGroup t ((encByte t b).take (4 * k) ++ w.bytes ++ (encByte t b).drop (4 * k + 4)) = .error w := by
  have found : ∀ {v w}, tok t v = w → val t w ≠ none := fun h => by simp [val_of_tok hd h]
  rw [encByte_tokens]
  generalize h0 : tok t (b.extractLsb' 0 2) = w0, h1 : tok t (b.extractLsb' 2 2) = w1,
    h2 : tok t (b.extractLsb' 4 2) = w2, tok t (b.extractLsb' 6 2) = w3
  match k, hk with
  | 0, _ => exact decTokens_bad hw (us := []) (by simp) [w1, w2, w3] 0
  | 1, _ => exact decTokens_bad hw (us := [w0]) (by simp [found h0]) [w2, w3] 0
  | 2, _ => exact decTokens_bad hw (us := [w0, w1]) (by simp [found h0, found h1]) [w3] 0
  | 3, _ => exact decTokens_bad hw (us := [w0, w1, w2]) (by simp [found h0, found h1, found h2]) [] 0

/-- Settles O20: what stands before the group decodes, and the group reports its corrupt token. -/
theorem corruptTokenReported : Obligations.CorruptTokenReported := by
  intro t before b k w rest hd hk hw _
  have hlen : ((encByte t b).take (4 * k) ++ w.bytes ++ (encByte t b).drop (4 * k + 4)).length = 16 := by
    simp only [List.length_append, List.length_take, List.length_drop, encByte_length, bytes_length]
    omega
  rw [List.append_assoc, decBytes_append (by simp) (decBytes_encBytes hd before), decBytes_group t hlen,
    decGroup_corrupt hd hw b hk, List.append_nil]

section Commands

variable {s t : State} {d : UnitIdx} {c : Arg} {a : SrcAnswer} {rest : List SrcAnswer} {out : List Byte}
  {bad : Option Token} {j : DecJob}

/-! ## Commands that end at once -/

theorem exec_decOpen_of_valid {a : UnitIdx} (h : DecReady s d) (ha : a.toNat < s.params.nAlpha)
    (hv : (s.slotAt a).valid = true) :
    exec (.decOpen d a) s =
      .next ((s.setDec d { s.decAt d with bound := true, asel := a, leftLen := 0, phase := .idle }).emit
        (.result s.caller (some (.decOpen d a)) ⟨.ok, 0, 0, []⟩)) := by
  have hslot : ((s.setLock true (.dec d)).slotInRange a && ((s.setLock true (.dec d)).slotAt a).valid) = true := by
    simp [State.slotInRange, ha, hv]
  rw [exec, execDecOpen, prologue_dec rfl h, if_pos hslot]
  simp [finish, targetOf, setLock_dec, mkResult, h.free]

/-- A faulted decoder answers every read with the word it has latched (R181). -/
theorem exec_decRead_of_fault (h : DecReady s d) (hb : (s.decAt d).bound = true) (hp : (s.decAt d).phase = .fault)
    (c : Arg) :
    exec (.decRead d c) s =
      .next (s.emit (.result s.caller (some (.decRead d c)) ⟨.invalidWord, 0, pack4 (s.decAt d).bad, []⟩)) := by
  rw [exec, execDecRead, prologue_dec rfl h, setLock_dec_bound, if_pos hb, setLock_dec_phase, if_pos hp,
    finish_dec rfl h, setLock_dec_bad]
  rfl

theorem exec_decRead_zero (h : DecReady s d) (hb : (s.decAt d).bound = true) (hp : (s.decAt d).phase ≠ .fault) :
    exec (.decRead d 0) s = .next (s.emit (.result s.caller (some (.decRead d 0)) ⟨.ok, 0, 0, []⟩)) := by
  rw [exec, execDecRead, prologue_dec rfl h, setLock_dec_bound, if_pos hb, setLock_dec_phase, if_neg hp, if_pos rfl,
    finish_dec rfl h]
  rfl

/-- A destination of no bytes is full before any read, and before the fault is looked at (R187). -/
theorem exec_decInto_zero (h : DecReady s d) (hb : (s.decAt d).bound = true) :
    exec (.decInto d 0) s = .next (s.emit (.result s.caller (some (.decInto d 0)) ⟨.ok, 0, 0, []⟩)) := by
  rw [exec, execDecInto, prologue_dec rfl h, setLock_dec_bound, if_pos hb, if_pos rfl, finish_dec rfl h]
  rfl

theorem exec_decInto_of_fault (h : DecReady s d) (hb : (s.decAt d).bound = true) (hp : (s.decAt d).phase = .fault)
    (hc : c ≠ 0) :
    exec (.decInto d c) s =
      .next (s.emit (.result s.caller (some (.decInto d c)) ⟨.invalidWord, 0, pack4 (s.decAt d).bad, []⟩)) := by
  rw [exec, execDecInto, prologue_dec rfl h, setLock_dec_bound, if_pos hb, if_neg hc, setLock_dec_phase, if_pos hp,
    finish_dec rfl h, setLock_dec_bad]
  rfl

/-! ## A read that waits for its source -/

/-- The decoder that has the command `j` in progress and waits for its source: in `FILLING`, the leftover in scratch
(R170, R172). -/
def Decoder.waitsWith (D : Decoder) (j : DecJob) : Decoder :=
  { D with lock := true, job := some j, phase := .filling, path := { D.path with dscr := D.leftover } }

theorem serveDecoder_blocked (hj : (s.decAt d).job = some j) (hs : s.srcAt d = []) :
    serveDecoder d s = .next (beginFill d s) := by
  simp [serveDecoder, hj, hs]

/-- A command that starts with no answer of its source ready waits (R271). -/
theorem serveDecoder_startJob_blocked (hs : s.srcAt d = []) (into : Bool) (c : Arg) :
    serveDecoder d (startJob d into c (s.setLock true (.dec d))) =
      .next (s.setDec d ((s.decAt d).waitsWith ⟨s.caller, into, c, []⟩)) := by
  rw [startJob_state, serveDecoder_blocked (s := s.setDec d _) (by rw [setDec_decAt_self]) hs]
  simp [beginFill, Decoder.waitsWith]

/-- Waiting on changes nothing. -/
theorem beginFill_of_waitsWith {D : Decoder} (h : s.decAt d = D.waitsWith j) : beginFill d s = s := by
  have same : ({ s.decAt d with
      phase := .filling, path := { (s.decAt d).path with dscr := (s.decAt d).leftover } } : Decoder) = s.decAt d := by
    rw [h]; rfl
  rw [beginFill, same, setDec_self]

/-! ## A read that its source answers -/

/-- A read of decoder `d` has been made on the answer `a`: the answer is consumed, nothing of other instances has
changed, and the decoder is in `FAULT` at the bad token, or in `IDLE` with the new leftover (R176, R178, R181). -/
structure ReadMade (s : State) (d : UnitIdx) (a : SrcAnswer) (rest : List SrcAnswer) (bad : Option Token)
    (t : State) : Prop where
  only : OnlyDecoder d s t
  waiting : t.waiting = s.waiting
  src : t.srcAt d = rest
  bound : (t.decAt d).bound = (s.decAt d).bound
  asel : (t.decAt d).asel = (s.decAt d).asel
  faulted : ∀ w, bad = some w →
    (t.decAt d).phase = .fault ∧ (t.decAt d).bad = w ∧ (t.decAt d).leftLen = 0 ∧ (t.decAt d).leftover = []
  carried : bad = none →
    (t.decAt d).phase = .idle ∧ (t.decAt d).bad = (s.decAt d).bad ∧
      (t.decAt d).leftover = tailBytes ((s.decAt d).leftover ++ a.bytes) ∧
      (t.decAt d).leftLen.toNat = ((s.decAt d).leftover ++ a.bytes).length % 16

/-- The read has asked for `n` bytes and ended its command, which was `i` of `caller`, with the result `r`. -/
structure ReadAnswered (s : State) (d : UnitIdx) (caller : Nat) (i : Instr) (n : Nat) (a : SrcAnswer) (r : Result)
    (t : State) : Prop where
  lock : (t.decAt d).lock = false
  job : (t.decAt d).job = none
  trace : t.trace = .result caller (some i) r :: .srcRead d n a :: s.trace

/-- The read has asked for `n` bytes and its command goes on as `j`. -/
structure ReadGoesOn (s : State) (d : UnitIdx) (lock : Bool) (j : DecJob) (n : Nat) (a : SrcAnswer) (t : State) :
    Prop where
  lock : (t.decAt d).lock = lock
  job : (t.decAt d).job = some j
  trace : t.trace = .srcRead d n a :: s.trace

theorem leftover_of_leftLen_zero {D : Decoder} (h : D.leftLen = 0) : D.leftover = [] := by
  simp [Decoder.leftover, h]

/-- The end of a read changes no more than the lock and the job. -/
theorem ReadDone.endRead {m : State} (hm : ReadDone s d j a rest bad m) (st : Status) (info : Word32)
    (out : List Byte) : ReadMade s d a rest bad (endRead d j st info out m) := by
  obtain ⟨lock, job, hdec, honly, hwaiting, hsrc, -⟩ := endRead_frame d j st info out m
  refine ⟨hm.only.trans honly, hwaiting.trans hm.waiting, ?_, ?_, ?_, fun w hw => ?_, fun hcarry => ?_⟩
  · rw [State.srcAt]
    simp only [hsrc]
    exact hm.src
  · rw [hdec]; exact hm.bound
  · rw [hdec]; exact hm.asel
  · obtain ⟨hp, hb, hl, -⟩ := hm.faulted w hw
    rw [hdec]
    exact ⟨hp, hb, hl, leftover_of_leftLen_zero hl⟩
  · obtain ⟨hp, hb, hl⟩ := hm.carried hcarry
    have hlen := (leftover_length (m.decAt d)).symm.trans ((congrArg List.length hl).trans (tailBytes_length _))
    rw [hdec]
    exact ⟨hp, hb, hl, hlen⟩

theorem ReadDone.endJob {m : State} (hm : ReadDone s d j a rest bad m) (st : Status) (info : Word32)
    (data : List Byte) :
    ReadAnswered s d j.caller (j.instr d) (16 * j.capacity - (s.decAt d).leftLen.toNat) a
      (mkResult st data.length info data) (endJob d j st info data m) :=
  ⟨by rw [endJob_decAt], by rw [endJob_decAt], by simp [Machine.endJob, hm.trace]⟩

/-- A read within its request decodes no more bytes than its capacity (R185). -/
theorem decoded_length_le {t : Vector Token 4} {D : Decoder} {b : List Byte} {n : Nat}
    (hl : b.length ≤ 16 * n - D.leftLen.toNat) (hd : decBytes t (wholeGroups (D.leftover ++ b)) = (out, bad)) :
    out.length ≤ n := by
  have hle := decBytes_length_le t (wholeGroups (D.leftover ++ b))
  have := D.leftLen.isLt
  rw [hd, wholeGroups_length, List.length_append, leftover_length] at hle
  dsimp only at hle
  omega

/-- The result of a `DEC.READ` that has decoded `out` (R176, R179, R182). -/
def readResult (st : SrcStatus) (out : List Byte) : Option Token → Result
  | some w => mkResult .invalidWord out.length (pack4 w) out
  | none => mkResult st.status out.length st.info out

/-- The result of a `DEC.INTO` that ends with the bytes `all` (R186). -/
def intoResult (st : SrcStatus) (all : List Byte) : Option Token → Result
  | some w => mkResult .invalidWord all.length (pack4 w) all
  | none =>
    match st with
    | .err code => mkResult .sourceError all.length code all
    | .eos => mkResult .ok all.length 0 all
    | .none => mkResult .ok all.length 0 all

theorem readResult_eq_mkResult (st : SrcStatus) (out : List Byte) (bad : Option Token) :
    mkResult (readResult st out bad).status out.length (readResult st out bad).info out = readResult st out bad := by
  cases bad <;> rfl

theorem readResult_data (st : SrcStatus) (out : List Byte) (bad : Option Token) :
    (readResult st out bad).data = out := by
  cases bad <;> rfl

theorem readResult_count (st : SrcStatus) (out : List Byte) (bad : Option Token) :
    (readResult st out bad).count = BitVec.ofNat 28 out.length := by
  cases bad <;> rfl

theorem intoResult_eq_mkResult (st : SrcStatus) (all : List Byte) (bad : Option Token) :
    mkResult (intoResult st all bad).status all.length (intoResult st all bad).info all = intoResult st all bad := by
  cases bad with
  | some w => rfl
  | none => cases st <;> rfl

/-- The last inner read of a `DEC.INTO`, which ends the command unless the stream goes on after whole groups that did
not fill the destination (R186). -/
theorem endRead_into_ended {st : SrcStatus} (hi : j.into = true)
    (hends : bad = none → st = .none → j.cap.toNat ≤ (j.out ++ out).length) (m : State) :
    endRead d j (readResult st out bad).status (readResult st out bad).info out m =
      endJob d j (intoResult st (j.out ++ out) bad).status (intoResult st (j.out ++ out) bad).info
        (j.out ++ out) m := by
  rw [endRead, if_pos hi]
  cases bad with
  | some w => rfl
  | none =>
    cases st with
    | none => exact if_neg (Nat.not_lt.2 (hends rfl rfl))
    | eos | err => rfl

theorem endRead_into_goesOn (hi : j.into = true) (hroom : (j.out ++ out).length < j.cap.toNat) (m : State) :
    endRead d j (readResult .none out none).status (readResult .none out none).info out m =
      m.setDec d { m.decAt d with job := some { j with out := j.out ++ out } } := by
  rw [endRead, if_pos hi]
  exact if_pos hroom

section Answered

variable (hj : (s.decAt d).job = some j) (hs : s.srcAt d = a :: rest)
  (hl : a.bytes.length ≤ 16 * j.capacity - (s.decAt d).leftLen.toNat)
  (hd : decBytes (s.tokens (s.decAt d).asel) (wholeGroups ((s.decAt d).leftover ++ a.bytes)) = (out, bad))

include hj hs hl hd

theorem serveDecoder_eq_endRead :
    ∃ m, serveDecoder d s = .next (endRead d j (readResult a.st out bad).status (readResult a.st out bad).info out m) ∧
      ReadDone s d j a rest bad m := by
  obtain ⟨m, st, info, q, hm, hbad, hgood⟩ := serveDecoder_answered hj hs hl hd
  refine ⟨m, ?_, hm⟩
  cases bad with
  | some w => obtain ⟨rfl, rfl⟩ := hbad w rfl; exact q
  | none => obtain ⟨rfl, rfl⟩ := hgood rfl; exact q

/-- A `DEC.READ` in progress whose source has answered ends (R172 to R179). -/
theorem serveDecoder_read (hi : j.into = false) :
    ∃ t, serveDecoder d s = .next t ∧ ReadMade s d a rest bad t ∧
      ReadAnswered s d j.caller (j.instr d) (16 * j.capacity - (s.decAt d).leftLen.toNat) a
        (readResult a.st out bad) t := by
  obtain ⟨m, q, hm⟩ := serveDecoder_eq_endRead hj hs hl hd
  refine ⟨_, q, hm.endRead _ _ _, ?_⟩
  rw [endRead_read hi, ← readResult_eq_mkResult]
  exact hm.endJob _ _ _

/-- A `DEC.INTO` in progress whose source has answered ends, or goes on if the stream does and the destination is not
full (R186). -/
theorem serveDecoder_into (hi : j.into = true) (hroom : j.out.length < j.cap.toNat) :
    ∃ t, serveDecoder d s = .next t ∧ ReadMade s d a rest bad t ∧
      ((bad = none → a.st = .none → (j.out ++ out).length = j.cap.toNat) →
        ReadAnswered s d j.caller (j.instr d) (16 * j.capacity - (s.decAt d).leftLen.toNat) a
          (intoResult a.st (j.out ++ out) bad) t) ∧
      (bad = none → a.st = .none → (j.out ++ out).length ≠ j.cap.toNat →
        ReadGoesOn s d (s.decAt d).lock { j with out := j.out ++ out }
          (16 * j.capacity - (s.decAt d).leftLen.toNat) a t) := by
  obtain ⟨m, q, hm⟩ := serveDecoder_eq_endRead hj hs hl hd
  refine ⟨_, q, hm.endRead _ _ _, fun hends => ?_, fun hn hst hne => ?_⟩
  · rw [endRead_into_ended hi fun hn hst => (hends hn hst).ge, ← intoResult_eq_mkResult]
    exact hm.endJob _ _ _
  · have hle : out.length ≤ j.cap.toNat - j.out.length := decoded_length_le hl hd
    have hmore : (j.out ++ out).length < j.cap.toNat := by
      rw [List.length_append] at hne ⊢; omega
    rw [hn, hst, endRead_into_goesOn hi hmore]
    exact ⟨by rw [setDec_decAt_self]; exact hm.lock, by rw [setDec_decAt_self], hm.trace⟩

end Answered

/-! ## A command that starts on a source with an answer -/

theorem startJob_decAt (s : State) (d : UnitIdx) (into : Bool) (c : Arg) :
    (startJob d into c (s.setLock true (.dec d))).decAt d =
      { s.decAt d with lock := true, job := some ⟨s.caller, into, c, []⟩ } := by
  rw [startJob_state, setDec_decAt_self]

/-- The start of the command is no change that its first read would not make. -/
theorem ReadMade.of_started {into : Bool}
    (h : ReadMade (startJob d into c (s.setLock true (.dec d))) d a rest bad t) : ReadMade s d a rest bad t := by
  obtain ⟨only, waiting, src, bound, asel, faulted, carried⟩ := h
  rw [startJob_decAt] at bound asel carried
  exact ⟨(startJob_only s d into c).trans only, waiting, src, bound, asel, faulted, carried⟩

section Started

variable (h : DecReady s d) (hb : (s.decAt d).bound = true) (hp : (s.decAt d).phase ≠ .fault) (hc : c ≠ 0)
  (hs : s.srcAt d = a :: rest) (hl : a.bytes.length ≤ 16 * c.toNat - (s.decAt d).leftLen.toNat)
  (hd : decBytes (s.tokens (s.decAt d).asel) (wholeGroups ((s.decAt d).leftover ++ a.bytes)) = (out, bad))

include h hb hp hc hs hl hd

theorem exec_decRead_answered :
    ∃ t, exec (.decRead d c) s = .next t ∧ ReadMade s d a rest bad t ∧
      ReadAnswered s d s.caller (.decRead d c) (16 * c.toNat - (s.decAt d).leftLen.toNat) a
        (readResult a.st out bad) t := by
  rw [exec_read h hb hp hc]
  have hdec := startJob_decAt s d false c
  obtain ⟨t, q, made, lock, job, trace⟩ := serveDecoder_read (s := startJob d false c (s.setLock true (.dec d)))
    (j := ⟨s.caller, false, c, []⟩) (out := out) (bad := bad) (by rw [hdec]) hs (by rw [hdec]; exact hl)
    (by rw [hdec]; exact hd) rfl
  rw [hdec] at trace
  exact ⟨t, q, made.of_started, lock, job, trace⟩

theorem exec_decInto_answered :
    ∃ t, exec (.decInto d c) s = .next t ∧ ReadMade s d a rest bad t ∧
      ((bad = none → a.st = .none → out.length = c.toNat) →
        ReadAnswered s d s.caller (.decInto d c) (16 * c.toNat - (s.decAt d).leftLen.toNat) a
          (intoResult a.st out bad) t) ∧
      (bad = none → a.st = .none → out.length ≠ c.toNat →
        ReadGoesOn s d true ⟨s.caller, true, c, out⟩ (16 * c.toNat - (s.decAt d).leftLen.toNat) a t) := by
  rw [exec_into h hb hp hc]
  have hdec := startJob_decAt s d true c
  obtain ⟨t, q, made, ends, goesOn⟩ := serveDecoder_into (s := startJob d true c (s.setLock true (.dec d)))
    (j := ⟨s.caller, true, c, []⟩) (out := out) (bad := bad) (by rw [hdec]) hs (by rw [hdec]; exact hl)
    (by rw [hdec]; exact hd) rfl (BitVec.toNat_pos_of_ne_zero hc)
  rw [hdec] at ends goesOn
  refine ⟨t, q, made.of_started, fun he => ?_, fun hn hst hne => ?_⟩
  · obtain ⟨lock, job, trace⟩ := ends he
    exact ⟨lock, job, trace⟩
  · obtain ⟨lock, job, trace⟩ := goesOn hn hst hne
    exact ⟨lock, job, trace⟩

end Started

/-! ## A decoder that goes on -/

/-- Everything a decoder that goes on can come to. -/
inductive DecoderServed (d : UnitIdx) (s : State) : State → Prop where
  /-- It has no command in progress. -/
  | idle (hj : (s.decAt d).job = none) : DecoderServed d s s
  /-- It waits for its source. -/
  | blocked (j : DecJob) (hj : (s.decAt d).job = some j) : DecoderServed d s (beginFill d s)
  /-- Its source has answered, and the read ends. -/
  | answered (j : DecJob) (a : SrcAnswer) (rest : List SrcAnswer) (out : List Byte) (bad : Option Token) (m : State)
      (hj : (s.decAt d).job = some j)
      (hd : decBytes (s.tokens (s.decAt d).asel) (wholeGroups ((s.decAt d).leftover ++ a.bytes)) = (out, bad))
      (hm : ReadDone s d j a rest bad m) :
      DecoderServed d s (endRead d j (readResult a.st out bad).status (readResult a.st out bad).info out m)

theorem serveDecoder_served (hx : serveDecoder d s = .next t) : DecoderServed d s t := by
  rcases serveDecoder_effect d s with ⟨hj, q⟩ | ⟨j, hj, -, q⟩ | q | ⟨j, a, rest, hj, hs, hl, -⟩
  · cases hx.symm.trans q
    exact .idle hj
  · cases hx.symm.trans q
    exact .blocked j hj
  · cases hx.symm.trans q
  · obtain ⟨m, q, hm⟩ := serveDecoder_eq_endRead hj hs hl rfl
    cases hx.symm.trans q
    exact .answered j a rest _ _ m hj rfl hm

/-- A decoder that goes on keeps its binding, and the latched word unless it enters `FAULT` (R172, R186). -/
theorem serveDecoder_keeps (hx : serveDecoder d s = .next t) :
    (t.decAt d).bound = (s.decAt d).bound ∧ (t.decAt d).asel = (s.decAt d).asel ∧
      ((t.decAt d).phase ≠ .fault → (t.decAt d).bad = (s.decAt d).bad) := by
  cases serveDecoder_served hx with
  | idle => exact ⟨rfl, rfl, fun _ => rfl⟩
  | blocked =>
    rw [beginFill, setDec_decAt_self]
    exact ⟨rfl, rfl, fun _ => rfl⟩
  | answered j a rest out bad m hj hd hm =>
    have made := hm.endRead (readResult a.st out bad).status (readResult a.st out bad).info out
    refine ⟨made.bound, made.asel, fun hp => ?_⟩
    cases bad with
    | none =>
      obtain ⟨-, hword, -⟩ := made.carried rfl
      exact hword
    | some w => exact absurd (made.faulted w rfl).1 hp

end Commands

/-! ## The decoder commands -/

/-- Settles O34: the slot is valid, and the lock is free again at the end. -/
theorem decOpenBinds : Obligations.DecOpenBinds := fun _ _ _ => exec_decOpen_of_valid

/-- Settles O39: the fault is looked at before the capacity (R182). -/
theorem decReadOfNothing : Obligations.DecReadOfNothing := fun _ _ h hb =>
  ⟨exec_decRead_zero h hb, fun hp => exec_decRead_of_fault h hb hp 0⟩

/-- Settles O44: the size is looked at before the fault (R187). -/
theorem decIntoAtOnce : Obligations.DecIntoAtOnce := fun _ _ _ h hb =>
  ⟨fun hn => hn ▸ exec_decInto_zero h hb, fun hn hp => exec_decInto_of_fault h hb hp hn⟩

/-- Settles O35: the one read ends the command with what `Dec` gives on the whole groups. -/
theorem decReadDecodes : Obligations.DecReadDecodes := by
  intro d c b st rest out s h hb hp hc hs hl scr g hd
  obtain ⟨t, q, made, ans⟩ := exec_decRead_answered h hb hp hc hs hl hd
  obtain ⟨hphase, hbad, hleft, hlen⟩ := made.carried rfl
  have hout : out.length = g := (decBytes_length hd).trans (by rw [wholeGroups_length]; omega)
  refine ⟨t, q, made.only, made.waiting, made.src, hout, ?_, hleft, hlen, hphase, ans.lock, ans.job,
    made.bound.trans hb, made.asel, hbad⟩
  rw [ans.trace, ← hout]
  cases st <;> rfl

/-- Settles O36: as for O35, with the bad token instead of the source's status. -/
theorem decReadInvalidWord : Obligations.DecReadInvalidWord := by
  intro d c b st rest out w s h hb hp hc hs hl scr hd
  obtain ⟨t, q, made, ans⟩ := exec_decRead_answered h hb hp hc hs hl hd
  obtain ⟨hphase, hbad, hlen, hleft⟩ := made.faulted w rfl
  exact ⟨t, q, made.only, made.waiting, made.src, ans.trace, hphase, hbad, hlen, hleft, ans.lock, ans.job,
    made.bound.trans hb, made.asel⟩

/-- Settles O37: fewer than 16 bytes hold no whole group and are all carried. -/
theorem zeroProgressRead : Obligations.ZeroProgressRead := by
  intro d c b rest s h hb hp hc hs hshort
  have hshort : ((s.decAt d).leftover ++ b).length < 16 := by rwa [List.length_append]
  have hl : b.length ≤ 16 * c.toNat - (s.decAt d).leftLen.toNat := by
    have := BitVec.toNat_pos_of_ne_zero hc
    rw [List.length_append, leftover_length] at hshort
    omega
  have hn : 16 * (((s.decAt d).leftover ++ b).length / 16) = 0 := by omega
  have hd : decBytes (s.tokens (s.decAt d).asel) (wholeGroups ((s.decAt d).leftover ++ b)) = ([], none) := by
    rw [wholeGroups, hn, List.take_zero, decBytes_nil]
  obtain ⟨t, q, made, ans⟩ := exec_decRead_answered h hb hp hc hs hl hd
  obtain ⟨hphase, -, hleft, -⟩ := made.carried rfl
  rw [tailBytes, hn, List.drop_zero] at hleft
  exact ⟨t, q, ans.trace, hleft, fun hnil => by rw [hleft, hnil, List.append_nil], hphase⟩

/-- Settles O40: waiting leaves the decoder ready to make its read, and the read then ends as at once. -/
theorem decReadBlocksAndResumes : Obligations.DecReadBlocksAndResumes := by
  intro d c s h hb hp hc hs
  have hx : exec (.decRead d c) s = .next (s.setDec d ((s.decAt d).waitsWith ⟨s.caller, false, c, []⟩)) := by
    rw [exec_read h hb hp hc, serveDecoder_startJob_blocked hs]
  refine ⟨_, hx, onlyDecoder_setDec _ _ _, rfl, rfl, ?_⟩
  rw [setDec_decAt_self]
  refine ⟨rfl, rfl, rfl, rfl, ?_, ?_⟩
  · intro u tl hin hh hu hsrc
    have hu : (u.setInputs tl).decAt d = (s.decAt d).waitsWith ⟨s.caller, false, c, []⟩ := hu
    rw [step_serveDec hin hh, serveDecoder_blocked (s := u.setInputs tl) (by rw [hu]; rfl) hsrc,
      beginFill_of_waitsWith hu]
  · intro u tl b st rest out bad hin hh hu hsrc hl scr g hd read
    have hu : (u.setInputs tl).decAt d = (s.decAt d).waitsWith ⟨s.caller, false, c, []⟩ := hu
    obtain ⟨v, q, made, ans⟩ := serveDecoder_read (s := u.setInputs tl) (a := ⟨b, st⟩)
      (j := ⟨s.caller, false, c, []⟩) (out := out) (bad := bad) (by rw [hu]; rfl) hsrc (by rw [hu]; exact hl)
      (by rw [hu]; exact hd) rfl
    obtain ⟨only, waiting, src, bound, asel, faulted, carried⟩ := made
    obtain ⟨lock, job, trace⟩ := ans
    rw [hu] at bound asel carried trace
    refine ⟨v, (step_serveDec hin hh).trans q, only, waiting, src, lock, job, bound.trans hb, asel, ?_⟩
    cases bad with
    | none =>
      obtain ⟨hphase, hbad, hleft, hlen⟩ := carried rfl
      have hout : out.length = g := (decBytes_length hd).trans (by rw [wholeGroups_length]; omega)
      refine ⟨hout, ?_, hleft, hlen, hphase, hbad⟩
      rw [trace, ← hout]
      cases st <;> rfl
    | some w => exact ⟨trace, faulted w rfl⟩

/-- Settles O41: a result stands in the record at once if the command ends without decoding or its source has answered,
within the request. -/
theorem decReadBounds : Obligations.DecReadBounds := by
  intro d c s t caller j r tl hx ht hne
  suffices hr : r.data.length ≤ c.toNat ∧ r.count = BitVec.ofNat 28 r.data.length by
    obtain ⟨hle, hcount⟩ := hr
    have := c.isLt
    have := (t.decAt d).leftLen.isLt
    refine ⟨hle, ?_, ?_⟩
    · rw [hcount, BitVec.toNat_ofNat]; omega
    · rw [leftover_length]; omega
  have effect := exec_effect (.decRead d c) s
  rw [hx] at effect
  cases effect with
  | held => exact absurd rfl hne
  | quiet _ r' hq =>
    obtain ⟨hdata, hcount⟩ := hq.1 d c (.inl rfl)
    cases ht
    rw [hdata, hcount]
    exact ⟨Nat.zero_le _, rfl⟩
  | read _ _ h hb hp hc _ hx' =>
    cases hs : s.srcAt d with
    | nil =>
      cases hx'.symm.trans (serveDecoder_startJob_blocked hs false c)
      exact absurd rfl hne
    | cons a rest =>
      have hl : a.bytes.length ≤ 16 * c.toNat - (s.decAt d).leftLen.toNat := by
        by_contra hbroken
        cases hx'.symm.trans (serveDecoder_startJob_of_broken_duty hs (Nat.not_le.1 hbroken) false)
      cases hd : decBytes (s.tokens (s.decAt d).asel) (wholeGroups ((s.decAt d).leftover ++ a.bytes)) with
      | mk out bad =>
        obtain ⟨t', q, -, ans⟩ := exec_decRead_answered h hb hp hc hs hl hd
        cases hx.symm.trans q
        cases ht.symm.trans ans.trace
        rw [readResult_data, readResult_count]
        exact ⟨decoded_length_le hl hd, rfl⟩

/-- Settles O53: each command waits, ends at once, or makes one read of its own decoder. -/
theorem decoderCommandsFrame : Obligations.DecoderCommandsFrame := by
  refine ⟨fun d a s t hx => ?_, fun i d c s t hi hx => ?_⟩
  · have effect := exec_effect (.decOpen d a) s
    rw [hx] at effect
    cases effect with
    | held => exact ⟨onlyDecoder_hold _ _ _, rfl, rfl, rfl, rfl, rfl⟩
    | quiet => exact ⟨onlyDecoder_emit _ _ _, rfl, rfl, rfl, rfl, rfl⟩
    | decOpen =>
      exact ⟨(onlyDecoder_setDec _ _ _).trans (onlyDecoder_emit _ _ _), rfl, by simp, by simp, by simp, by simp⟩
  · have served {into : Bool} (hx : serveDecoder d (startJob d into c (s.setLock true (.dec d))) = .next t) :
        OnlyDecoder d s t ∧ (t.decAt d).bound = (s.decAt d).bound ∧ (t.decAt d).asel = (s.decAt d).asel ∧
          ((t.decAt d).phase ≠ .fault → (t.decAt d).bad = (s.decAt d).bad) := by
      have kept := serveDecoder_keeps hx
      rw [startJob_decAt] at kept
      exact ⟨serveDecoder_startJob_only hx, kept⟩
    have effect := exec_effect i s
    rw [hx] at effect
    rcases hi with rfl | rfl
    · cases effect with
      | held => exact ⟨onlyDecoder_hold _ _ _, rfl, rfl, fun _ => rfl⟩
      | quiet => exact ⟨onlyDecoder_emit _ _ _, rfl, rfl, fun _ => rfl⟩
      | read _ _ _ _ _ _ _ hx => exact served hx
    · cases effect with
      | held => exact ⟨onlyDecoder_hold _ _ _, rfl, rfl, fun _ => rfl⟩
      | quiet => exact ⟨onlyDecoder_emit _ _ _, rfl, rfl, fun _ => rfl⟩
      | into _ _ _ _ _ _ _ hx => exact served hx

/-- Settles O45: the first inner read is made with nothing decoded yet. -/
theorem decIntoFirstRead : Obligations.DecIntoFirstRead := by
  intro d n s h hb hp hn
  constructor
  · intro hs
    refine ⟨_, (exec_into h hb hp hn).trans (serveDecoder_startJob_blocked hs true n), onlyDecoder_setDec _ _ _, rfl,
      rfl, ?_⟩
    rw [setDec_decAt_self]
    exact ⟨rfl, rfl, rfl, rfl, rfl⟩
  · intro b st rest out bad hs hl scr hd read
    obtain ⟨t, q, made, ends, goesOn⟩ := exec_decInto_answered h hb hp hn hs hl hd
    refine ⟨t, q, made.only, made.waiting, made.src, fun hcarry => ?_, ?_⟩
    · obtain ⟨-, -, hleft, -⟩ := made.carried hcarry
      exact hleft
    cases bad with
    | some w =>
      obtain ⟨hphase, hword, -, hleft⟩ := made.faulted w rfl
      have ans := ends nofun
      exact ⟨hphase, hword, hleft, ans.lock, ans.trace⟩
    | none =>
      have hphase := (made.carried rfl).1
      cases st with
      | none =>
        refine ⟨hphase, fun hfull => ?_, fun hmore => ?_⟩
        · have ans := ends fun _ _ => hfull
          exact ⟨ans.lock, ans.trace⟩
        · have more := goesOn rfl rfl hmore
          exact ⟨more.lock, more.job, more.trace⟩
      | eos | err =>
        have ans := ends nofun
        exact ⟨hphase, ans.lock, ans.trace⟩

/-- Settles O46: a later inner read is made with what the command has decoded before, by the step that serves it. -/
theorem decIntoNextRead : Obligations.DecIntoNextRead := by
  intro d n caller before tl s hin hh hj hroom
  have hj : ((s.setInputs tl).decAt d).job = some ⟨caller, true, n, before⟩ := hj
  rw [step_serveDec hin hh]
  constructor
  · intro hs
    refine ⟨_, serveDecoder_blocked (s := s.setInputs tl) hj hs, onlyDecoder_setDec _ _ _, rfl, hs, rfl, ?_⟩
    rw [beginFill, setDec_decAt_self]
    rfl
  · intro b st rest out bad hs hl scr hd all read
    obtain ⟨t, q, made, ends, goesOn⟩ := serveDecoder_into (s := s.setInputs tl) hj hs hl hd rfl hroom
    refine ⟨t, q, made.only, made.waiting, made.src, made.bound, made.asel, fun hcarry => ?_, ?_⟩
    · obtain ⟨-, hword, hleft, hlen⟩ := made.carried hcarry
      exact ⟨hleft, hlen, hword⟩
    cases bad with
    | some w =>
      obtain ⟨hphase, hword, hlen, hleft⟩ := made.faulted w rfl
      have ans := ends nofun
      exact ⟨hphase, hword, hlen, hleft, ans.lock, ans.job, ans.trace⟩
    | none =>
      have hphase := (made.carried rfl).1
      cases st with
      | none =>
        refine ⟨hphase, fun hfull => ?_, fun hmore => ?_⟩
        · have ans := ends fun _ _ => hfull
          exact ⟨ans.lock, ans.job, ans.trace⟩
        · have more := goesOn rfl rfl hmore
          refine ⟨more.lock, fun hi => more.lock.trans ?_, more.job, more.trace⟩
          exact ((hi.dec d).reading hj).lock
      | eos | err =>
        have ans := ends nofun
        exact ⟨hphase, ans.lock, ans.job, ans.trace⟩

/-! ## The stream of a decoder -/

/-- The event adds nothing to the stream of decoder `d`: it opens no new one, and no byte of it is read or delivered
(R184). -/
structure OffCarry (d : UnitIdx) (o : Output) : Prop where
  opens : opensDec d o = false
  read : readBy d o = []
  delivered : deliveredBy d o = []

namespace OffCarry

variable {d : UnitIdx} {i : Instr} {r : Result}

theorem sinkWrite (e : UnitIdx) (offered : List Byte) (a : SinkAnswer) : OffCarry d (.sinkWrite e offered a) :=
  ⟨rfl, rfl, rfl⟩

theorem badWord (caller : Nat) (r : Result) : OffCarry d (.result caller none r) := ⟨rfl, rfl, rfl⟩

theorem srcRead {d' : UnitIdx} (h : d' ≠ d) (n : Nat) (a : SrcAnswer) : OffCarry d (.srcRead d' n a) :=
  ⟨rfl, if_neg h, rfl⟩

/-- The result of a command on another object. -/
theorem result_of_target_ne (h : targetOf i ≠ .dec d) (caller : Nat) (r : Result) :
    OffCarry d (.result caller (some i) r) := by
  cases i with
  | decOpen d' a =>
    have h : d' ≠ d := fun q => h (by rw [targetOf, q])
    exact ⟨by simp [opensDec, h], rfl, rfl⟩
  | decRead d' c | decInto d' c =>
    have h : d' ≠ d := fun q => h (by rw [targetOf, q])
    exact ⟨rfl, rfl, if_neg h⟩
  | _ => exact ⟨rfl, rfl, rfl⟩

/-- A result that changes no register opens nothing and carries no decoded bytes. -/
theorem result_of_quiet (h : QuietResult i r) (caller : Nat) : OffCarry d (.result caller (some i) r) := by
  obtain ⟨hread, -, hopen⟩ := h
  cases i with
  | decOpen d' a =>
    have hr := hopen d' a (.inr rfl)
    exact ⟨by simp [opensDec, hr], rfl, rfl⟩
  | decRead d' c =>
    obtain ⟨hdata, -⟩ := hread d' c (.inl rfl)
    exact ⟨rfl, rfl, by simp [deliveredBy, hdata]⟩
  | decInto d' c =>
    obtain ⟨hdata, -⟩ := hread d' c (.inr rfl)
    exact ⟨rfl, rfl, by simp [deliveredBy, hdata]⟩
  | _ => exact ⟨rfl, rfl, rfl⟩

end OffCarry

/-- The record grows from `s` to `t` by events that add nothing to the stream of decoder `d`. -/
def GrowsOffCarry (d : UnitIdx) (s t : State) : Prop := ∃ new, t.trace = new ++ s.trace ∧ ∀ o ∈ new, OffCarry d o

section Steps

variable {s t u : State} {d d' : UnitIdx} {j : DecJob}

theorem GrowsOffCarry.of_trace (h : t.trace = s.trace) : GrowsOffCarry d s t := ⟨[], h, by simp⟩

theorem GrowsOffCarry.of_event {o : Output} (h : t.trace = o :: s.trace) (ho : OffCarry d o) : GrowsOffCarry d s t :=
  ⟨[o], h, List.forall_mem_singleton.2 ho⟩

theorem GrowsOffCarry.congr_left (h : GrowsOffCarry d u t) (hu : u.trace = s.trace) : GrowsOffCarry d s t := by
  obtain ⟨new, ht, hnew⟩ := h
  exact ⟨new, hu ▸ ht, hnew⟩

/-! ## What a step does to a decoder -/

/-- Everything a step that does not reset the engine can do to decoder `d`, from the state `s` in which a command is
taken up or an encoder or a decoder goes on. -/
inductive DecoderStep (d : UnitIdx) (s s' : State) : Prop where
  /-- The decoder, its alphabet and its stream stay as they are. -/
  | untouched (k : KeepsSlots s s') (hd : s'.decAt d = s.decAt d) (hg : GrowsOffCarry d s s')
  /-- It is bound anew. -/
  | opened (a : UnitIdx) (hr : DecReady s d)
      (hs : s' = (s.setDec d { s.decAt d with bound := true, asel := a, leftLen := 0, phase := .idle }).emit
        (.result s.caller (some (.decOpen d a)) ⟨.ok, 0, 0, []⟩))
  /-- A command that reads starts. -/
  | started (into : Bool) (c : Arg) (hr : DecReady s d) (hb : (s.decAt d).bound = true)
      (hp : (s.decAt d).phase ≠ .fault) (hc : c ≠ 0)
      (hx : serveDecoder d (startJob d into c (s.setLock true (.dec d))) = .next s')
  /-- It goes on with its command. -/
  | served (hx : serveDecoder d s = .next s')

/-- An encoder that goes on adds nothing to the stream of a decoder. -/
theorem serveEncoder_growsOffCarry {e : UnitIdx} (hx : serveEncoder e s = .next t) : GrowsOffCarry d s t := by
  rcases serveEncoder_trace hx with rfl | ⟨j, a, -, -, ht⟩
  · exact .of_trace rfl
  · exact ⟨[_, _], ht, List.forall_mem_cons.2 ⟨.result_of_target_ne (i := .encWrite e j.payload) (by simp [targetOf])
      j.caller (sinkResult j.payload.length a),
      List.forall_mem_singleton.2 (.sinkWrite e (s.encAt e).path.escr a)⟩⟩

/-- A decoder that goes on adds nothing to the stream of another one. -/
theorem serveDecoder_growsOffCarry (h : d' ≠ d) (hx : serveDecoder d' s = .next t) : GrowsOffCarry d s t := by
  cases serveDecoder_served hx with
  | idle | blocked => exact .of_trace rfl
  | answered j a rest out bad m hj hd hm =>
    have read : OffCarry d (.srcRead d' (16 * j.capacity - (s.decAt d').leftLen.toNat) a) := .srcRead h _ a
    obtain ⟨_, _, -, -, -, -, ⟨-, -, ht⟩ | ⟨-, -, r, ht⟩⟩ := endRead_frame d' j (readResult a.st out bad).status
      (readResult a.st out bad).info out m
    · exact .of_event (ht.trans hm.trace) read
    · exact ⟨[_, _], by rw [ht, hm.trace]; rfl, List.forall_mem_cons.2
        ⟨.result_of_target_ne (by simpa [targetOf_instr] using h) j.caller r, List.forall_mem_singleton.2 read⟩⟩

/-- Everything a command can do to decoder `d`. -/
theorem exec_decoderStep {i : Instr} (hx : exec i s = .next t) : DecoderStep d s t := by
  have slots := exec_keepsSlots hx
  have effect := exec_effect i s
  rw [hx] at effect
  cases effect with
  | held | halt => exact .untouched slots rfl (.of_trace rfl)
  | quiet i r hq => exact .untouched slots rfl (.of_event rfl (.result_of_quiet hq _))
  | load | must | encOpen =>
    exact .untouched slots rfl (.of_event rfl (.result_of_target_ne (by simp [targetOf]) _ _))
  | decOpen d' a hr =>
    by_cases hd : d' = d
    · subst hd
      exact .opened a hr rfl
    · exact .untouched slots (setDec_decAt_ne s d' _ d (Ne.symm hd))
        (.of_event rfl (.result_of_target_ne (by simpa [targetOf] using hd) _ _))
  | writeNone e =>
    refine .untouched slots (((startWrite_only s e []).trans (endWrite_only _ _ _ _ _ _)).decAt d) ?_
    rw [startWrite_state]
    exact .of_event rfl (.result_of_target_ne (i := .encWrite e []) (by simp [targetOf]) s.caller (mkResult .ok 0 0 []))
  | write e p _ _ _ _ hx =>
    exact .untouched slots ((serveEncoder_startWrite_only hx).decAt d) ((serveEncoder_growsOffCarry hx).congr_left rfl)
  | read d' c hr hb hp hc _ hx | into d' c hr hb hp hc _ hx =>
    by_cases hd : d' = d
    · subst hd
      exact .started _ c hr hb hp hc hx
    · exact .untouched slots ((serveDecoder_startJob_only hx).dec d (Ne.symm hd))
        ((serveDecoder_growsOffCarry hd hx).congr_left rfl)

/-- Everything a step can do to decoder `d`. -/
theorem step_decoder_cases (h : step s = .next t) :
    (∃ u, SameEngine s u ∧ DecoderStep d u t) ∨
      ∃ taken rest, s.inputs = .reset taken :: rest ∧ t = resetEngine taken (s.setInputs rest) := by
  cases step_cases h with
  | env k => exact .inl ⟨t, k, .untouched (.of_alpha rfl rfl) rfl (.of_trace rfl)⟩
  | command i u k _ hx => exact .inl ⟨u, k, exec_decoderStep hx⟩
  | badWord u k _ hs =>
    exact .inl ⟨u, k, hs ▸ .untouched (.of_alpha rfl rfl) rfl (.of_event rfl (.badWord _ _))⟩
  | serveEnc e u k _ hx =>
    have only := (serveEncoder_only hx).1
    exact .inl ⟨u, k, .untouched only.keepsSlots (only.decAt d) (serveEncoder_growsOffCarry hx)⟩
  | serveDec d' u k _ hx =>
    by_cases hd : d' = d
    · subst hd
      exact .inl ⟨u, k, .served hx⟩
    · have only := (serveDecoder_only hx).1
      exact .inl ⟨u, k, .untouched only.keepsSlots (only.dec d (Ne.symm hd)) (serveDecoder_growsOffCarry hd hx)⟩
  | reset taken rest hin hs => exact .inr ⟨taken, rest, hin, hs⟩

/-- A command in progress is one of an unfaulted decoder (R170). -/
theorem DecLegal.unfaulted (h : DecLegal s d) (hj : (s.decAt d).job = some j) : (s.decAt d).phase ≠ .fault := by
  obtain ⟨-, -, -, ⟨hp, -⟩ | ⟨hp, -⟩⟩ := h.job j hj <;> simp [hp]

theorem DecLegal.no_job (h : DecLegal s d) (hl : (s.decAt d).lock = false) : (s.decAt d).job = none := by
  simpa [hl] using h.lock

end Steps

/-- Settles O38: a faulted decoder has no command in progress and starts none that reads, so only `DEC.OPEN` and reset
write its phase. -/
theorem faultIsTerminal : Obligations.FaultIsTerminal := by
  refine ⟨fun d c s h hb hp => exec_decRead_of_fault h hb hp c, fun s s' d hi hstep hp => ?_⟩
  rcases step_decoder_cases (d := d) hstep with ⟨u, k, hd⟩ | ⟨taken, rest, hin, -⟩
  · have hdec := k.decAt d
    cases hd with
    | untouched _ hd _ =>
      rw [hd, hdec]
      exact .inl ⟨hp, rfl⟩
    | opened a _ hs => exact .inr (.inr ⟨u.caller, a, _, by rw [hs, ← k.trace]; rfl, rfl⟩)
    | started _ _ _ _ hp' => exact absurd (hdec ▸ hp) hp'
    | served hx =>
      have legal := (hi.sameEngine k).dec d
      cases serveDecoder_served hx with
      | idle =>
        rw [hdec]
        exact .inl ⟨hp, rfl⟩
      | blocked _ hj | answered _ _ _ _ _ _ hj => exact absurd (hdec ▸ hp) (legal.unfaulted hj)
  · exact .inr (.inl ⟨taken, rest, hin⟩)

/-! ## The carry -/

section Carry

variable {s t : State} {d d' : UnitIdx} {j : DecJob} {a : SrcAnswer} {rest : List SrcAnswer} {out : List Byte}

theorem bytesSince_append_of_offCarry {new : List Output} (hnew : ∀ o ∈ new, OffCarry d o)
    {f : Output → List Byte} (hf : ∀ {o}, OffCarry d o → f o = []) (old : List Output) :
    bytesSince (opensDec d) f (new ++ old) = bytesSince (opensDec d) f old := by
  induction new with
  | nil => rfl
  | cons o new ih =>
    obtain ⟨ho, hnew⟩ := List.forall_mem_cons.1 hnew
    simp [bytesSince, ho.opens, hf ho, ih hnew]

theorem GrowsOffCarry.seenBytes (h : GrowsOffCarry d s t) : seenBytes d t.trace = seenBytes d s.trace := by
  obtain ⟨new, ht, hnew⟩ := h
  rw [ht]
  exact bytesSince_append_of_offCarry hnew OffCarry.read _

theorem GrowsOffCarry.deliveredBytes (h : GrowsOffCarry d s t) :
    deliveredBytes d t.trace = deliveredBytes d s.trace := by
  obtain ⟨new, ht, hnew⟩ := h
  rw [ht]
  exact bytesSince_append_of_offCarry hnew OffCarry.delivered _

/-- From `s` to `t` what the carry of decoder `d` speaks of stays: its alphabet, its leftover, the bytes it still holds
and its stream. -/
structure CarryFrame (d : UnitIdx) (s t : State) : Prop where
  slots : KeepsSlots s t
  bound : (t.decAt d).bound = (s.decAt d).bound
  asel : (t.decAt d).asel = (s.decAt d).asel
  unfaulted : (t.decAt d).phase ≠ .fault → (s.decAt d).phase ≠ .fault
  leftover : (t.decAt d).leftover = (s.decAt d).leftover
  pending : (t.decAt d).pending = (s.decAt d).pending
  grows : GrowsOffCarry d s t

theorem CarryFrame.of_decAt (k : KeepsSlots s t) (hd : t.decAt d = s.decAt d) (hg : GrowsOffCarry d s t) :
    CarryFrame d s t :=
  ⟨k, by rw [hd], by rw [hd], by rw [hd]; exact id, by rw [hd], by rw [hd], hg⟩

theorem SameEngine.carryFrame (h : SameEngine s t) : CarryFrame d s t :=
  .of_decAt h.keepsSlots (h.decAt d) (.of_trace h.trace)

/-- The carry holds on where what it speaks of stays. -/
theorem CarryHolds.frame (h : CarryHolds s d)
    (hv : (s.decAt d).bound = true → (s.slotAt (s.decAt d).asel).valid = true) (k : CarryFrame d s t) :
    CarryHolds t d := by
  intro hb hp
  rw [k.bound] at hb
  rw [k.grows.seenBytes, k.grows.deliveredBytes, k.leftover, k.pending, k.asel, k.slots.tokens (hv hb)]
  exact h hb (k.unfaulted hp)

theorem Decoder.pending_of_job {D : Decoder} {j : DecJob} (h : D.job = some j) : D.pending = j.out := by
  simp [Decoder.pending, h]

theorem Decoder.pending_of_no_job {D : Decoder} (h : D.job = none) : D.pending = [] := by
  simp [Decoder.pending, h]

theorem opensDec_result_instr (j : DecJob) (caller : Nat) (r : Result) :
    opensDec d (.result caller (some (j.instr d')) r) = false := by
  unfold DecJob.instr
  split <;> rfl

theorem deliveredBy_result_instr (j : DecJob) (caller : Nat) (r : Result) :
    deliveredBy d (.result caller (some (j.instr d)) r) = r.data := by
  unfold DecJob.instr
  split <;> simp [deliveredBy]

theorem readBy_result (caller : Nat) (i : Option Instr) (r : Result) : readBy d (.result caller i r) = [] := rfl

/-- The end of a command delivers its data and leaves nothing held (R186). -/
theorem endJob_delivers (d : UnitIdx) (j : DecJob) (st : Status) (info : Word32) (data : List Byte) (m : State) :
    deliveredBytes d (endJob d j st info data m).trace ++ ((endJob d j st info data m).decAt d).pending =
      deliveredBytes d m.trace ++ data := by
  have ht : (endJob d j st info data m).trace =
      .result j.caller (some (j.instr d)) (mkResult st data.length info data) :: m.trace := by simp [endJob]
  rw [ht, endJob_decAt, Decoder.pending_of_no_job rfl, List.append_nil]
  simp [deliveredBytes, bytesSince, opensDec_result_instr, deliveredBy_result_instr, mkResult]

/-- The end of a read: what it decoded is delivered or held, after all that the command has decoded before (R186). -/
theorem endRead_delivers {j : DecJob} (hfresh : j.into = false → j.out = []) (st : Status) (info : Word32)
    (out : List Byte) (m : State) :
    deliveredBytes d (endRead d j st info out m).trace ++ ((endRead d j st info out m).decAt d).pending =
      deliveredBytes d m.trace ++ (j.out ++ out) := by
  cases hi : j.into with
  | false =>
    rw [endRead_read hi, hfresh hi]
    exact endJob_delivers _ _ _ _ _ _
  | true =>
    rcases endRead_into hi st info out m with ⟨-, -, q⟩ | ⟨-, -, q⟩ | ⟨-, q⟩ | ⟨-, -, q⟩ <;> rw [q]
    · rw [setDec_decAt_self, Decoder.pending_of_job rfl, setDec_trace]
    all_goals exact endJob_delivers _ _ _ _ _ _

/-- The end of a read reads nothing more. -/
theorem endRead_seenBytes (j : DecJob) (st : Status) (info : Word32) (out : List Byte) (m : State) :
    seenBytes d (endRead d j st info out m).trace = seenBytes d m.trace := by
  obtain ⟨_, _, -, -, -, -, ⟨-, -, ht⟩ | ⟨-, -, r, ht⟩⟩ := endRead_frame d j st info out m <;> rw [ht]
  simp [seenBytes, bytesSince, opensDec_result_instr, readBy_result]

/-- A read that its source answers carries on: the chunk comes after all that was read, what it decodes after all that
was decoded, and the rest is kept (R184). -/
theorem CarryHolds.answered {m : State} (h : CarryHolds s d) (hr : Reading s d j) (hp : (s.decAt d).phase ≠ .fault)
    (hd : decBytes (s.tokens (s.decAt d).asel) (wholeGroups ((s.decAt d).leftover ++ a.bytes)) = (out, none))
    (hm : ReadDone s d j a rest none m) (st : Status) (info : Word32) :
    CarryHolds (endRead d j st info out m) d := by
  obtain ⟨hold, hleft⟩ := h hr.bound hp
  rw [hleft] at hd
  have hseen : seenBytes d m.trace = seenBytes d s.trace ++ a.bytes := by
    simp [hm.trace, seenBytes, bytesSince, opensDec, readBy]
  have hdelivered : deliveredBytes d m.trace = deliveredBytes d s.trace := by
    simp [hm.trace, deliveredBytes, bytesSince, opensDec, deliveredBy]
  have made := hm.endRead st info out
  obtain ⟨-, -, hcarried, -⟩ := made.carried rfl
  intro _ _
  rw [endRead_seenBytes, endRead_delivers hr.fresh, hseen, hdelivered, made.asel, made.only.tokens, ← List.append_assoc,
    ← Decoder.pending_of_job hr.job, hcarried, hleft]
  exact ⟨decBytes_wholeGroups_append hold hd, (tailBytes_append _ _).symm⟩

/-- Waiting for the source keeps what the carry speaks of (R170, R172). -/
theorem beginFill_carryFrame (hp : (s.decAt d).phase ≠ .fault) : CarryFrame d s (beginFill d s) := by
  refine ⟨.of_alpha rfl rfl, ?_, ?_, fun _ => hp, ?_, ?_, .of_trace rfl⟩ <;> rw [beginFill, setDec_decAt_self] <;> rfl

/-- A decoder that goes on keeps the carry: it waits, ends in `FAULT`, or carries on. -/
theorem CarryHolds.served (h : CarryHolds s d)
    (hr : ∀ j, (s.decAt d).job = some j → Reading s d j ∧ (s.decAt d).phase ≠ .fault)
    (hx : serveDecoder d s = .next t) : CarryHolds t d := by
  cases serveDecoder_served hx with
  | idle => exact h
  | blocked j hj =>
    obtain ⟨hr, hp⟩ := hr j hj
    exact h.frame (fun _ => hr.binding.2) (beginFill_carryFrame hp)
  | answered j a rest out bad m hj hd hm =>
    obtain ⟨hr, hp⟩ := hr j hj
    cases bad with
    | none => exact h.answered hr hp hd hm _ _
    | some w => exact fun _ hp' => absurd ((hm.endRead _ _ _).faulted w rfl).1 hp'

/-- A decoder that is bound anew begins an empty stream (R171). -/
theorem carryHolds_opened (hl : DecLegal s d) (hr : DecReady s d) (a : UnitIdx) :
    CarryHolds ((s.setDec d { s.decAt d with bound := true, asel := a, leftLen := 0, phase := .idle }).emit
      (.result s.caller (some (.decOpen d a)) ⟨.ok, 0, 0, []⟩)) d := by
  have hj := hl.no_job hr.free
  intro _ _
  simp [seenBytes, deliveredBytes, bytesSince, opensDec, Decoder.pending, hj, Decoder.leftover]

/-- The start of a command that reads keeps what the carry speaks of. -/
theorem startJob_carryFrame (hj : (s.decAt d).job = none) (into : Bool) (c : Arg) :
    CarryFrame d s (startJob d into c (s.setLock true (.dec d))) := by
  rw [startJob_state]
  refine ⟨.of_alpha rfl rfl, ?_, ?_, ?_, ?_, ?_, .of_trace rfl⟩ <;> rw [setDec_decAt_self]
  · exact id
  · rfl
  · rw [Decoder.pending_of_no_job hj, Decoder.pending_of_job rfl]

/-- What a step does to a decoder keeps its carry. -/
theorem CarryHolds.decoderStep (h : CarryHolds s d) (hl : DecLegal s d) (hs : DecoderStep d s t) : CarryHolds t d := by
  have valid := fun hb => (hl.bound hb).2
  cases hs with
  | untouched k hd hg => exact h.frame valid (.of_decAt k hd hg)
  | opened a hr hs => exact hs ▸ carryHolds_opened hl hr a
  | started into c hr hb hp hc hx =>
    have reading := hl.started hb into hc
    refine (h.frame valid (startJob_carryFrame (hl.no_job hr.free) into c)).served (fun j hj => ?_) hx
    cases reading.job.symm.trans hj
    exact ⟨reading, by rw [startJob_decAt]; exact hp⟩
  | served hx => exact h.served (fun j hj => ⟨hl.reading hj, hl.unfaulted hj⟩) hx

end Carry

/-- Settles O42: a decoder's stream grows only by its own reads, each of which carries on where the last one stopped or
ends in `FAULT`; `DEC.OPEN` begins an empty one and reset unbinds. -/
theorem carryKept : Obligations.CarryKept := by
  intro s s' hi hcarry hstep d
  rcases step_decoder_cases (d := d) hstep with ⟨u, k, hd⟩ | ⟨taken, rest, -, rfl⟩
  · exact ((hcarry d).frame (fun hb => ((hi.dec d).bound hb).2) k.carryFrame).decoderStep ((hi.sameEngine k).dec d) hd
  · intro hb
    simp [Decoder.reset] at hb

/-- Settles O43: the source has given whole groups only, and `Dec` undoes `Enc`. -/
theorem chunkedRoundTrip : Obligations.ChunkedRoundTrip := by
  intro s d bs hi hcarry hb hp hseen
  obtain ⟨hdec, hleft⟩ := hcarry hb hp
  have hn : 16 * ((seenBytes d s.trace).length / 16) = (seenBytes d s.trace).length := by
    rw [hseen, encBytes_length]; omega
  have hdistinct := hi.slots _ ((hi.dec d).bound hb).2
  rw [hn, List.take_length, hseen, decBytes_encBytes hdistinct] at hdec
  rw [hn, List.drop_length] at hleft
  exact ⟨(congrArg Prod.fst hdec).symm, hleft⟩

end Sys2Proof.Machine

/-! SUPPORT. The statements of spec/43_oneshot.md: the one-shot commands and the pseudo-operations (R201 to R207), and
what they and the alphabet commands leave unchanged (R131, R134, R136, R137, R204). -/

namespace Sys2Proof.Machine

section OneShot

variable {s : State} {a : UnitIdx} {p out : List Byte} {dcap : Word32}

/-! ## Encoding -/

theorem exec_osEncode_of_small (h : SlotReady s a) (hv : (s.slotAt a).valid = true) (hc : dcap.toNat < 16 * p.length) :
    exec (.osEncode a p dcap) s =
      .next (s.emit (.result s.caller (some (.osEncode a p dcap)) ⟨.bufferTooSmall, 0, 0, []⟩)) := by
  rw [exec, execOsEncode, prologue_slot rfl h, hv, if_pos rfl, if_pos hc]
  exact finish_slot rfl _ _ _ _ _

theorem exec_osEncode_of_fits (h : SlotReady s a) (hv : (s.slotAt a).valid = true) (hc : 16 * p.length ≤ dcap.toNat) :
    exec (.osEncode a p dcap) s =
      .next (s.emit (.result s.caller (some (.osEncode a p dcap))
        ⟨.ok, BitVec.ofNat 28 (16 * p.length), 0, encBytes (s.tokens a) p⟩)) := by
  rw [exec, execOsEncode, prologue_slot rfl h, hv, if_pos rfl, if_neg (Nat.not_lt.2 hc)]
  exact finish_slot rfl _ _ _ _ _

/-! ## Decoding -/

theorem exec_osDecode_of_length (h : SlotReady s a) (hv : (s.slotAt a).valid = true) (hn : p.length % 16 ≠ 0) :
    exec (.osDecode a p dcap) s =
      .next (s.emit (.result s.caller (some (.osDecode a p dcap)) ⟨.invalidSourceLength, 0, 0, []⟩)) := by
  rw [exec, execOsDecode, prologue_slot rfl h, hv, if_pos rfl, if_pos hn]
  exact finish_slot rfl _ _ _ _ _

theorem exec_osDecode_of_small (h : SlotReady s a) (hv : (s.slotAt a).valid = true) (hn : p.length % 16 = 0)
    (hc : dcap.toNat < p.length / 16) :
    exec (.osDecode a p dcap) s =
      .next (s.emit (.result s.caller (some (.osDecode a p dcap)) ⟨.bufferTooSmall, 0, 0, []⟩)) := by
  rw [exec, execOsDecode, prologue_slot rfl h, hv, if_pos rfl, if_neg (not_not.2 hn), if_pos hc]
  exact finish_slot rfl _ _ _ _ _

theorem exec_osDecode_of_good (h : SlotReady s a) (hv : (s.slotAt a).valid = true) (hn : p.length % 16 = 0)
    (hc : p.length / 16 ≤ dcap.toNat) (hd : decBytes (s.tokens a) p = (out, none)) :
    exec (.osDecode a p dcap) s =
      .next (s.emit (.result s.caller (some (.osDecode a p dcap)) ⟨.ok, BitVec.ofNat 28 (p.length / 16), 0, out⟩)) := by
  rw [exec, execOsDecode, prologue_slot rfl h, hv, if_pos rfl, if_neg (not_not.2 hn), if_neg (Nat.not_lt.2 hc), hd]
  exact finish_slot rfl _ _ _ _ _

theorem exec_osDecode_of_bad {w : Token} (h : SlotReady s a) (hv : (s.slotAt a).valid = true) (hn : p.length % 16 = 0)
    (hc : p.length / 16 ≤ dcap.toNat) (hd : decBytes (s.tokens a) p = (out, some w)) :
    exec (.osDecode a p dcap) s =
      .next (s.emit (.result s.caller (some (.osDecode a p dcap))
        ⟨.invalidWord, BitVec.ofNat 28 out.length, pack4 w, out⟩)) := by
  rw [exec, execOsDecode, prologue_slot rfl h, hv, if_pos rfl, if_neg (not_not.2 hn), if_neg (Nat.not_lt.2 hc), hd]
  exact finish_slot rfl _ _ _ _ _

/-- What `OS.DECODE` can answer once its destination is large enough (R202). -/
theorem exec_osDecode_of_fits (h : SlotReady s a) (hv : (s.slotAt a).valid = true) (hc : p.length / 16 ≤ dcap.toNat) :
    ∃ r : Result, exec (.osDecode a p dcap) s = .next (s.emit (.result s.caller (some (.osDecode a p dcap)) r)) ∧
      (r.status = .ok ∨ r.status = .invalidSourceLength ∨ r.status = .invalidWord) := by
  by_cases hn : p.length % 16 = 0
  · rcases hd : decBytes (s.tokens a) p with ⟨out, bad⟩
    cases bad with
    | none => exact ⟨_, exec_osDecode_of_good h hv hn hc hd, .inl rfl⟩
    | some w => exact ⟨_, exec_osDecode_of_bad h hv hn hc hd, .inr (.inr rfl)⟩
  · exact ⟨_, exec_osDecode_of_length h hv hn, .inr (.inl rfl)⟩

/-- The largest capacity that a pseudo-operation needs fits the extension word (R10, R123). -/
theorem capacity_toNat {n : Nat} (h : n ≤ 16 * Config.lenMax) : (BitVec.ofNat 32 n).toNat = n := by
  have : n ≤ 16 * 16777215 := h
  rw [BitVec.toNat_ofNat]
  omega

end OneShot

/-- Settles O47: the capacity test has two outcomes. -/
theorem osEncodeResult : Obligations.OsEncodeResult := fun _ _ _ _ h hv =>
  ⟨exec_osEncode_of_small h hv, exec_osEncode_of_fits h hv⟩

/-- Settles O48: one clause for each way through the three tests of R202. -/
theorem osDecodeResult : Obligations.OsDecodeResult := fun _ _ _ _ h hv =>
  ⟨exec_osDecode_of_length h hv, exec_osDecode_of_small h hv, fun _ => exec_osDecode_of_good h hv,
    fun _ _ => exec_osDecode_of_bad h hv⟩

/-- Settles O49: the capacities of R123 are exactly what the two commands ask for, and they fit the extension word. -/
theorem pseudoOperationsFit : Obligations.PseudoOperationsFit := by
  intro a p s hp h hv
  have hencode : 16 * p.length ≤ (BitVec.ofNat 32 (16 * p.length)).toNat :=
    (capacity_toNat (Nat.mul_le_mul_left 16 hp)).ge
  have hdecode : p.length / 16 ≤ (BitVec.ofNat 32 (p.length / 16)).toNat :=
    (capacity_toNat (by omega)).ge
  exact ⟨⟨_, exec_osEncode_of_fits h hv hencode, rfl⟩, exec_osDecode_of_fits h hv hdecode⟩

/-- Settles O50: `OS.ENCODE` leaves the slot as it was, its data is `|p|` whole groups, and `Dec` undoes `Enc` since the
invariant makes the tokens distinct. -/
theorem oneShotRoundTrip : Obligations.OneShotRoundTrip := by
  intro a p cap cap' s hi h hv hc hc'
  have hlen := encBytes_length (s.tokens a) p
  have hwhole : (encBytes (s.tokens a) p).length % 16 = 0 := by omega
  have hfits : (encBytes (s.tokens a) p).length / 16 ≤ cap'.toNat := by omega
  have hdec := decBytes_encBytes (hi.slots a hv) p
  exact ⟨_, _, _, _, exec_osEncode_of_fits h hv hc, rfl, rfl, hlen,
    exec_osDecode_of_good ⟨h.running, h.inRange⟩ hv hwhole hfits hdec, rfl, rfl, rfl⟩

/-! ## What alphabet and one-shot commands leave unchanged -/

/-- Nothing differs but the slot `a`, `HALTED`, the waiting commands and the record. -/
structure OnlySlot (a : UnitIdx) (s t : State) : Prop where
  slot : ∀ a', a' ≠ a → t.slotAt a' = s.slotAt a'
  enc : t.enc = s.enc
  dec : t.dec = s.dec
  params : t.params = s.params
  caller : t.caller = s.caller
  inputs : t.inputs = s.inputs
  sinkIn : t.sinkIn = s.sinkIn
  srcIn : t.srcIn = s.srcIn

section Frames

variable {i : Instr} {a : UnitIdx} {p : List Byte} {s t : State}

/-- A lookup or a one-shot waits or ends with one result (R136, R137, R204). -/
theorem exec_readOnly_cases
    (hi : (∃ a v, i = .alphaEncv a v) ∨ (∃ a w, i = .alphaDect a w) ∨ (∃ a p cap, i = .osEncode a p cap) ∨
      ∃ a p cap, i = .osDecode a p cap)
    (hx : exec i s = .next t) :
    t = s.hold (encode i) ∨ ∃ r, t = s.emit (.result s.caller (some i) r) := by
  have effect := exec_effect i s
  rw [hx] at effect
  cases effect with
  | held => exact .inl rfl
  | quiet _ r => exact .inr ⟨r, rfl⟩
  | load | must | halt | encOpen | decOpen | writeNone | write | read | into => simp at hi

/-- A load command writes no slot but its own, and no register of an instance (R131, R134). -/
theorem exec_load_onlySlot (hi : i = .alphaLoad a p ∨ i = .alphaMust a p) (hx : exec i s = .next t) :
    OnlySlot a s t := by
  have effect := exec_effect i s
  rw [hx] at effect
  cases effect with
  | held | quiet | halt => exact ⟨fun _ _ => rfl, rfl, rfl, rfl, rfl, rfl, rfl, rfl⟩
  | load b q | must b q =>
    obtain ⟨rfl, rfl⟩ : b = a ∧ q = p := by simpa using hi
    exact ⟨setSlot_slotAt_ne s b _, rfl, rfl, rfl, rfl, rfl, rfl, rfl⟩
  | encOpen | decOpen | writeNone | write | read | into => simp at hi

theorem exec_alphaLoad_halted (hx : exec (.alphaLoad a p) s = .next t) : t.halted = s.halted := by
  rcases exec_halted_cases hx with same | ⟨_, _, hi, _⟩
  · exact same
  · cases hi

end Frames

/-- Settles O51: the read-only commands have two outcomes, and a load command writes at most its own slot, which is
empty then. -/
theorem alphabetAndOneShotFrame : Obligations.AlphabetAndOneShotFrame := by
  refine ⟨fun i s t hi hx => exec_readOnly_cases hi hx, fun i a p s t hi hx => ?_⟩
  have only := exec_load_onlySlot hi hx
  refine ⟨only.slot, (exec_keepsSlots hx).slot a, ?_, only.enc, only.dec, only.params, only.caller, only.inputs,
    only.sinkIn, only.srcIn⟩
  rintro rfl
  exact exec_alphaLoad_halted hx

end Sys2Proof.Machine

/-! SUPPORT. The statement of spec/60_exceptions.md: commands on empty slots and unbound instances are refused (R231, causes
d and f). -/

namespace Sys2Proof.Machine

/-! ## Ending with a refusal -/

theorem refuse_slot {i : Instr} {a : UnitIdx} (ht : targetOf i = .alpha a) (s : State) :
    refuse i s = .next (s.emit (.result s.caller (some i) refusedResult)) :=
  finish_slot ht s _ _ _ _

/-- A refused command on an encoder leaves the instance as it found it. -/
theorem refuse_enc {i : Instr} {s : State} {e : UnitIdx} (ht : targetOf i = .enc e) (h : EncReady s e) :
    refuse i (s.setLock true (.enc e)) = .next (s.emit (.result s.caller (some i) refusedResult)) :=
  finish_enc ht h _ _ _ _

/-- A refused command on a decoder leaves the instance as it found it. -/
theorem refuse_dec {i : Instr} {s : State} {d : UnitIdx} (ht : targetOf i = .dec d) (h : DecReady s d) :
    refuse i (s.setLock true (.dec d)) = .next (s.emit (.result s.caller (some i) refusedResult)) :=
  finish_dec ht h _ _ _ _

section Refused

variable {s : State} {a e d : UnitIdx}

/-! ## Empty slots -/

theorem exec_alphaEncv_of_empty (h : SlotReady s a) (he : (s.slotAt a).valid = false) (v : BitVec 2) :
    exec (.alphaEncv a v) s = .next (s.emit (.result s.caller (some (.alphaEncv a v)) refusedResult)) := by
  rw [exec, execAlphaEncv, prologue_slot rfl h, he]
  exact refuse_slot rfl s

theorem exec_alphaDect_of_empty (h : SlotReady s a) (he : (s.slotAt a).valid = false) (w : Token) :
    exec (.alphaDect a w) s = .next (s.emit (.result s.caller (some (.alphaDect a w)) refusedResult)) := by
  rw [exec, execAlphaDect, prologue_slot rfl h, he]
  exact refuse_slot rfl s

theorem exec_osEncode_of_empty (h : SlotReady s a) (he : (s.slotAt a).valid = false) (p : List Byte) (dcap : Word32) :
    exec (.osEncode a p dcap) s = .next (s.emit (.result s.caller (some (.osEncode a p dcap)) refusedResult)) := by
  rw [exec, execOsEncode, prologue_slot rfl h, he]
  exact refuse_slot rfl s

theorem exec_osDecode_of_empty (h : SlotReady s a) (he : (s.slotAt a).valid = false) (p : List Byte) (dcap : Word32) :
    exec (.osDecode a p dcap) s = .next (s.emit (.result s.caller (some (.osDecode a p dcap)) refusedResult)) := by
  rw [exec, execOsDecode, prologue_slot rfl h, he]
  exact refuse_slot rfl s

/-- An encoder is not bound to an empty slot, whether the slot's index is in range or not. -/
theorem exec_encOpen_of_empty (h : EncReady s e) (he : (s.slotAt a).valid = false) :
    exec (.encOpen e a) s = .next (s.emit (.result s.caller (some (.encOpen e a)) refusedResult)) := by
  rw [exec, execEncOpen, prologue_enc rfl h, setLock_slotAt, he, Bool.and_false]
  exact refuse_enc rfl h

/-- A decoder is not bound to an empty slot, whether the slot's index is in range or not. -/
theorem exec_decOpen_of_empty (h : DecReady s d) (he : (s.slotAt a).valid = false) :
    exec (.decOpen d a) s = .next (s.emit (.result s.caller (some (.decOpen d a)) refusedResult)) := by
  rw [exec, execDecOpen, prologue_dec rfl h, setLock_slotAt, he, Bool.and_false]
  exact refuse_dec rfl h

/-! ## Unbound instances -/

/-- The binding is looked at before the payload, so even a write of no bytes is refused (R152). -/
theorem exec_encWrite_of_unbound (h : EncReady s e) (hb : (s.encAt e).bound = false) (p : List Byte) :
    exec (.encWrite e p) s = .next (s.emit (.result s.caller (some (.encWrite e p)) refusedResult)) := by
  rw [exec, execEncWrite, prologue_enc rfl h, setLock_enc_bound, hb]
  exact refuse_enc rfl h

/-- The binding is looked at before the fault and the capacity (R182). -/
theorem exec_decRead_of_unbound (h : DecReady s d) (hb : (s.decAt d).bound = false) (c : Arg) :
    exec (.decRead d c) s = .next (s.emit (.result s.caller (some (.decRead d c)) refusedResult)) := by
  rw [exec, execDecRead, prologue_dec rfl h, setLock_dec_bound, hb]
  exact refuse_dec rfl h

/-- The binding is looked at before the size and the fault (R186). -/
theorem exec_decInto_of_unbound (h : DecReady s d) (hb : (s.decAt d).bound = false) (n : Arg) :
    exec (.decInto d n) s = .next (s.emit (.result s.caller (some (.decInto d n)) refusedResult)) := by
  rw [exec, execDecInto, prologue_dec rfl h, setLock_dec_bound, hb]
  exact refuse_dec rfl h

end Refused

/-- Settles O26: one clause for each command that needs a valid slot or a bound instance. -/
theorem emptySlotOrUnboundRefused : Obligations.EmptySlotOrUnboundRefused := by
  intro i s h
  rcases h with ⟨a, v, rfl, h, he⟩ | ⟨a, w, rfl, h, he⟩ | ⟨e, a, rfl, h, he⟩ | ⟨d, a, rfl, h, he⟩ |
    ⟨a, p, cap, rfl, h, he⟩ | ⟨a, p, cap, rfl, h, he⟩ | ⟨e, p, rfl, h, hb⟩ | ⟨d, c, rfl, h, hb⟩ | ⟨d, n, rfl, h, hb⟩
  · exact exec_alphaEncv_of_empty h he v
  · exact exec_alphaDect_of_empty h he w
  · exact exec_encOpen_of_empty h he
  · exact exec_decOpen_of_empty h he
  · exact exec_osEncode_of_empty h he p cap
  · exact exec_osDecode_of_empty h he p cap
  · exact exec_encWrite_of_unbound h hb p
  · exact exec_decRead_of_unbound h hb c
  · exact exec_decInto_of_unbound h hb n

end Sys2Proof.Machine

/-! SUPPORT. The statements of spec/70_reset_and_hazards.md: what reset abandons (R252), and a write that waits for its
sink (R271). -/

namespace Sys2Proof.Machine

/-! ## What reset abandons -/

/-- Of the writes that a reset cuts short only the bytes their sinks took are recorded (R252, U8). -/
theorem result_notMem_cutWrites (s : State) (taken : List Nat) (caller : Nat) (i : Option Instr) (r : Result) :
    .result caller i r ∉ cutWrites s taken := by
  intro hmem
  obtain ⟨e, -, he⟩ := List.mem_filterMap.1 hmem
  dsimp only at he
  split at he <;> cases he

/-- Settles O60: the registers have their reset values, which hold no job, and reset adds to the record only the writes
it cuts short and itself. -/
theorem resetAbandonsCommands : Obligations.ResetAbandonsCommands := by
  intro s taken rest hin
  refine ⟨resetEngine taken (s.setInputs rest), .reset :: cutWrites (s.setInputs rest) taken, step_of_inputs hin,
    rfl, fun e => ?_, fun d => ?_, rfl, fun c i r hmem => ?_, rfl, rfl⟩
  · rw [resetEngine_encAt, Encoder.reset]
  · rw [resetEngine_decAt, Decoder.reset]
  · cases hmem with
    | tail _ hmem => exact result_notMem_cutWrites _ taken c i r hmem

/-! ## A write that waits for its sink -/

section Write

variable {s : State} {e : UnitIdx} {p : List Byte} {a : SinkAnswer} {rest : List SinkAnswer} {j : EncJob}

/-- Without an answer of its sink an encoder does nothing. -/
theorem serveEncoder_blocked (hs : s.sinkAt e = []) : serveEncoder e s = .next s := by
  cases hj : (s.encAt e).job <;> simp [serveEncoder, hj, hs]

/-- A write that starts with no answer of its sink ready waits, its scratch filled (R271). -/
theorem exec_encWrite_blocked (h : EncReady s e) (hb : (s.encAt e).bound = true) (hp : p ≠ [])
    (hs : s.sinkAt e = []) : exec (.encWrite e p) s = .next (startWrite e p (s.setLock true (.enc e))) := by
  rw [exec_write h hb hp, startWrite_state, serveEncoder_blocked (s := s.setEnc e _) hs]

/-- The write `j` of encoder `e` has ended on the answer `a` of its sink: the answer is consumed, nothing of other
instances has changed, the lock is free, the binding and `EHWM` stay, and the record has the one sink write and the result
(R26, R152, R156, R157). -/
structure WriteAnswered (s : State) (e : UnitIdx) (j : EncJob) (a : SinkAnswer) (rest : List SinkAnswer) (t : State) :
    Prop where
  only : OnlyEncoder e s t
  waiting : t.waiting = s.waiting
  sink : t.sinkAt e = rest
  lock : (t.encAt e).lock = false
  job : (t.encAt e).job = none
  bound : (t.encAt e).bound = (s.encAt e).bound
  asel : (t.encAt e).asel = (s.encAt e).asel
  hwm : (t.encAt e).hwm = (s.encAt e).hwm
  trace : t.trace = .result j.caller (some (.encWrite e j.payload)) (sinkResult j.payload.length a) ::
    .sinkWrite e (s.encAt e).path.escr a :: s.trace

/-- A write in progress ends when its sink gives an answer that keeps its duty. -/
theorem serveEncoder_answered (hj : (s.encAt e).job = some j) (hs : s.sinkAt e = a :: rest)
    (hd : sinkDuty (s.encAt e).path.escr.length a = true) :
    ∃ t, serveEncoder e s = .next t ∧ WriteAnswered s e j a rest t := by
  have q : serveEncoder e s =
      .next (sinkAnswered e j a ((s.setSink e rest).emit (.sinkWrite e (s.encAt e).path.escr a))) := by
    simp [serveEncoder, hj, hs, hd]
  obtain ⟨only, waiting⟩ := serveEncoder_only q
  obtain ⟨bound, asel, hwm⟩ := serveEncoder_keeps q
  refine ⟨_, q, only, waiting, ?_, ?_, ?_, bound, asel, hwm, ?_⟩ <;> simp [sinkAnswered_eq]

/-- A sink keeps its duty if it takes no more than it is offered, and all of it unless it reports an error (R67). -/
theorem sinkDuty_of_accepted {n : Nat} (hle : a.accepted ≤ n) (hall : a.err = none → a.accepted = n) :
    sinkDuty n a = true := by
  rw [← Bool.not_eq_false, sinkDuty_eq_false_iff]
  rintro (⟨hok, hne⟩ | hlt)
  · exact hne (hall hok)
  · exact Nat.not_lt.2 hle hlt

end Write

/-- Settles O31: waiting leaves the started write as it is, and the sink's answer then ends it as at once. -/
theorem encWriteBlocksAndResumes : Obligations.EncWriteBlocksAndResumes := by
  intro e p s h hb hp hlen hs
  refine ⟨_, exec_encWrite_blocked h hb hp hs, startWrite_only s e p, ?_⟩
  rw [startWrite_state, setEnc_encAt_self]
  have hscr : (encodePayload (s.tokens (s.encAt e).asel) ⟨(s.encAt e).path.ecur, []⟩ p).escr =
      encBytes (s.tokens (s.encAt e).asel) p := encodePayload_escr _ _ _
  refine ⟨rfl, rfl, rfl, hscr, raiseHwm_toNat _ hlen, ?_, ?_⟩
  · intro u tl hin hrun _ hsink
    rw [step_serveEnc hin hrun, serveEncoder_blocked (s := u.setInputs tl) hsink]
  · intro u tl m err rest hin hrun hu hsink hle hall
    have hu : (u.setInputs tl).encAt e = _ := hu
    have hduty : sinkDuty ((u.setInputs tl).encAt e).path.escr.length ⟨m, err⟩ = true := by
      rw [hu, hscr, encBytes_length]
      exact sinkDuty_of_accepted hle hall
    obtain ⟨v, q, only, waiting, sink, lock, job, bound, asel, hwm, trace⟩ :=
      serveEncoder_answered (s := u.setInputs tl) (j := ⟨s.caller, p⟩) (by rw [hu]) hsink hduty
    rw [hu] at bound asel hwm trace
    refine ⟨v, (step_serveEnc hin hrun).trans q, only, waiting, sink, lock, job, bound.trans hb, asel, hwm, ?_⟩
    rw [trace, hscr]
    cases err <;> rfl

end Sys2Proof.Machine
